-- ==== Sys2Proof/Word.lean ====
section
/-! DEFINITION. The word types of STM32-CORE (spec/00_scope.md R5, R6): every value is unsigned, bit 0 is the
least significant bit. -/

namespace Sys2Proof

/-- A command, response or stimulus word, CW = 32 bits (R5, R80, R81, R86). -/
abbrev Word := BitVec 32

/-- The DATA field and the content of a register, RW = 16 bits (R5, R32). -/
abbrev Data := BitVec 16

/-- A Sample: "a fixed-width unsigned integer, the raw converted value", SW = 16 bits (R5, R31). -/
abbrev Sample := BitVec 16

/-- A register address or event id: the ADDR field, RAW = 12 bits (R5, R80). -/
abbrev RegAddr := BitVec 12

/-- One byte of a stored trace file (R95) or of a report line (R207). -/
abbrev Byte := BitVec 8

end Sys2Proof
end

