-- ==== Sys2Proof/Config.lean ====
section
/-! DEFINITION. The implementation parameters of spec/00_scope.md R5 that are not already the widths of the types of
Sys2Proof.Word. All are constants of the spec but `f_clk`, which is an argument of the one function that uses it.
The model has no free value: every value the spec leaves open is either an input held in the state (the trace, with the
value drawn at CONV, U4) or the content of an unwritten slot, which is no value at all (U1, U2). -/

namespace Sys2Proof.Config

/-- M = 2^BAW: the number of slots of the sample memory (R5, R30). -/
def memSlots : Nat := 65536

/-- The bound of every 16-bit operand: an immediate is 0 .. 65535 (R5, R91). -/
def immBound : Nat := 65536

/-- The smallest ring capacity ("buffer capacity N (even, ≥2)", R5, R161). -/
def minCapacity : Nat := 2

/-- Seconds taken by `ticks` input-clock cycles at `fclk` Hz: division by the open parameter `f_clk` (R5, R118,
D10). No rule of the machine reads it. -/
def seconds (fclk : Rat) (ticks : Nat) : Rat := (ticks : Rat) / fclk

end Sys2Proof.Config
end

