-- ==== Sys2Proof/Syntax.lean ====
section
/-! DEFINITION. The steps of STM32-CORE as syntax: one constructor of `Instr` per row of spec/opcode_table.json (23 host
commands and 12 steps of the hardware agents and the environment), the register names of spec/10_state.md R32, the
channels a word can arrive on (spec/30_encoding.md R86) and the assembler statements of R91 and R92. -/

namespace Sys2Proof

/-- Where a word arrives: the hardware's `cmd` port, on which OP 0xE is reserved, or a trace, in which OP 0xE is a
stimulus word (R86, R88). -/
inductive Channel where
  | cmd
  | trace
  deriving DecidableEq, Repr

/-- The eleven registers of the register map (R32). -/
inductive Reg where
  | tgCr | tgPsc | tgArr | seCr | seDr | teEn | teCr | teSrc | teDst | teN | cfSr
  deriving DecidableEq, Repr

/-- The twelve event ids of format E (R87). -/
inductive Event where
  | tick | conv | xfer | ackHt | ackTc | ackTe | ackFe | ackDme | errTe | errFe | errDme | reset
  deriving DecidableEq, Repr

/-- The four formats of a word (R80). -/
inductive Format where
  | R | W | S | E
  deriving DecidableEq, Repr

/-- Every step that has a word. DATA bits that decoding ignores (U15) are no operand. -/
inductive Instr where
  /-- RD_TG_CR: read the run bit (R112). -/
  | rdTgCr
  /-- WR_TG_CR: start or stop the counter (R111). -/
  | wrTgCr (data : Data)
  /-- RD_TG_PSC: read the prescale value (R114). -/
  | rdTgPsc
  /-- WR_TG_PSC: set the prescale value (R113). -/
  | wrTgPsc (data : Data)
  /-- RD_TG_ARR: read the reload value (R116). -/
  | rdTgArr
  /-- WR_TG_ARR: set the reload value (R115). -/
  | wrTgArr (data : Data)
  /-- RD_SE_CR: read the Sampling Engine settings (R132). -/
  | rdSeCr
  /-- WR_SE_CR: arm or disarm and store the inert settings (R131). -/
  | wrSeCr (data : Data)
  /-- RD_SE_DR: read the result register (R133). -/
  | rdSeDr
  /-- WR_SE_DR: always refused with ERR_ACCESS (R134). -/
  | wrSeDr (data : Data)
  /-- RD_TE_EN: read the enable bit (R152). -/
  | rdTeEn
  /-- WR_TE_EN: enable or disable the engine (R151). -/
  | wrTeEn (data : Data)
  /-- RD_TE_CR: read the mode flags (R154). -/
  | rdTeCr
  /-- WR_TE_CR: set the three mode flags (R153). -/
  | wrTeCr (data : Data)
  /-- RD_TE_SRC: read the source address (R156). -/
  | rdTeSrc
  /-- WR_TE_SRC: set the source address (R155). -/
  | wrTeSrc (data : Data)
  /-- RD_TE_DST: read the destination (R158). -/
  | rdTeDst
  /-- WR_TE_DST: set the destination (R157). -/
  | wrTeDst (data : Data)
  /-- RD_TE_N: read the capacity (R160). -/
  | rdTeN
  /-- WR_TE_N: set the capacity (R159). -/
  | wrTeN (data : Data)
  /-- RD_CF_SR: read the two completion flags (R186). -/
  | rdCfSr
  /-- WR_CF_SR: clear flags (write one to clear) (R187). -/
  | wrCfSr (data : Data)
  /-- RDS: read one slot of the sample memory (R200). -/
  | rds (slot : Data)
  /-- TICK: `count` cycles of the input clock (R117). -/
  | tick (count : Data)
  /-- CONV: a conversion completes with `value` (R136). -/
  | conv (value : Sample)
  /-- XFER: copy one sample into the ring (R162). -/
  | xfer
  /-- ACK_HT: acknowledge half filled (R181). -/
  | ackHt
  /-- ACK_TC: acknowledge full filled (R182). -/
  | ackTc
  /-- ACK_TE: acknowledge the transfer error (R183). -/
  | ackTe
  /-- ACK_FE: acknowledge the FIFO error (R184). -/
  | ackFe
  /-- ACK_DME: acknowledge the direct-mode error (R185). -/
  | ackDme
  /-- ERR_TE: a transfer error occurs (R164). -/
  | errTe
  /-- ERR_FE: a FIFO error occurs (R165). -/
  | errFe
  /-- ERR_DME: a direct-mode error occurs (R166). -/
  | errDme
  /-- RESET: the reset step (R260). -/
  | reset
  deriving DecidableEq, Repr

/-- An assembler statement as written (R91, R92): immediates are the numbers of the text, not yet narrowed. -/
inductive AsmStmt where
  | rd (r : Reg)
  | wr (r : Reg) (imm : Nat)
  | rds (slot : Nat)
  | tick (count : Nat)
  | conv (value : Nat)
  | plain (e : Event)
  | start
  | stop
  | period (p a : Nat)
  | arm
  | enable
  | disable
  | ring (d n : Nat)
  | poll
  | clrh
  | clrf
  | sample (v : Nat)
  deriving DecidableEq, Repr

end Sys2Proof
end

