-- ==== Sys2Proof/WellFormed.lean ====
section
/-! DEFINITION. Which terms are well formed. The operands of `Instr` have the width of their field, so the one check left
for an instruction is the channel it may be sent on (R86); an assembler statement's immediates are checked against
0 .. 65535 (R91: "An immediate outside 0 .. 65535 is an assembly error, not truncated"). -/

namespace Sys2Proof

/-- The format of each instruction's word (R80, R82). -/
def Instr.format : Instr → Format
  | .rdTgCr => .R
  | .wrTgCr _ => .W
  | .rdTgPsc => .R
  | .wrTgPsc _ => .W
  | .rdTgArr => .R
  | .wrTgArr _ => .W
  | .rdSeCr => .R
  | .wrSeCr _ => .W
  | .rdSeDr => .R
  | .wrSeDr _ => .W
  | .rdTeEn => .R
  | .wrTeEn _ => .W
  | .rdTeCr => .R
  | .wrTeCr _ => .W
  | .rdTeSrc => .R
  | .wrTeSrc _ => .W
  | .rdTeDst => .R
  | .wrTeDst _ => .W
  | .rdTeN => .R
  | .wrTeN _ => .W
  | .rdCfSr => .R
  | .wrCfSr _ => .W
  | .rds _ => .S
  | .tick _ => .E
  | .conv _ => .E
  | .xfer => .E
  | .ackHt => .E
  | .ackTc => .E
  | .ackTe => .E
  | .ackFe => .E
  | .ackDme => .E
  | .errTe => .E
  | .errFe => .E
  | .errDme => .E
  | .reset => .E

/-- A command is a step the host performs by sending a word; format E words are no commands (R8, R80, R86). -/
def Instr.isCommand (i : Instr) : Bool := i.format != .E

/-- An instruction may be sent on the `cmd` port if it is a command; in a trace every instruction may stand (R86). -/
def Instr.wellFormed (c : Channel) (i : Instr) : Bool :=
  match c with
  | .cmd => i.isCommand
  | .trace => true

/-- Whether the instruction takes its DATA field as an operand; the other forms ignore it (R80, R87, U15). -/
def Instr.takesData : Instr → Bool
  | .rdTgCr => false
  | .wrTgCr _ => true
  | .rdTgPsc => false
  | .wrTgPsc _ => true
  | .rdTgArr => false
  | .wrTgArr _ => true
  | .rdSeCr => false
  | .wrSeCr _ => true
  | .rdSeDr => false
  | .wrSeDr _ => true
  | .rdTeEn => false
  | .wrTeEn _ => true
  | .rdTeCr => false
  | .wrTeCr _ => true
  | .rdTeSrc => false
  | .wrTeSrc _ => true
  | .rdTeDst => false
  | .wrTeDst _ => true
  | .rdTeN => false
  | .wrTeN _ => true
  | .rdCfSr => false
  | .wrCfSr _ => true
  | .rds _ => true
  | .tick _ => true
  | .conv _ => true
  | .xfer => false
  | .ackHt => false
  | .ackTc => false
  | .ackTe => false
  | .ackFe => false
  | .ackDme => false
  | .errTe => false
  | .errFe => false
  | .errDme => false
  | .reset => false

/-- An immediate of the assembler text (R91). -/
def immOk (v : Nat) : Bool := v < Config.immBound

/-- Every immediate lies in 0 .. 65535, and TICK and CONV are written with their operand (R91). -/
def AsmStmt.wellFormed : AsmStmt → Bool
  | .rd _ => true
  | .wr _ imm => immOk imm
  | .rds slot => immOk slot
  | .tick count => immOk count
  | .conv value => immOk value
  | .plain e => e != .tick && e != .conv
  | .start => true
  | .stop => true
  | .period p a => immOk p && immOk a
  | .arm => true
  | .enable => true
  | .disable => true
  | .ring d n => immOk d && immOk n
  | .poll => true
  | .clrh => true
  | .clrf => true
  | .sample v => immOk v

end Sys2Proof
end

