-- ==== Sys2Proof/Decode.lean ====
section
/-! DEFINITION. Decoding of 32-bit words, total and rejecting by name (spec/30_encoding.md R80 to R95), and after it the
encoder. A word is split into OP, ADDR and DATA (R80); the tests of R88 are applied in order. Bit fields, the opcode
table as data (R93) and the little-endian byte form of a stored trace (R95) stand here too. -/

namespace Sys2Proof

/-- OP, bits 31:28 (R80). -/
def Word.op (w : Word) : BitVec 4 := w.extractLsb' 28 4

/-- ADDR, bits 27:16 (R80). -/
def Word.addr (w : Word) : RegAddr := w.extractLsb' 16 12

/-- DATA, bits 15:0 (R80). -/
def Word.data (w : Word) : Data := w.extractLsb' 0 16

/-- OP ++ ADDR ++ DATA, the number OP × 2^28 + ADDR × 2^16 + DATA (R80). -/
def mkWord (op : BitVec 4) (addr : RegAddr) (data : Data) : Word := op ++ addr ++ data

/-- The register map's addresses (R32). -/
def Reg.addr : Reg → RegAddr
  | .tgCr => 0x000
  | .tgPsc => 0x001
  | .tgArr => 0x002
  | .seCr => 0x010
  | .seDr => 0x011
  | .teEn => 0x020
  | .teCr => 0x021
  | .teSrc => 0x022
  | .teDst => 0x023
  | .teN => 0x024
  | .cfSr => 0x030

/-- The eleven registers in address order (R32). -/
def Reg.all : List Reg :=
  [.tgCr, .tgPsc, .tgArr, .seCr, .seDr, .teEn, .teCr, .teSrc, .teDst, .teN, .cfSr]

/-- The register at an address; an address not in R32 is unmapped (R66, R88). -/
def regAt (a : RegAddr) : Option Reg := Reg.all.find? (fun r => r.addr == a)

/-- The event ids (R87). -/
def Event.id : Event → RegAddr
  | .tick => 0x001
  | .conv => 0x002
  | .xfer => 0x003
  | .ackHt => 0x004
  | .ackTc => 0x005
  | .ackTe => 0x006
  | .ackFe => 0x007
  | .ackDme => 0x008
  | .errTe => 0x009
  | .errFe => 0x00A
  | .errDme => 0x00B
  | .reset => 0x00F

/-- The twelve events in id order (R87). -/
def Event.all : List Event :=
  [.tick, .conv, .xfer, .ackHt, .ackTc, .ackTe, .ackFe, .ackDme, .errTe, .errFe, .errDme, .reset]

/-- The event with an id; any other id is reserved (R87). -/
def eventAt (a : RegAddr) : Option Event := Event.all.find? (fun e => e.id == a)

/-- RD of a register: DATA is ignored (R80, R83). -/
def rdOf : Reg → Instr
  | .tgCr => .rdTgCr
  | .tgPsc => .rdTgPsc
  | .tgArr => .rdTgArr
  | .seCr => .rdSeCr
  | .seDr => .rdSeDr
  | .teEn => .rdTeEn
  | .teCr => .rdTeCr
  | .teSrc => .rdTeSrc
  | .teDst => .rdTeDst
  | .teN => .rdTeN
  | .cfSr => .rdCfSr

/-- WR of a register: DATA is the value written (R80, R83). -/
def wrOf (r : Reg) (data : Data) : Instr :=
  match r with
  | .tgCr => .wrTgCr data
  | .tgPsc => .wrTgPsc data
  | .tgArr => .wrTgArr data
  | .seCr => .wrSeCr data
  | .seDr => .wrSeDr data
  | .teEn => .wrTeEn data
  | .teCr => .wrTeCr data
  | .teSrc => .wrTeSrc data
  | .teDst => .wrTeDst data
  | .teN => .wrTeN data
  | .cfSr => .wrCfSr data

/-- The step of an event: DATA is the repeat count of TICK and the drawn value of CONV, ignored by the rest (R87). -/
def eventOf (e : Event) (data : Data) : Instr :=
  match e with
  | .tick => .tick data
  | .conv => .conv data
  | .xfer => .xfer
  | .ackHt => .ackHt
  | .ackTc => .ackTc
  | .ackTe => .ackTe
  | .ackFe => .ackFe
  | .ackDme => .ackDme
  | .errTe => .errTe
  | .errFe => .errFe
  | .errDme => .errDme
  | .reset => .reset

/-- Why a word is no instruction (R88). -/
inductive DecodeError where
  /-- OP is not 0x1, 0x2 or 0x3 (nor, in a trace, 0xE). -/
  | reservedOp
  /-- RD or WR of an address that is not in the register map. -/
  | unmappedRegister (a : RegAddr)
  /-- RDS with a nonzero ADDR field. -/
  | slotAddrField (a : RegAddr)
  /-- A stimulus word whose id is not in R87. -/
  | unknownEvent (a : RegAddr)
  /-- Fewer than four bytes are left of a stored trace (R95). -/
  | truncated
  deriving DecidableEq, Repr

/-- R88 and R93: the tests in order, then the row of the table. WR SE_DR decodes: its refusal is its own rule (R134). -/
def decode (c : Channel) (w : Word) : Except DecodeError Instr :=
  if w.op = 0x1 then
    match regAt w.addr with
    | some r => .ok (rdOf r)
    | none => .error (.unmappedRegister w.addr)
  else if w.op = 0x2 then
    match regAt w.addr with
    | some r => .ok (wrOf r w.data)
    | none => .error (.unmappedRegister w.addr)
  else if w.op = 0x3 then
    if w.addr = 0 then .ok (.rds w.data) else .error (.slotAddrField w.addr)
  else if w.op = 0xE ∧ c = .trace then
    match eventAt w.addr with
    | some e => .ok (eventOf e w.data)
    | none => .error (.unknownEvent w.addr)
  else .error .reservedOp

/-- The word of an instruction (R80, R87 and the opcode map of 30_encoding.md section 6); ignored DATA is emitted
as 0 (R80). -/
def encode : Instr → Word
  | .rdTgCr => mkWord 0x1 (Reg.addr .tgCr) 0
  | .wrTgCr data => mkWord 0x2 (Reg.addr .tgCr) data
  | .rdTgPsc => mkWord 0x1 (Reg.addr .tgPsc) 0
  | .wrTgPsc data => mkWord 0x2 (Reg.addr .tgPsc) data
  | .rdTgArr => mkWord 0x1 (Reg.addr .tgArr) 0
  | .wrTgArr data => mkWord 0x2 (Reg.addr .tgArr) data
  | .rdSeCr => mkWord 0x1 (Reg.addr .seCr) 0
  | .wrSeCr data => mkWord 0x2 (Reg.addr .seCr) data
  | .rdSeDr => mkWord 0x1 (Reg.addr .seDr) 0
  | .wrSeDr data => mkWord 0x2 (Reg.addr .seDr) data
  | .rdTeEn => mkWord 0x1 (Reg.addr .teEn) 0
  | .wrTeEn data => mkWord 0x2 (Reg.addr .teEn) data
  | .rdTeCr => mkWord 0x1 (Reg.addr .teCr) 0
  | .wrTeCr data => mkWord 0x2 (Reg.addr .teCr) data
  | .rdTeSrc => mkWord 0x1 (Reg.addr .teSrc) 0
  | .wrTeSrc data => mkWord 0x2 (Reg.addr .teSrc) data
  | .rdTeDst => mkWord 0x1 (Reg.addr .teDst) 0
  | .wrTeDst data => mkWord 0x2 (Reg.addr .teDst) data
  | .rdTeN => mkWord 0x1 (Reg.addr .teN) 0
  | .wrTeN data => mkWord 0x2 (Reg.addr .teN) data
  | .rdCfSr => mkWord 0x1 (Reg.addr .cfSr) 0
  | .wrCfSr data => mkWord 0x2 (Reg.addr .cfSr) data
  | .rds slot => mkWord 0x3 0x000 slot
  | .tick count => mkWord 0xE (Event.id .tick) count
  | .conv value => mkWord 0xE (Event.id .conv) value
  | .xfer => mkWord 0xE (Event.id .xfer) 0
  | .ackHt => mkWord 0xE (Event.id .ackHt) 0
  | .ackTc => mkWord 0xE (Event.id .ackTc) 0
  | .ackTe => mkWord 0xE (Event.id .ackTe) 0
  | .ackFe => mkWord 0xE (Event.id .ackFe) 0
  | .ackDme => mkWord 0xE (Event.id .ackDme) 0
  | .errTe => mkWord 0xE (Event.id .errTe) 0
  | .errFe => mkWord 0xE (Event.id .errFe) 0
  | .errDme => mkWord 0xE (Event.id .errDme) 0
  | .reset => mkWord 0xE (Event.id .reset) 0

/-- The mnemonic of each instruction's row (R93, 30_encoding.md section 6). -/
def Instr.mnemonic : Instr → String
  | .rdTgCr => "RD_TG_CR"
  | .wrTgCr _ => "WR_TG_CR"
  | .rdTgPsc => "RD_TG_PSC"
  | .wrTgPsc _ => "WR_TG_PSC"
  | .rdTgArr => "RD_TG_ARR"
  | .wrTgArr _ => "WR_TG_ARR"
  | .rdSeCr => "RD_SE_CR"
  | .wrSeCr _ => "WR_SE_CR"
  | .rdSeDr => "RD_SE_DR"
  | .wrSeDr _ => "WR_SE_DR"
  | .rdTeEn => "RD_TE_EN"
  | .wrTeEn _ => "WR_TE_EN"
  | .rdTeCr => "RD_TE_CR"
  | .wrTeCr _ => "WR_TE_CR"
  | .rdTeSrc => "RD_TE_SRC"
  | .wrTeSrc _ => "WR_TE_SRC"
  | .rdTeDst => "RD_TE_DST"
  | .wrTeDst _ => "WR_TE_DST"
  | .rdTeN => "RD_TE_N"
  | .wrTeN _ => "WR_TE_N"
  | .rdCfSr => "RD_CF_SR"
  | .wrCfSr _ => "WR_CF_SR"
  | .rds _ => "RDS"
  | .tick _ => "TICK"
  | .conv _ => "CONV"
  | .xfer => "XFER"
  | .ackHt => "ACK_HT"
  | .ackTc => "ACK_TC"
  | .ackTe => "ACK_TE"
  | .ackFe => "ACK_FE"
  | .ackDme => "ACK_DME"
  | .errTe => "ERR_TE"
  | .errFe => "ERR_FE"
  | .errDme => "ERR_DME"
  | .reset => "RESET"

/-- A row of the opcode table (R93): a word belongs to it when `word AND mask = pattern`. -/
structure OpcodeRow where
  mnemonic : String
  mask : Word
  pattern : Word
  deriving DecidableEq, Repr

/-- The opcode map of 30_encoding.md section 6, commands first. -/
def commandRows : List OpcodeRow := [
  ⟨"RD_TG_CR", 0xFFFF0000, 0x10000000⟩,
  ⟨"WR_TG_CR", 0xFFFF0000, 0x20000000⟩,
  ⟨"RD_TG_PSC", 0xFFFF0000, 0x10010000⟩,
  ⟨"WR_TG_PSC", 0xFFFF0000, 0x20010000⟩,
  ⟨"RD_TG_ARR", 0xFFFF0000, 0x10020000⟩,
  ⟨"WR_TG_ARR", 0xFFFF0000, 0x20020000⟩,
  ⟨"RD_SE_CR", 0xFFFF0000, 0x10100000⟩,
  ⟨"WR_SE_CR", 0xFFFF0000, 0x20100000⟩,
  ⟨"RD_SE_DR", 0xFFFF0000, 0x10110000⟩,
  ⟨"WR_SE_DR", 0xFFFF0000, 0x20110000⟩,
  ⟨"RD_TE_EN", 0xFFFF0000, 0x10200000⟩,
  ⟨"WR_TE_EN", 0xFFFF0000, 0x20200000⟩,
  ⟨"RD_TE_CR", 0xFFFF0000, 0x10210000⟩,
  ⟨"WR_TE_CR", 0xFFFF0000, 0x20210000⟩,
  ⟨"RD_TE_SRC", 0xFFFF0000, 0x10220000⟩,
  ⟨"WR_TE_SRC", 0xFFFF0000, 0x20220000⟩,
  ⟨"RD_TE_DST", 0xFFFF0000, 0x10230000⟩,
  ⟨"WR_TE_DST", 0xFFFF0000, 0x20230000⟩,
  ⟨"RD_TE_N", 0xFFFF0000, 0x10240000⟩,
  ⟨"WR_TE_N", 0xFFFF0000, 0x20240000⟩,
  ⟨"RD_CF_SR", 0xFFFF0000, 0x10300000⟩,
  ⟨"WR_CF_SR", 0xFFFF0000, 0x20300000⟩,
  ⟨"RDS", 0xFFFF0000, 0x30000000⟩]

/-- The event rows of 30_encoding.md section 6. -/
def eventRows : List OpcodeRow := [
  ⟨"TICK", 0xFFFF0000, 0xE0010000⟩,
  ⟨"CONV", 0xFFFF0000, 0xE0020000⟩,
  ⟨"XFER", 0xFFFF0000, 0xE0030000⟩,
  ⟨"ACK_HT", 0xFFFF0000, 0xE0040000⟩,
  ⟨"ACK_TC", 0xFFFF0000, 0xE0050000⟩,
  ⟨"ACK_TE", 0xFFFF0000, 0xE0060000⟩,
  ⟨"ACK_FE", 0xFFFF0000, 0xE0070000⟩,
  ⟨"ACK_DME", 0xFFFF0000, 0xE0080000⟩,
  ⟨"ERR_TE", 0xFFFF0000, 0xE0090000⟩,
  ⟨"ERR_FE", 0xFFFF0000, 0xE00A0000⟩,
  ⟨"ERR_DME", 0xFFFF0000, 0xE00B0000⟩,
  ⟨"RESET", 0xFFFF0000, 0xE00F0000⟩]

/-- All 35 rows. -/
def opcodeTable : List OpcodeRow := commandRows ++ eventRows

/-- Whether a word belongs to a row (R93). -/
def OpcodeRow.covers (r : OpcodeRow) (w : Word) : Bool := w &&& r.mask == r.pattern

/-- The bytes of a stored word, least significant first (R62, R95). -/
def bytesOfWord (w : Word) : List Byte :=
  [w.extractLsb' 0 8, w.extractLsb' 8 8, w.extractLsb' 16 8, w.extractLsb' 24 8]

/-- The word of four stored bytes, least significant first (R95). -/
def wordOfBytes (b0 b1 b2 b3 : Byte) : Word := b3 ++ b2 ++ b1 ++ b0

/-- Decoding of the first word of a stored trace, with the bytes that follow it (R95). -/
def decodeBytes (c : Channel) : List Byte → Except DecodeError (Instr × List Byte)
  | b0 :: b1 :: b2 :: b3 :: rest =>
    match decode c (wordOfBytes b0 b1 b2 b3) with
    | .ok i => .ok (i, rest)
    | .error e => .error e
  | _ => .error .truncated

/-- The bytes of a stored trace (R95). -/
def bytesOfWords : List Word → List Byte
  | [] => []
  | w :: ws => bytesOfWord w ++ bytesOfWords ws

/-- The words of a stored trace; none if its length is no multiple of four bytes (R95). -/
def wordsOfBytes : List Byte → Option (List Word)
  | [] => some []
  | b0 :: b1 :: b2 :: b3 :: rest => (wordsOfBytes rest).map (fun ws => wordOfBytes b0 b1 b2 b3 :: ws)
  | _ => none

/-- The instruction the decoder reads from the opcode-table word `w` of `nbits` bits, stored as R95 stores it. -/
def decodeTableWord (nbits w : Nat) : Option Instr :=
  match decodeBytes .trace (bytesOfWord (BitVec.ofNat 32 (w % 2 ^ nbits))) with
  | .ok (i, _) => some i
  | .error _ => none

end Sys2Proof
end

