-- ==== Sys2Proof/Machine/State.lean ====
section
/-! DEFINITION. The state of STM32-CORE (spec/10_state.md), plain data, with its reset value (R47); the status codes
(R90); the reasons a step can stop. The block's own state is `tg` to `buf` (R23 to R30); `ghost` is the model-level
markers (R48, R270); `inbox`, `rsp` and `trigOut` are the ports (R49): the words still to arrive, the last response
word, and the pulses counted on `trig_out`. The lines `irq_half` and `irq_full` equal the flags (R188) and are read from
them, not stored. -/

namespace Sys2Proof.Machine

/-- Trigger Generator state (R23). -/
structure TriggerGen where
  psc  : Data
  arr  : Data
  run  : Bool
  /-- Prescaler count, hidden. -/
  pcnt : Data
  /-- The counter, hidden. -/
  cnt  : Data
  deriving DecidableEq, Repr

/-- Sampling Engine state, the boundary stub (R24). -/
structure SamplingEngine where
  arm  : Bool
  edge : Bool
  ch   : BitVec 4
  smp  : BitVec 3
  dr   : Sample
  /-- A conversion has been triggered and has not completed, hidden. -/
  busy : Bool
  deriving DecidableEq, Repr

/-- Transfer Engine state: configuration (R26), cursor (R27) and the five conditions (R28). -/
structure TransferEngine where
  en    : Bool
  circ  : Bool
  dinc  : Bool
  sfix  : Bool
  src   : Data
  dst   : Data
  n     : Data
  /-- The ring index of the next slot to be written, hidden. -/
  cur   : Data
  htif  : Bool
  tcif  : Bool
  teif  : Bool
  feif  : Bool
  dmeif : Bool
  deriving DecidableEq, Repr

/-- CompletionFlags (R29). -/
structure CompletionFlags where
  halfReady : Bool
  fullReady : Bool
  deriving DecidableEq, Repr

/-- Ghost markers, which no hardware holds (R48, R270). -/
structure Ghost where
  trigLost   : Bool
  sampleLost : Bool
  halfLost   : Bool
  fullLost   : Bool
  deriving DecidableEq, Repr

/-- The sample memory BUF (R30) as its written slots: (slot address, Sample), addresses strictly rising. A slot that
is not listed holds no value (R30, R47, U1). -/
abbrev Memory := List (Nat × Sample)

/-- A word that arrives, with the channel it arrives on (R86). -/
structure Arrival where
  channel : Channel
  word    : Word
  deriving DecidableEq, Repr

/-- The whole machine. -/
structure State where
  tg      : TriggerGen
  se      : SamplingEngine
  /-- The transfer request between Sampling Engine and Transfer Engine (R25). -/
  drq     : Bool
  te      : TransferEngine
  cf      : CompletionFlags
  buf     : Memory
  ghost   : Ghost
  /-- The words still to be executed, first to arrive first (R86, R94). -/
  inbox   : List Arrival
  /-- The response word last produced on `rsp` (R81); none before the first. -/
  rsp     : Option Word
  /-- How many pulses `trig_out` has given (R49, R119). -/
  trigOut : Nat
  deriving DecidableEq, Repr

/-- The status codes (R90). -/
inductive Status where
  | ok | errOp | errAddr | errAccess | errBusy | errCfg | noten
  deriving DecidableEq, Repr

/-- Why the machine stops. -/
inductive Fault where
  /-- Raised by RDS (and the host services built on it) of a slot that no XFER has written since power-on or RESET:
  R200 (d) and U1 ask the model to treat the read as a fault. Safe: the run stops where the hardware would answer
  some value. -/
  | unwrittenSlot (slot : Nat)
  /-- Raised by XFER when the slot address leaves the sample memory, which R61 shows no enabled engine can do: only in
  states no run reaches. Safe. -/
  | slotOutsideMemory (slot : Nat)
  deriving DecidableEq, Repr

/-- Why an instruction has no meaning. -/
inductive Refusal where
  /-- Raised by a dispatch arm whose instruction has no meaning yet; no arm of this model does. Safe. -/
  | notModelled (mnemonic : String)
  deriving DecidableEq, Repr

/-- The reset values of R47: everything 0, no slot with a value, no ghost marker; and nothing on the ports. -/
def State.reset : State where
  tg      := ⟨0, 0, false, 0, 0⟩
  se      := ⟨false, false, 0, 0, 0, false⟩
  drq     := false
  te      := ⟨false, false, false, false, 0, 0, 0, 0, false, false, false, false, false⟩
  cf      := ⟨false, false⟩
  buf     := []
  ghost   := ⟨false, false, false, false⟩
  inbox   := []
  rsp     := none
  trigOut := 0

end Sys2Proof.Machine
end

