-- ==== Sys2Proof/Machine/Ops.lean ====
section
/-! DEFINITION. The named operations: reading and writing a slot of the sample memory (R64), the response of a command
(R81), refusing a command, which is the only exception (R230, R231), the answer to a stimulus word whose step is not
enabled (R86), and how words arrive and are taken from the inbox (R94, R95). -/

namespace Sys2Proof.Machine

/-! ### The sample memory -/

/-- The canonical form: addresses strictly rising and inside the memory (R30). An unlisted slot holds no value, so
no entry can equal what an unlisted slot reads as. -/
abbrev Memory.wf (m : Memory) : Prop :=
  m.Pairwise (fun c d => c.1 < d.1) ∧ ∀ c ∈ m, c.1 < Config.memSlots

/-- MemRead(a, 1): the content of slot `a`, none if nothing has written it (R7, R30, R64). -/
def Memory.read (m : Memory) (a : Nat) : Option Sample :=
  match m with
  | [] => none
  | (b, w) :: rest => if a = b then some w else Memory.read rest a

/-- MemWrite(a, 1, v): slot `a` takes the value `v` (R7, R64). -/
def Memory.write (m : Memory) (a : Nat) (v : Sample) : Memory :=
  match m with
  | [] => [(a, v)]
  | (b, w) :: rest =>
    if a < b then (a, v) :: (b, w) :: rest
    else if a = b then (a, v) :: rest
    else (b, w) :: Memory.write rest a v

/-! ### Responses and refusals -/

/-- The STATUS field of each status (R90). -/
def Status.code : Status → BitVec 4
  | .ok => 0x0
  | .errOp => 0x1
  | .errAddr => 0x2
  | .errAccess => 0x3
  | .errBusy => 0x4
  | .errCfg => 0x5
  | .noten => 0x7

/-- The response word: STATUS ++ zero ++ DATA (R81). -/
def responseWord (st : Status) (d : Data) : Word := mkWord st.code 0 d

/-- respond(S, d): the step ends and its response word carries status and data (R7, R81). -/
def State.respond (s : State) (st : Status) (d : Data) : State :=
  { s with rsp := some (responseWord st d) }

/-- raise ERR_X: the command ends with respond(ERR_X, 0) and no state element changes (R7, R230, R233). This is the
one way an exception is taken; nothing is saved, so there is nothing to return from (R233, R239). -/
def State.refuse (s : State) (st : Status) : State := s.respond st 0

/-- A stimulus word whose step is not enabled changes nothing and yields status NOTEN (R86). -/
def State.notEnabled (s : State) : State := s.refuse .noten

/-- The end of an accepted step that returns no data: respond(OK, 0). -/
def State.done (s : State) : State := s.respond .ok 0

/-- The status that reports a word which does not decode (R88, R231). A truncated byte sequence is no word, so it
never reaches the machine; the value here is not used. -/
def statusOf : DecodeError → Status
  | .reservedOp => .errOp
  | .unmappedRegister _ => .errAddr
  | .slotAddrField _ => .errAddr
  | .unknownEvent _ => .errAddr
  | .truncated => .errOp

/-- A word that does not decode is refused and changes no state (R88, R233). -/
def State.rejectWord (s : State) (e : DecodeError) : State := s.refuse (statusOf e)

/-! ### Arrival of words -/

/-- The next word in arrival order, and the state without it (R94). -/
def State.takeWord (s : State) : Option (Arrival × State) :=
  match s.inbox with
  | [] => none
  | a :: rest => some (a, { s with inbox := rest })

/-- Words appended to the inbox, on one channel. -/
def State.arrive (s : State) (c : Channel) (ws : List Word) : State :=
  { s with inbox := s.inbox ++ ws.map (fun w => ⟨c, w⟩) }

/-- A stored trace, four bytes a word, least significant first (R95); none if its length is no multiple of four. -/
def State.loadTraceFile (s : State) (bytes : List Byte) : Option State :=
  (wordsOfBytes bytes).map (s.arrive .trace)

/-- A word put before all others of the inbox, as a word of a trace. -/
def State.placeWord (s : State) (w : Word) : State :=
  { s with inbox := ⟨.trace, w⟩ :: s.inbox }

end Sys2Proof.Machine
end

