-- ==== Sys2Proof/Machine/Operands.lean ====
section
/-! DEFINITION. Operand forms: the bits a WR takes from DATA (R84, R33 to R44), the value an RD returns with reserved
bits as 0 (R44, R84), the slot address of a transfer (R61), and the validity predicate of the enable check (R161). -/

namespace Sys2Proof.Machine

/-- DATA[k] as a truth value (R84). -/
def dataBit (d : Data) (k : Nat) : Bool := d.getLsbD k

/-- SE_CR bits 7:4 (R36). -/
def dataCh (d : Data) : BitVec 4 := d.extractLsb' 4 4

/-- SE_CR bits 10:8 (R36). -/
def dataSmp (d : Data) : BitVec 3 := d.extractLsb' 8 3

/-- One bit as a field. -/
def bit (b : Bool) : BitVec 1 := BitVec.ofBool b

/-- The value an RD of a register returns (R33 to R43): its fields in place, reserved bits 0 (R44). -/
def readReg (s : State) : Reg → Data
  | .tgCr => (bit s.tg.run).setWidth 16
  | .tgPsc => s.tg.psc
  | .tgArr => s.tg.arr
  | .seCr => 0#5 ++ s.se.smp ++ s.se.ch ++ 0#2 ++ bit s.se.edge ++ bit s.se.arm
  | .seDr => s.se.dr
  | .teEn => (bit s.te.en).setWidth 16
  | .teCr => (bit s.te.sfix ++ bit s.te.dinc ++ bit s.te.circ).setWidth 16
  | .teSrc => s.te.src
  | .teDst => s.te.dst
  | .teN => s.te.n
  | .cfSr => (bit s.cf.fullReady ++ bit s.cf.halfReady).setWidth 16

/-- respond(OK, value of the register): reading has no side effect (R65). -/
def State.answerReg (s : State) (r : Reg) : State := s.respond .ok (readReg s r)

/-- The only legal source address: that of SE_DR, 0x0011 (R26, R161). -/
def sourceAddr : Data := (Reg.addr .seDr).setWidth 16

/-- CfgValid (R161); the sum is over the integers. -/
def cfgValid (te : TransferEngine) : Bool :=
  te.n.toNat % 2 == 0 && Config.minCapacity ≤ te.n.toNat && te.dst.toNat + te.n.toNat ≤ Config.memSlots
    && te.src == sourceAddr && te.sfix

/-- The slot address of the next transfer: TE.DST + TE.CUR with auto-increment, else TE.DST, over the integers
(R61, R162). -/
def xferSlot (te : TransferEngine) : Nat :=
  if te.dinc then te.dst.toNat + te.cur.toNat else te.dst.toNat

end Sys2Proof.Machine
end

