-- ==== Sys2Proof/Machine/Flags.lean ====
section
/-! DEFINITION. The five conditions (R28), the two completion flags (R29) and the ghost markers that record a merged
notification (R270): raising a condition, latching a flag, write one to clear, and the interrupt lines (R188). -/

namespace Sys2Proof.Machine

/-- Half filled is raised; a condition that is still pending absorbs it and the marker is set (R162 (d)). -/
def State.raiseHalf (s : State) : State :=
  { s with
    te := { s.te with htif := true }
    ghost := { s.ghost with halfLost := s.ghost.halfLost || s.te.htif } }

/-- Full is raised (R162). -/
def State.raiseFull (s : State) : State :=
  { s with
    te := { s.te with tcif := true }
    ghost := { s.ghost with fullLost := s.ghost.fullLost || s.te.tcif } }

/-- Half filled is acknowledged and HalfReady latched; a flag that is still set absorbs it (R181). -/
def State.latchHalf (s : State) : State :=
  { s with
    te := { s.te with htif := false }
    cf := { s.cf with halfReady := true }
    ghost := { s.ghost with halfLost := s.ghost.halfLost || s.cf.halfReady } }

/-- Full is acknowledged and FullReady latched (R182). -/
def State.latchFull (s : State) : State :=
  { s with
    te := { s.te with tcif := false }
    cf := { s.cf with fullReady := true }
    ghost := { s.ghost with fullLost := s.ghost.fullLost || s.cf.fullReady } }

/-- TE.TEIF takes a value (R164, R183). -/
def State.setTeif (s : State) (b : Bool) : State := { s with te := { s.te with teif := b } }

/-- TE.FEIF takes a value (R165, R184). -/
def State.setFeif (s : State) (b : Bool) : State := { s with te := { s.te with feif := b } }

/-- TE.DMEIF takes a value (R166, R185). -/
def State.setDmeif (s : State) (b : Bool) : State := { s with te := { s.te with dmeif := b } }

/-- Write one to clear: DATA[0] clears HalfReady, DATA[1] clears FullReady, nothing is set (R187). -/
def clearFlags (cf : CompletionFlags) (d : Data) : CompletionFlags where
  halfReady := cf.halfReady && !dataBit d 0
  fullReady := cf.fullReady && !dataBit d 1

/-- The line `irq_half` equals CF.HalfReady at all times (R49, R188). -/
def irqHalf (s : State) : Bool := s.cf.halfReady

/-- The line `irq_full` equals CF.FullReady at all times (R49, R188). -/
def irqFull (s : State) : Bool := s.cf.fullReady

end Sys2Proof.Machine
end

