-- ==== Sys2Proof/Machine/Notification.lean ====
section
/-! DEFINITION. Notification Interface and completion-flag latch (spec/43_notification_latch.md): the five acknowledge
steps, each enabled exactly while its condition is pending (R180), and the flag register CF_SR. -/

namespace Sys2Proof.Machine

/-- ACK_HT (R181): enabled while TE.HTIF is pending; latches HalfReady. -/
def execAckHt (s : State) : Host.Outcome State Fault Refusal :=
  if s.te.htif then .next s.latchHalf.done else .next s.notEnabled

/-- ACK_TC (R182): enabled while TE.TCIF is pending; latches FullReady. -/
def execAckTc (s : State) : Host.Outcome State Fault Refusal :=
  if s.te.tcif then .next s.latchFull.done else .next s.notEnabled

/-- ACK_TE (R183): the transfer error is absorbed. -/
def execAckTe (s : State) : Host.Outcome State Fault Refusal :=
  if s.te.teif then .next (s.setTeif false).done else .next s.notEnabled

/-- ACK_FE (R184): the FIFO error is absorbed. -/
def execAckFe (s : State) : Host.Outcome State Fault Refusal :=
  if s.te.feif then .next (s.setFeif false).done else .next s.notEnabled

/-- ACK_DME (R185): the direct-mode error is absorbed. -/
def execAckDme (s : State) : Host.Outcome State Fault Refusal :=
  if s.te.dmeif then .next (s.setDmeif false).done else .next s.notEnabled

/-- RD CF_SR (R186): reading clears nothing. -/
def execRdCfSr (s : State) : Host.Outcome State Fault Refusal := .next (s.answerReg .cfSr)

/-- WR CF_SR (R187): write one to clear. -/
def execWrCfSr (data : Data) (s : State) : Host.Outcome State Fault Refusal :=
  .next { s with cf := clearFlags s.cf data }.done

end Sys2Proof.Machine
end

