-- ==== Sys2Proof/Machine/Reset.lean ====
section
/-! DEFINITION. The reset step (spec/70_reset_and_hazards.md R260). -/

namespace Sys2Proof.Machine

/-- Every state element, slot and marker at its reset value (R260). The ports are not state elements: the words still
to arrive stay (R86, the trace goes on), and so does the count of pulses already given. -/
def State.resetBlock (s : State) : State :=
  { State.reset with inbox := s.inbox, trigOut := s.trigOut }

/-- RESET (R260): always enabled. -/
def execReset (s : State) : Host.Outcome State Fault Refusal := .next s.resetBlock.done

end Sys2Proof.Machine
end

