-- ==== Sys2Proof/Machine/SampleRead.lean ====
section
/-! DEFINITION. The host's read of the sample memory (spec/44_buffer_read_and_consumer.md R200). The ADDR test of R200
is the decoder's (R85, R88): a word with a nonzero ADDR is no RDS. -/

namespace Sys2Proof.Machine

/-- RDS (R200): the present content of the slot. A slot that nothing has written since reset holds no value, and
reading it is a fault (R200 (d), U1). -/
def execRds (slot : Data) (s : State) : Host.Outcome State Fault Refusal :=
  match s.buf.read slot.toNat with
  | some v => .next (s.respond .ok v)
  | none => .fault (.unwrittenSlot slot.toNat)

end Sys2Proof.Machine
end

