-- ==== Sys2Proof/Machine/SamplingEngine.lean ====
section
/-! DEFINITION. Sampling Engine boundary stub (spec/41_sampling_boundary.md): its commands and the CONV step. Trigger
reception stands with the tick that runs it (Machine/TriggerGenerator.lean). -/

namespace Sys2Proof.Machine

/-- RD SE_CR (R132). -/
def execRdSeCr (s : State) : Host.Outcome State Fault Refusal := .next (s.answerReg .seCr)

/-- WR SE_CR (R131): arm or disarm, and store EDGE, CH and SMP, which no rule reads (R137). -/
def execWrSeCr (data : Data) (s : State) : Host.Outcome State Fault Refusal :=
  .next { s with
    se := { s.se with
      arm := dataBit data 0, edge := dataBit data 1, ch := dataCh data, smp := dataSmp data } }.done

/-- RD SE_DR (R133): no side effect; it is not the Transfer Engine's read. -/
def execRdSeDr (s : State) : Host.Outcome State Fault Refusal := .next (s.answerReg .seDr)

/-- WR SE_DR (R134): always refused. -/
def execWrSeDr (_data : Data) (s : State) : Host.Outcome State Fault Refusal := .next (s.refuse .errAccess)

/-- CONV is enabled while a conversion is in progress (R136). -/
def convEnabled (s : State) : Bool := s.se.busy

/-- A conversion completes with the drawn value `v` (R136). A value that an enabled Transfer Engine had not copied is
overwritten, and the marker is set. -/
def State.completeConversion (s : State) (v : Sample) : State :=
  { s with
    se := { s.se with dr := v, busy := false }
    drq := true
    ghost := { s.ghost with sampleLost := s.ghost.sampleLost || (s.drq && s.te.en) } }

/-- CONV (R136). -/
def execConv (value : Sample) (s : State) : Host.Outcome State Fault Refusal :=
  if convEnabled s then .next (s.completeConversion value).done else .next s.notEnabled

end Sys2Proof.Machine
end

