-- ==== Sys2Proof/Machine/TransferEngine.lean ====
section
/-! DEFINITION. Transfer Engine, the ring-buffer write controller (spec/42_transfer_engine.md): its commands, the XFER
step and the error events. -/

namespace Sys2Proof.Machine

/-- RD TE_EN (R152). -/
def execRdTeEn (s : State) : Host.Outcome State Fault Refusal := .next (s.answerReg .teEn)

/-- A successful enable: a new lap at ring index 0, and a stale transfer request discarded (R151). -/
def State.enableEngine (s : State) : State :=
  { s with te := { s.te with en := true, cur := 0 }, drq := false }

/-- WR TE_EN (R151): disable; enable from the disabled state if the configuration is valid; enable while enabled
changes nothing. -/
def execWrTeEn (data : Data) (s : State) : Host.Outcome State Fault Refusal :=
  if dataBit data 0 then
    if s.te.en then .next s.done
    else if cfgValid s.te then .next s.enableEngine.done
    else .next (s.refuse .errCfg)
  else .next { s with te := { s.te with en := false } }.done

/-- RD TE_CR (R154). -/
def execRdTeCr (s : State) : Host.Outcome State Fault Refusal := .next (s.answerReg .teCr)

/-- A configuration write: accepted only while the engine is disabled (R168). -/
def State.configure (s : State) (te : TransferEngine) : State :=
  if s.te.en then s.refuse .errBusy else { s with te := te }.done

/-- WR TE_CR (R153). -/
def execWrTeCr (data : Data) (s : State) : Host.Outcome State Fault Refusal :=
  .next (s.configure { s.te with circ := dataBit data 0, dinc := dataBit data 1, sfix := dataBit data 2 })

/-- RD TE_SRC (R156). -/
def execRdTeSrc (s : State) : Host.Outcome State Fault Refusal := .next (s.answerReg .teSrc)

/-- WR TE_SRC (R155). -/
def execWrTeSrc (data : Data) (s : State) : Host.Outcome State Fault Refusal :=
  .next (s.configure { s.te with src := data })

/-- RD TE_DST (R158). -/
def execRdTeDst (s : State) : Host.Outcome State Fault Refusal := .next (s.answerReg .teDst)

/-- WR TE_DST (R157). -/
def execWrTeDst (data : Data) (s : State) : Host.Outcome State Fault Refusal :=
  .next (s.configure { s.te with dst := data })

/-- RD TE_N (R160). -/
def execRdTeN (s : State) : Host.Outcome State Fault Refusal := .next (s.answerReg .teN)

/-- WR TE_N (R159). -/
def execWrTeN (data : Data) (s : State) : Host.Outcome State Fault Refusal :=
  .next (s.configure { s.te with n := data })

/-- XFER is enabled while the engine is enabled and a sample waits (R162). -/
def xferEnabled (s : State) : Bool := s.te.en && s.drq

/-- The slot takes the value of SE.DR, the source at TE.SRC = 0x0011, and the request is consumed (R162). -/
def State.storeSample (s : State) : State :=
  { s with buf := s.buf.write (xferSlot s.te) s.se.dr, drq := false }

/-- The cursor crosses the midpoint: half filled is raised when the new cursor equals N/2 (R162). -/
def State.crossMidpoint (s : State) (c : Nat) : State :=
  if c = s.te.n.toNat / 2 then s.raiseHalf else s

/-- The cursor crosses the end: full is raised, the cursor wraps to 0, and a non-circular engine stops. -/
def State.wrapCursor (s : State) : State :=
  { s.raiseFull with te := { s.raiseFull.te with cur := 0, en := s.te.en && s.te.circ } }

/-- The cursor advances by one; the new value `c` is compared over the integers with N/2 and N (R162). -/
def State.advanceCursor (s : State) : State :=
  let c := s.te.cur.toNat + 1
  let m := s.crossMidpoint c
  if c = s.te.n.toNat then m.wrapCursor
  else { m with te := { m.te with cur := BitVec.ofNat 16 c } }

/-- XFER (R162): store, then advance, as one step. The slot address of an enabled engine is inside the memory (R61);
outside it, in states no run reaches, the step faults. -/
def execXfer (s : State) : Host.Outcome State Fault Refusal :=
  if xferEnabled s then
    if xferSlot s.te < Config.memSlots then .next s.storeSample.advanceCursor.done
    else .fault (.slotOutsideMemory (xferSlot s.te))
  else .next s.notEnabled

/-- ERR_TE (R164): always enabled. -/
def execErrTe (s : State) : Host.Outcome State Fault Refusal := .next (s.setTeif true).done

/-- ERR_FE (R165): always enabled. -/
def execErrFe (s : State) : Host.Outcome State Fault Refusal := .next (s.setFeif true).done

/-- ERR_DME (R166): always enabled. -/
def execErrDme (s : State) : Host.Outcome State Fault Refusal := .next (s.setDmeif true).done

end Sys2Proof.Machine
end

