-- ==== Sys2Proof/Machine/TriggerGenerator.lean ====
section
/-! DEFINITION. Trigger Generator (spec/40_trigger_generator.md): its commands, the tick with the trigger reception that
runs inside it (R117, R135), and the quantities of the period law (R118), which no step computes (R121). -/

namespace Sys2Proof.Machine

/-- RD TG_CR (R112). -/
def execRdTgCr (s : State) : Host.Outcome State Fault Refusal := .next (s.answerReg .tgCr)

/-- WR TG_CR (R111): start or stop; the counters stay where they are. -/
def execWrTgCr (data : Data) (s : State) : Host.Outcome State Fault Refusal :=
  .next { s with tg := { s.tg with run := dataBit data 0 } }.done

/-- RD TG_PSC (R114). -/
def execRdTgPsc (s : State) : Host.Outcome State Fault Refusal := .next (s.answerReg .tgPsc)

/-- WR TG_PSC (R113): accepted while stopped, and clears both counters. -/
def execWrTgPsc (data : Data) (s : State) : Host.Outcome State Fault Refusal :=
  if s.tg.run then .next (s.refuse .errBusy)
  else .next { s with tg := { s.tg with psc := data, pcnt := 0, cnt := 0 } }.done

/-- RD TG_ARR (R116). -/
def execRdTgArr (s : State) : Host.Outcome State Fault Refusal := .next (s.answerReg .tgArr)

/-- WR TG_ARR (R115): accepted while stopped, and clears both counters. -/
def execWrTgArr (data : Data) (s : State) : Host.Outcome State Fault Refusal :=
  if s.tg.run then .next (s.refuse .errBusy)
  else .next { s with tg := { s.tg with arr := data, pcnt := 0, cnt := 0 } }.done

/-- Trigger reception (R135): an armed, idle Sampling Engine starts one conversion; a trigger during a conversion
starts nothing and sets the marker; an unarmed engine ignores it. -/
def State.receiveTrigger (s : State) : State :=
  if s.se.arm then
    if s.se.busy then { s with ghost := { s.ghost with trigLost := true } }
    else { s with se := { s.se with busy := true } }
  else s

/-- emit TRIGGER (R7, R119): `trig_out` pulses and the reception runs in the same step. -/
def State.emitTrigger (s : State) : State :=
  { s with trigOut := s.trigOut + 1 }.receiveTrigger

/-- One cycle of the input clock (R117). -/
def State.tickOnce (s : State) : State :=
  if s.tg.run then
    if s.tg.pcnt < s.tg.psc then { s with tg := { s.tg with pcnt := s.tg.pcnt + 1 } }
    else if s.tg.cnt < s.tg.arr then { s with tg := { s.tg with pcnt := 0, cnt := s.tg.cnt + 1 } }
    else { s with tg := { s.tg with pcnt := 0, cnt := 0 } }.emitTrigger
  else s

/-- `n` consecutive ticks with no other step between (R117). A tick changes nothing while the counter is stopped and
never stops it, so a stopped counter ends the count at once. -/
def State.tickMany (s : State) : Nat → State
  | 0 => s
  | n + 1 => if s.tg.run then s.tickOnce.tickMany n else s

/-- TICK (R117): always enabled. -/
def execTick (count : Data) (s : State) : Host.Outcome State Fault Refusal :=
  .next (s.tickMany count.toNat).done

/-- The trigger period P = (PSC + 1) × (ARR + 1) in ticks (R110, R118). -/
def period (tg : TriggerGen) : Nat := (tg.psc.toNat + 1) * (tg.arr.toNat + 1)

/-- The phase φ = CNT × (PSC + 1) + PCNT (R118). -/
def phase (tg : TriggerGen) : Nat := tg.cnt.toNat * (tg.psc.toNat + 1) + tg.pcnt.toNat

/-- The period in seconds, P / f_clk (R118). -/
def periodSeconds (fclk : Rat) (tg : TriggerGen) : Rat := Config.seconds fclk (period tg)

end Sys2Proof.Machine
end

