-- ==== Sys2Proof/Machine/Dispatch.lean ====
section
/-! DEFINITION. One arm per instruction, each a direct call of its meaning. -/

namespace Sys2Proof.Machine

def exec (i : Instr) (s : State) : Host.Outcome State Fault Refusal :=
  match i with
  | .rdTgCr => Sys2Proof.Machine.execRdTgCr s
  | .wrTgCr data => Sys2Proof.Machine.execWrTgCr data s
  | .rdTgPsc => Sys2Proof.Machine.execRdTgPsc s
  | .wrTgPsc data => Sys2Proof.Machine.execWrTgPsc data s
  | .rdTgArr => Sys2Proof.Machine.execRdTgArr s
  | .wrTgArr data => Sys2Proof.Machine.execWrTgArr data s
  | .rdSeCr => Sys2Proof.Machine.execRdSeCr s
  | .wrSeCr data => Sys2Proof.Machine.execWrSeCr data s
  | .rdSeDr => Sys2Proof.Machine.execRdSeDr s
  | .wrSeDr data => Sys2Proof.Machine.execWrSeDr data s
  | .rdTeEn => Sys2Proof.Machine.execRdTeEn s
  | .wrTeEn data => Sys2Proof.Machine.execWrTeEn data s
  | .rdTeCr => Sys2Proof.Machine.execRdTeCr s
  | .wrTeCr data => Sys2Proof.Machine.execWrTeCr data s
  | .rdTeSrc => Sys2Proof.Machine.execRdTeSrc s
  | .wrTeSrc data => Sys2Proof.Machine.execWrTeSrc data s
  | .rdTeDst => Sys2Proof.Machine.execRdTeDst s
  | .wrTeDst data => Sys2Proof.Machine.execWrTeDst data s
  | .rdTeN => Sys2Proof.Machine.execRdTeN s
  | .wrTeN data => Sys2Proof.Machine.execWrTeN data s
  | .rdCfSr => Sys2Proof.Machine.execRdCfSr s
  | .wrCfSr data => Sys2Proof.Machine.execWrCfSr data s
  | .rds slot => Sys2Proof.Machine.execRds slot s
  | .tick count => Sys2Proof.Machine.execTick count s
  | .conv value => Sys2Proof.Machine.execConv value s
  | .xfer => Sys2Proof.Machine.execXfer s
  | .ackHt => Sys2Proof.Machine.execAckHt s
  | .ackTc => Sys2Proof.Machine.execAckTc s
  | .ackTe => Sys2Proof.Machine.execAckTe s
  | .ackFe => Sys2Proof.Machine.execAckFe s
  | .ackDme => Sys2Proof.Machine.execAckDme s
  | .errTe => Sys2Proof.Machine.execErrTe s
  | .errFe => Sys2Proof.Machine.execErrFe s
  | .errDme => Sys2Proof.Machine.execErrDme s
  | .reset => Sys2Proof.Machine.execReset s

end Sys2Proof.Machine
end

