-- ==== Sys2Proof/Machine/Step.lean ====
section
/-! DEFINITION. One step of the machine: the next word of the inbox is decoded and executed (R93, R94), or refused if
it does not decode (R88). The inbox is the schedule: which step is the next one, of which agent, is an input of the
model (R46, R68, R86), so a claim over every state is a claim over every schedule. With nothing in the inbox nothing
happens. -/

namespace Sys2Proof.Machine

/-- Three outcomes: next, fault, refusal. -/
def step (s : State) : Host.Outcome State Fault Refusal :=
  match s.takeWord with
  | none => .next s
  | some (a, s') =>
    match decode a.channel a.word with
    | .ok i => exec i s'
    | .error e => .next (s'.rejectWord e)

/-- The state with the opcode-table word `w` of `nbits` bits as the next word to arrive. -/
def State.withFetchWord (s : State) (nbits w : Nat) : State :=
  s.placeWord (BitVec.ofNat 32 (w % 2 ^ nbits))

end Sys2Proof.Machine
end

