-- ==== Sys2Proof/Machine/Schedule.lean ====
section
/-! DEFINITION. Agents and scheduling: who performs each step (spec/10_state.md R20), when a step is enabled (R8), the
step relation in which any enabled step may be next (spec/20_memory.md R68), a finite run as a list of steps (R86), and
the eager schedule, one schedule among all that are allowed (spec/70_reset_and_hazards.md R272). -/

namespace Sys2Proof.Machine

/-- The six agents (R20). -/
inductive Agent where
  | tg | se | te | ni | host | environment
  deriving DecidableEq, Repr

/-- The agent that performs each step (R20). -/
def agentOf : Instr → Agent
  | .rdTgCr => .host
  | .wrTgCr _ => .host
  | .rdTgPsc => .host
  | .wrTgPsc _ => .host
  | .rdTgArr => .host
  | .wrTgArr _ => .host
  | .rdSeCr => .host
  | .wrSeCr _ => .host
  | .rdSeDr => .host
  | .wrSeDr _ => .host
  | .rdTeEn => .host
  | .wrTeEn _ => .host
  | .rdTeCr => .host
  | .wrTeCr _ => .host
  | .rdTeSrc => .host
  | .wrTeSrc _ => .host
  | .rdTeDst => .host
  | .wrTeDst _ => .host
  | .rdTeN => .host
  | .wrTeN _ => .host
  | .rdCfSr => .host
  | .wrCfSr _ => .host
  | .rds _ => .host
  | .tick _ => .tg
  | .conv _ => .se
  | .xfer => .te
  | .ackHt => .ni
  | .ackTc => .ni
  | .ackTe => .ni
  | .ackFe => .ni
  | .ackDme => .ni
  | .errTe => .environment
  | .errFe => .environment
  | .errDme => .environment
  | .reset => .environment

/-- Whether a step is enabled: its precondition holds (R8). A command is always enabled, and so are TICK, the error
events and RESET (R117, R164 to R166, R260). -/
def enabled (i : Instr) (s : State) : Bool :=
  match i with
  | .rdTgCr => true
  | .wrTgCr _ => true
  | .rdTgPsc => true
  | .wrTgPsc _ => true
  | .rdTgArr => true
  | .wrTgArr _ => true
  | .rdSeCr => true
  | .wrSeCr _ => true
  | .rdSeDr => true
  | .wrSeDr _ => true
  | .rdTeEn => true
  | .wrTeEn _ => true
  | .rdTeCr => true
  | .wrTeCr _ => true
  | .rdTeSrc => true
  | .wrTeSrc _ => true
  | .rdTeDst => true
  | .wrTeDst _ => true
  | .rdTeN => true
  | .wrTeN _ => true
  | .rdCfSr => true
  | .wrCfSr _ => true
  | .rds _ => true
  | .tick _ => true
  | .conv _ => convEnabled s
  | .xfer => xferEnabled s
  | .ackHt => s.te.htif
  | .ackTc => s.te.tcif
  | .ackTe => s.te.teif
  | .ackFe => s.te.feif
  | .ackDme => s.te.dmeif
  | .errTe => true
  | .errFe => true
  | .errDme => true
  | .reset => true

/-- The step relation: an enabled step fires and leads from `s` to `t` (R8, R68). -/
def Fires (s : State) (i : Instr) (t : State) : Prop := enabled i s = true ∧ exec i s = .next t

/-- Continue after a next state; a stop stays a stop. -/
def andThen {α β : Type} (o : Host.Outcome α Fault Refusal) (f : α → Host.Outcome β Fault Refusal) :
    Host.Outcome β Fault Refusal :=
  match o with
  | .next a => f a
  | .fault r => .fault r
  | .refused r => .refused r

/-- A finite run: the steps of a list, in order (R86). -/
def runInstrs : List Instr → State → Host.Outcome State Fault Refusal
  | [], s => .next s
  | i :: is, s => andThen (exec i s) (runInstrs is)

/-! ### The eager schedule -/

/-- A run under the eager schedule: how many values were drawn, how many flag-setting ACK steps fired, and the
state. -/
structure EagerRun where
  drawn   : Nat
  notices : Nat
  st      : State
  deriving DecidableEq, Repr

/-- ACK_HT and ACK_TC are the flag-setting steps (R273). -/
def setsFlag (i : Instr) : Bool := i == .ackHt || i == .ackTc

/-- Fire a step if it is enabled, with its place in the counts. -/
def EagerRun.fire (r : EagerRun) (i : Instr) (isDraw : Bool) : Host.Outcome EagerRun Fault Refusal :=
  if enabled i r.st then
    andThen (exec i r.st) fun t =>
      .next ⟨r.drawn + isDraw.toNat, r.notices + (setsFlag i).toNat, t⟩
  else .next r

/-- Fire the steps of a list in order, each only if enabled. -/
def EagerRun.fireAll (r : EagerRun) : List Instr → Host.Outcome EagerRun Fault Refusal
  | [] => .next r
  | i :: is => andThen (r.fire i false) (fun r' => r'.fireAll is)

/-- What follows CONV after a trigger (R272). -/
def eagerRest : List Instr := [.xfer, .ackHt, .ackTc, .ackTe, .ackFe, .ackDme]

/-- One tick; if it emits TRIGGER with SE.ARM = 1, CONV with the next value of the sequence `v`, then XFER and the
five ACK steps, each only if enabled (R272). -/
def EagerRun.tick (v : Nat → Sample) (r : EagerRun) : Host.Outcome EagerRun Fault Refusal :=
  andThen (exec (.tick 1) r.st) fun t =>
    if r.st.trigOut < t.trigOut ∧ t.se.arm = true then
      andThen (EagerRun.fire ⟨r.drawn, r.notices, t⟩ (.conv (v r.drawn)) true) (fun r' => r'.fireAll eagerRest)
    else .next ⟨r.drawn, r.notices, t⟩

/-- `n` ticks under the eager schedule. -/
def EagerRun.ticks (v : Nat → Sample) (r : EagerRun) : Nat → Host.Outcome EagerRun Fault Refusal
  | 0 => .next r
  | n + 1 => andThen (r.tick v) (fun r' => r'.ticks v n)

/-- An error event and its ACK at once (R272). -/
def EagerRun.error (r : EagerRun) (err ack : Instr) : Host.Outcome EagerRun Fault Refusal :=
  andThen (exec err r.st) fun t => EagerRun.fire ⟨r.drawn, r.notices, t⟩ ack false

/-- A step that brings no other step with it. -/
def EagerRun.plain (r : EagerRun) (i : Instr) : Host.Outcome EagerRun Fault Refusal :=
  andThen (exec i r.st) fun t => .next ⟨r.drawn, r.notices, t⟩

/-- A step of a trace under the eager schedule: TICK and the error events bring the agents' steps with them, every
other step comes where the trace puts it (R272). -/
def EagerRun.step (v : Nat → Sample) (r : EagerRun) (i : Instr) : Host.Outcome EagerRun Fault Refusal :=
  match i with
  | .rdTgCr => r.plain .rdTgCr
  | .wrTgCr data => r.plain (.wrTgCr data)
  | .rdTgPsc => r.plain .rdTgPsc
  | .wrTgPsc data => r.plain (.wrTgPsc data)
  | .rdTgArr => r.plain .rdTgArr
  | .wrTgArr data => r.plain (.wrTgArr data)
  | .rdSeCr => r.plain .rdSeCr
  | .wrSeCr data => r.plain (.wrSeCr data)
  | .rdSeDr => r.plain .rdSeDr
  | .wrSeDr data => r.plain (.wrSeDr data)
  | .rdTeEn => r.plain .rdTeEn
  | .wrTeEn data => r.plain (.wrTeEn data)
  | .rdTeCr => r.plain .rdTeCr
  | .wrTeCr data => r.plain (.wrTeCr data)
  | .rdTeSrc => r.plain .rdTeSrc
  | .wrTeSrc data => r.plain (.wrTeSrc data)
  | .rdTeDst => r.plain .rdTeDst
  | .wrTeDst data => r.plain (.wrTeDst data)
  | .rdTeN => r.plain .rdTeN
  | .wrTeN data => r.plain (.wrTeN data)
  | .rdCfSr => r.plain .rdCfSr
  | .wrCfSr data => r.plain (.wrCfSr data)
  | .rds slot => r.plain (.rds slot)
  | .tick count => r.ticks v count.toNat
  | .conv value => r.plain (.conv value)
  | .xfer => r.plain .xfer
  | .ackHt => r.plain .ackHt
  | .ackTc => r.plain .ackTc
  | .ackTe => r.plain .ackTe
  | .ackFe => r.plain .ackFe
  | .ackDme => r.plain .ackDme
  | .errTe => r.error .errTe .ackTe
  | .errFe => r.error .errFe .ackFe
  | .errDme => r.error .errDme .ackDme
  | .reset => r.plain .reset

end Sys2Proof.Machine
end

