-- ==== Sys2Proof/Machine/Consumer.lean ====
section
/-! DEFINITION. The Consumer Loop, the host-side protocol the hardware is built for
(spec/44_buffer_read_and_consumer.md R201 to R209). It is host software, outside the block: nothing in `step` uses it. It
runs on the machine through the commands RD CF_SR, WR CF_SR and RDS only. One iteration stands here; the endless loop among
the other agents' steps is ConsumerLoop.lean. Boot and teardown (R262, R263) stand here as command sequences too. -/

namespace Sys2Proof.Machine

/-- The two halves of the ring (R31). -/
inductive Half where
  | half0
  | half1
  deriving DecidableEq, Repr

/-- The other half. -/
def Half.other : Half → Half
  | .half0 => .half1
  | .half1 => .half0

/-- The CF_SR bit of a half's flag, which is also the value that clears it (R43, R202, R203). -/
def Half.flagBit : Half → Nat
  | .half0 => 0
  | .half1 => 1

/-- WR CF_SR, #1 or #2 (R202, R203). -/
def Half.clearData : Half → Data
  | .half0 => 1
  | .half1 => 2

/-- The first ring index of a half: half 0 = [0, N/2), half 1 = [N/2, N) (R31). -/
def Half.first (h : Half) (n : Nat) : Nat :=
  match h with
  | .half0 => 0
  | .half1 => n / 2

/-- The slots of a half in index order, for a ring of capacity `n` at slot `d` (R31). -/
def halfSlots (h : Half) (d n : Nat) : List Nat :=
  (List.range (n / 2)).map (fun i => d + h.first n + i)

/-- "sum as a wide unsigned accumulator over exactly N/2 samples": the integers stand for an accumulator of at least
32 bits, which cannot overflow (R205, R206). -/
def sampleSum (vs : List Sample) : Nat := (vs.map BitVec.toNat).sum

/-- mean = floor(sum / (N/2)) (R205). -/
def mean (n : Nat) (vs : List Sample) : Nat := sampleSum vs / (n / 2)

/-- The base-10 digits of a number within `fuel` digits, most significant first. -/
def digitsWithin : Nat → Nat → List Nat
  | 0, _ => []
  | fuel + 1, v => if v < 10 then [v] else digitsWithin fuel (v / 10) ++ [v % 10]

/-- dec(v): no leading zeros, "0" for zero (R208). -/
def decimalDigits (v : Nat) : List Nat := digitsWithin (v + 1) v

/-- The character code of a digit, 0x30 to 0x39 (R207, G1). -/
def digitByte (d : Nat) : Byte := BitVec.ofNat 8 (0x30 + d)

/-- The label character of a half: '0' or '1' (R207). -/
def Half.labelByte : Half → Byte
  | .half0 => 0x30
  | .half1 => 0x31

/-- The report line: "AVG0 = " or "AVG1 = ", the decimal digits, CR LF (R207). -/
def reportLine (h : Half) (value : Nat) : List Byte :=
  [0x41, 0x56, 0x47, h.labelByte, 0x20, 0x3D, 0x20] ++ (decimalDigits value).map digitByte ++ [0x0D, 0x0A]

/-- RDS of each slot of a list: the samples the responses carry (R202). -/
def readSlots : List Nat → State → Host.Outcome (List Sample × State) Fault Refusal
  | [], s => .next ([], s)
  | a :: rest, s =>
    andThen (exec (.rds (BitVec.ofNat 16 a)) s) fun t =>
      match t.rsp with
      | none => .fault (.unwrittenSlot a)
      | some w => andThen (readSlots rest t) fun (vs, u) => .next (w.data :: vs, u)

/-- Service of a flag: clear first, then read the half, compute the mean and emit the line (R202, R203, C1). `d` and
`n` are TE.DST and TE.N as the host configured them. -/
def serviceHalf (h : Half) (d n : Nat) (s : State) : Host.Outcome (List Byte × State) Fault Refusal :=
  andThen (exec (.wrCfSr h.clearData) s) fun t =>
    andThen (readSlots (halfSlots h d n) t) fun (vs, u) => .next (reportLine h (mean n vs), u)

/-- Service of a half if its flag stands in the CF_SR value read. -/
def serviceIf (flags : Data) (h : Half) (d n : Nat) (s : State) : Host.Outcome (List (List Byte) × State) Fault Refusal :=
  if dataBit flags h.flagBit then andThen (serviceHalf h d n s) fun (line, t) => .next ([line], t)
  else .next ([], s)

/-- One iteration of the loop: RD CF_SR, then the service of each flag found set, `first` before the other. Neither
has priority, so `first` is an argument (R201, R204). It gives the lines emitted. No other agent's step comes between its
commands here; `loopStep` is the loop with them. -/
def consumerIteration (first : Half) (d n : Nat) (s : State) : Host.Outcome (List (List Byte) × State) Fault Refusal :=
  andThen (exec .rdCfSr s) fun t =>
    match t.rsp with
    | none => .next ([], t)
    | some w =>
      andThen (serviceIf w.data first d n t) fun (l1, u) =>
        andThen (serviceIf w.data first.other d n u) fun (l2, x) => .next (l1 ++ l2, x)

/-- The configuration writes of a ring: pseudo-instruction RING (R92, R262 step 1). -/
def ringCommands (d n : Data) : List Instr := [.wrTeCr 7, .wrTeSrc 0x0011, .wrTeDst d, .wrTeN n]

/-- Boot (R262): ring, enable, arm with the given settings, period, start. -/
def bootCommands (d n settings p a : Data) : List Instr :=
  ringCommands d n ++ [.wrTeEn 1, .wrSeCr settings, .wrTgPsc p, .wrTgArr a, .wrTgCr 1]

/-- Teardown and reconfiguration (R263): stop, disable, the configuration writes, enable, start. -/
def reconfigureCommands (config : List Instr) : List Instr :=
  [.wrTgCr 0, .wrTeEn 0] ++ config ++ [.wrTeEn 1, .wrTgCr 1]

/-- The consumer's deadline in ticks: P × N/2 (R264). -/
def deadlineTicks (tg : TriggerGen) (te : TransferEngine) : Nat := period tg * (te.n.toNat / 2)

end Sys2Proof.Machine
end

