-- ==== Sys2Proof/Machine/Assembler.lean ====
section
/-! DEFINITION. Assembler syntax and pseudo-instructions (spec/30_encoding.md R91, R92): the expansion of a statement,
its text, and the reading of one line of text. Text is a list of characters. It is a test-bench notation of the spec;
nothing in `step` uses it. -/

namespace Sys2Proof.Machine

/-- The register names (R32, R91). -/
def regName : Reg → String
  | .tgCr => "TG_CR"
  | .tgPsc => "TG_PSC"
  | .tgArr => "TG_ARR"
  | .seCr => "SE_CR"
  | .seDr => "SE_DR"
  | .teEn => "TE_EN"
  | .teCr => "TE_CR"
  | .teSrc => "TE_SRC"
  | .teDst => "TE_DST"
  | .teN => "TE_N"
  | .cfSr => "CF_SR"

/-- The event mnemonics (R87, R91). -/
def eventName : Event → String
  | .tick => "TICK"
  | .conv => "CONV"
  | .xfer => "XFER"
  | .ackHt => "ACK_HT"
  | .ackTc => "ACK_TC"
  | .ackTe => "ACK_TE"
  | .ackFe => "ACK_FE"
  | .ackDme => "ACK_DME"
  | .errTe => "ERR_TE"
  | .errFe => "ERR_FE"
  | .errDme => "ERR_DME"
  | .reset => "RESET"

/-- The status names (R90). -/
def statusName : Status → String
  | .ok => "OK"
  | .errOp => "ERR_OP"
  | .errAddr => "ERR_ADDR"
  | .errAccess => "ERR_ACCESS"
  | .errBusy => "ERR_BUSY"
  | .errCfg => "ERR_CFG"
  | .noten => "NOTEN"

/-- The instructions a statement stands for (R91, R92), for immediates in range. -/
def expand : AsmStmt → List Instr
  | .rd r => [rdOf r]
  | .wr r imm => [wrOf r (BitVec.ofNat 16 imm)]
  | .rds slot => [.rds (BitVec.ofNat 16 slot)]
  | .tick count => [.tick (BitVec.ofNat 16 count)]
  | .conv value => [.conv (BitVec.ofNat 16 value)]
  | .plain e => [eventOf e 0]
  | .start => [.wrTgCr 1]
  | .stop => [.wrTgCr 0]
  | .period p a => [.wrTgPsc (BitVec.ofNat 16 p), .wrTgArr (BitVec.ofNat 16 a)]
  | .arm => [.wrSeCr 1]
  | .enable => [.wrTeEn 1]
  | .disable => [.wrTeEn 0]
  | .ring d n => ringCommands (BitVec.ofNat 16 d) (BitVec.ofNat 16 n)
  | .poll => [.rdCfSr]
  | .clrh => [.wrCfSr 1]
  | .clrf => [.wrCfSr 2]
  | .sample v => [.conv (BitVec.ofNat 16 v), .xfer]

/-- The words of a statement; none for an immediate out of range, which is an assembly error (R91). -/
def assemble (st : AsmStmt) : Option (List Word) :=
  if st.wellFormed then some ((expand st).map encode) else none

/-! ### Text -/

/-- The character of a decimal digit. -/
def digitChar (d : Nat) : Char := Char.ofNat (0x30 + d)

/-- `#` and the decimal digits of an immediate (R91). -/
def immText (v : Nat) : List Char := '#' :: (decimalDigits v).map digitChar

/-- The statements without operand and their names (R91, R92). -/
def plainNames : List (String × AsmStmt) := [
  ("XFER", .plain .xfer), ("ACK_HT", .plain .ackHt), ("ACK_TC", .plain .ackTc), ("ACK_TE", .plain .ackTe),
  ("ACK_FE", .plain .ackFe), ("ACK_DME", .plain .ackDme), ("ERR_TE", .plain .errTe), ("ERR_FE", .plain .errFe),
  ("ERR_DME", .plain .errDme), ("RESET", .plain .reset), ("START", .start), ("STOP", .stop), ("ARM", .arm),
  ("ENABLE", .enable), ("DISABLE", .disable), ("POLL", .poll), ("CLRH", .clrh), ("CLRF", .clrf)]

/-- The tokens of a statement: mnemonic, register name, comma, immediate (R91, R92). -/
def stmtTokens : AsmStmt → List (List Char)
  | .rd r => ["RD".toList, (regName r).toList]
  | .wr r imm => ["WR".toList, (regName r).toList, [','], immText imm]
  | .rds slot => ["RDS".toList, immText slot]
  | .tick count => ["TICK".toList, immText count]
  | .conv value => ["CONV".toList, immText value]
  | .plain e => [(eventName e).toList]
  | .start => ["START".toList]
  | .stop => ["STOP".toList]
  | .period p a => ["PERIOD".toList, immText p, [','], immText a]
  | .arm => ["ARM".toList]
  | .enable => ["ENABLE".toList]
  | .disable => ["DISABLE".toList]
  | .ring d n => ["RING".toList, immText d, [','], immText n]
  | .poll => ["POLL".toList]
  | .clrh => ["CLRH".toList]
  | .clrf => ["CLRF".toList]
  | .sample v => ["SAMPLE".toList, immText v]

/-- The text of a statement: its tokens, a space before each but the first and the comma. -/
def stmtText (st : AsmStmt) : List Char :=
  match stmtTokens st with
  | [] => []
  | t :: ts => t ++ (ts.map (fun u => if u = [','] then u else ' ' :: u)).flatten

/-- A token that has been gathered, if there is one. -/
def flushToken (acc : List Char) : List (List Char) := if acc.isEmpty then [] else [acc]

/-- Spaces and tabs part tokens. -/
def isBlank (c : Char) : Bool := c == ' ' || c == '\t'

/-- The tokens of a text, `acc` the one being gathered; a comma is a token of its own. -/
def tokensFrom (acc : List Char) : List Char → List (List Char)
  | [] => flushToken acc
  | c :: cs =>
    if isBlank c then flushToken acc ++ tokensFrom [] cs
    else if c = ',' then flushToken acc ++ ([','] :: tokensFrom [] cs)
    else tokensFrom (acc ++ [c]) cs

/-- The value of a digit in base 10 or 16. -/
def digitValue (base : Nat) (c : Char) : Option Nat :=
  let n := c.toNat
  let v :=
    if 0x30 ≤ n && n ≤ 0x39 then n - 0x30
    else if 0x41 ≤ n && n ≤ 0x46 then n - 0x41 + 10
    else if 0x61 ≤ n && n ≤ 0x66 then n - 0x61 + 10
    else 16
  if v < base then some v else none

/-- The number of a list of digits, `acc` the value so far. -/
def numberFrom (base acc : Nat) : List Char → Option Nat
  | [] => some acc
  | c :: cs =>
    match digitValue base c with
    | some d => numberFrom base (acc * base + d) cs
    | none => none

/-- A number, decimal or 0x hexadecimal (R91). -/
def number : List Char → Option Nat
  | [] => none
  | '0' :: 'x' :: c :: cs => numberFrom 16 0 (c :: cs)
  | c :: cs => numberFrom 10 0 (c :: cs)

/-- An immediate: `#` and a number (R91). -/
def immediate : List Char → Option Nat
  | '#' :: ds => number ds
  | _ => none

/-- A register by its upper-case name (R91). -/
def regNamed (t : List Char) : Option Reg := Reg.all.find? (fun r => (regName r).toList == t)

/-- A status by its name (R91). -/
def statusNamed (t : List Char) : Option Status :=
  [Status.ok, .errOp, .errAddr, .errAccess, .errBusy, .errCfg, .noten].find? (fun st => (statusName st).toList == t)

/-- The statement of a list of tokens (R91, R92). -/
def stmtOfTokens : List (List Char) → Option AsmStmt
  | [m] => (plainNames.find? (fun p => p.1.toList == m)).map Prod.snd
  | [m, a] =>
    if m = "RD".toList then (regNamed a).map .rd
    else if m = "RDS".toList then (immediate a).map .rds
    else if m = "TICK".toList then (immediate a).map .tick
    else if m = "CONV".toList then (immediate a).map .conv
    else if m = "SAMPLE".toList then (immediate a).map .sample
    else none
  | [m, a, c, b] =>
    if c = [','] then
      if m = "WR".toList then
        match regNamed a, immediate b with
        | some r, some v => some (.wr r v)
        | _, _ => none
      else
        match immediate a, immediate b with
        | some x, some y =>
          if m = "PERIOD".toList then some (.period x y)
          else if m = "RING".toList then some (.ring x y)
          else none
        | _, _ => none
    else none
  | _ => none

/-- A response written after `->`: a status and, if given, the data (R91). -/
structure Expected where
  status : Status
  data   : Option Nat
  deriving DecidableEq, Repr

/-- The expected response of a list of tokens. -/
def expectedOfTokens : List (List Char) → Option Expected
  | [st] => (statusNamed st).map (fun x => ⟨x, none⟩)
  | [st, d] =>
    match statusNamed st, number d with
    | some x, some v => some ⟨x, some v⟩
    | _, _ => none
  | _ => none

/-- Text before the first `->`, and the text after it if there is one. -/
def splitArrow : List Char → List Char × Option (List Char)
  | [] => ([], none)
  | '-' :: '>' :: cs => ([], some cs)
  | c :: cs => (c :: (splitArrow cs).1, (splitArrow cs).2)

/-- One line of assembler text. -/
structure AsmLine where
  stmt     : Option AsmStmt
  expected : Option Expected
  deriving DecidableEq, Repr

/-- The reading of one line: `;` starts a comment, a line may be empty, an immediate out of range is an assembly
error, an expected response may follow `->` (R91). None is an assembly error. -/
def readLine (line : List Char) : Option AsmLine :=
  match splitArrow (line.takeWhile (fun c => c != ';')) with
  | (left, none) =>
    match tokensFrom [] left with
    | [] => some ⟨none, none⟩
    | toks =>
      match stmtOfTokens toks with
      | some st => if st.wellFormed then some ⟨some st, none⟩ else none
      | none => none
  | (left, some right) =>
    match stmtOfTokens (tokensFrom [] left), expectedOfTokens (tokensFrom [] right) with
    | some st, some e => if st.wellFormed then some ⟨some st, some e⟩ else none
    | _, _ => none

end Sys2Proof.Machine
end

