-- ==== Sys2Proof/Machine/ConsumerLoop.lean ====
section
/-! DEFINITION. The Consumer Loop as it runs (spec/44_buffer_read_and_consumer.md R201 to R211): an endless loop that
polls, clears, reads and reports one move at a time, with the steps of the other agents between any two of its commands
(spec/20_memory.md R68, spec/60_exceptions.md R239). The loop's own data is the host's and no part of the block's state
(R46). `consumerIteration` is one turn of this loop with no other step between its commands. -/

namespace Sys2Proof.Machine

/-- Where the loop stands between two moves. `rest` is the halves found set in the same poll and serviced after this
one. -/
inductive LoopPhase where
  /-- The next command is RD CF_SR. The low-power wait of R204 is a time in which other agents' steps come first. -/
  | poll
  /-- The next command is the WR CF_SR that clears the flag of `h`. -/
  | clear (h : Half) (rest : List Half)
  /-- The slots of half `h` still to be read, and the sum of those read. -/
  | read (h : Half) (left : List Nat) (sum : Nat) (rest : List Half)
  /-- The bytes of the report line that the transport has not accepted yet. -/
  | send (left : List Byte) (rest : List Half)
  deriving DecidableEq, Repr

/-- The host in its loop beside the block: TE.DST and TE.N as the host configured them (R202), the phase, the bytes the
transport has accepted, oldest first (R211), and the block. -/
structure LoopState where
  d     : Nat
  n     : Nat
  phase : LoopPhase
  sent  : List Byte
  st    : State
  deriving DecidableEq, Repr

/-- A move: one command of the loop, the transport taking one byte, or a step of another agent. -/
inductive LoopMove where
  /-- RD CF_SR. `first` is serviced first if both flags are found set; the loop may choose either (R204). -/
  | poll (first : Half)
  /-- WR CF_SR. -/
  | clear
  /-- RDS of a slot. The loop may choose any slot it has still to read (R202). -/
  | read (slot : Nat)
  /-- The transport accepts the next byte (R211). -/
  | accept
  /-- A step of another agent (R68). -/
  | other (i : Instr)
  deriving DecidableEq, Repr

/-- The moves of the loop itself; the others are the agents'. -/
def LoopMove.isOwn : LoopMove → Bool
  | .poll _ => true
  | .clear => true
  | .read _ => true
  | .accept => true
  | .other _ => false

/-- The loop at its start: nothing reported, the ring as the block is configured. -/
def loopStart (s : State) : LoopState := ⟨s.te.dst.toNat, s.te.n.toNat, .poll, [], s⟩

/-- The flag of a half as it stands (R29). -/
def Half.flag (h : Half) (s : State) : Bool :=
  match h with
  | .half0 => s.cf.halfReady
  | .half1 => s.cf.fullReady

/-- The DATA of the response a command has just had (R81). Every step answers, so there is a response to look at. -/
def responseData (t : State) : Data :=
  match t.rsp with
  | some w => w.data
  | none => 0

/-- The halves to service, in the chosen order, given the CF_SR value read (R201, R204). -/
def halvesToService (first : Half) (flags : Data) : List Half :=
  [first, first.other].filter (fun h => dataBit flags h.flagBit)

/-- On to the next half found set in this iteration; after the last, and if none was set, the loop polls again
(R201, R204). -/
def nextService : List Half → LoopPhase
  | [] => .poll
  | h :: rest => .clear h rest

/-- After a clear or a read: go on reading; with no slot left, the line of the mean goes to the transport
(R202, R203, R205). -/
def afterRead (h : Half) (n : Nat) (left : List Nat) (sum : Nat) (rest : List Half) : LoopPhase :=
  match left with
  | [] => .send (reportLine h (sum / (n / 2))) rest
  | a :: as => .read h (a :: as) sum rest

/-- After an accepted byte: the next byte; with none left the service is over. -/
def afterAccept (left : List Byte) (rest : List Half) : LoopPhase :=
  match left with
  | [] => nextService rest
  | b :: bs => .send (b :: bs) rest

/-- Issue one instruction to the block and go on by what it answers. -/
def LoopState.issue (x : LoopState) (i : Instr) (next : Data → LoopPhase) : Host.Outcome LoopState Fault Refusal :=
  andThen (exec i x.st) fun t => .next { x with st := t, phase := next (responseData t) }

/-- Whether a move may be the next one: the loop's own by its phase, another agent's while its step is enabled (R68).
The agents never wait for the loop, and the loop waits for nothing but the transport (R204, R211). -/
def loopEnabled (m : LoopMove) (x : LoopState) : Bool :=
  match m, x.phase with
  | .poll _, .poll => true
  | .clear, .clear _ _ => true
  | .read a, .read _ left _ _ => left.contains a
  | .accept, .send (_ :: _) _ => true
  | .other i, _ => agentOf i != .host && enabled i x.st
  | _, _ => false

/-- The effect of a move that may come next. -/
def loopEffect (m : LoopMove) (x : LoopState) : Host.Outcome LoopState Fault Refusal :=
  match m, x.phase with
  | .poll first, _ => x.issue .rdCfSr fun flags => nextService (halvesToService first flags)
  | .clear, .clear h rest => x.issue (.wrCfSr h.clearData) fun _ => afterRead h x.n (halfSlots h x.d x.n) 0 rest
  | .read a, .read h left sum rest =>
    x.issue (.rds (BitVec.ofNat 16 a)) fun v => afterRead h x.n (left.erase a) (sum + v.toNat) rest
  | .accept, .send (b :: bs) rest => .next { x with sent := x.sent ++ [b], phase := afterAccept bs rest }
  | .other i, p => x.issue i fun _ => p
  | _, _ => .next x

/-- One move of the loop or of an agent beside it. A move that may not come next changes nothing. -/
def loopStep (m : LoopMove) (x : LoopState) : Host.Outcome LoopState Fault Refusal :=
  if loopEnabled m x then loopEffect m x else .next x

/-- A finite run of the loop among the other agents. -/
def runLoop : List LoopMove → LoopState → Host.Outcome LoopState Fault Refusal
  | [], x => .next x
  | m :: ms, x => andThen (loopStep m x) (runLoop ms)

/-- The loop run forever (R201): an infinite run, every move of which may come when it comes. -/
def IsLoopRun (σ : Nat → LoopState) (μ : Nat → LoopMove) : Prop :=
  ∀ k, loopEnabled (μ k) (σ k) = true ∧ loopStep (μ k) (σ k) = .next (σ (k + 1))

end Sys2Proof.Machine
end

