-- ==== Sys2Proof/Safety.lean ====
section
/-! DEFINITION. The terms claims use: the invariant of every reachable state (R23, R27, R30, R61), quiescent and settled
states (R261, R275), ghost markers (R270), runs and weak fairness (R68, R271), and the counts of fired transfers a
cursor law speaks of (R163). -/

namespace Sys2Proof.Machine

/-- "true after reset and kept by every step": the counters stay within their configuration (R23), an enabled engine has
a valid configuration and its cursor is inside the ring (R27, R151, R161), and the sample memory is in canonical
form. -/
structure Inv (s : State) : Prop where
  pcnt_le : s.tg.pcnt ≤ s.tg.psc
  cnt_le  : s.tg.cnt ≤ s.tg.arr
  valid   : s.te.en = true → cfgValid s.te = true
  cur_lt  : s.te.en = true → s.te.cur < s.te.n
  mem     : s.buf.wf

/-- The steps of the hardware agents that R271 and R275 speak of, CONV apart. -/
def agentSteps : List Instr := [.xfer, .ackHt, .ackTc, .ackTe, .ackFe, .ackDme]

/-- Settled: no CONV, XFER or ACK step is enabled (R275). -/
def settled (s : State) : Bool := !convEnabled s && agentSteps.all (fun i => !enabled i s)

/-- Quiescent: settled, and TICK changes nothing because the counter is stopped (R261). -/
def quiescent (s : State) : Bool := settled s && !s.tg.run

/-- No ghost marker is set (R270). -/
def noMarker (s : State) : Bool :=
  !s.ghost.trigLost && !s.ghost.sampleLost && !s.ghost.halfLost && !s.ghost.fullLost

/-- Every state element at its reset value, no slot with a value, no marker set (the table of R47). -/
structure AtReset (s : State) : Prop where
  tg    : s.tg = ⟨0, 0, false, 0, 0⟩
  se    : s.se = ⟨false, false, 0, 0, 0, false⟩
  drq   : s.drq = false
  te    : s.te = ⟨false, false, false, false, 0, 0, 0, 0, false, false, false, false, false⟩
  cf    : s.cf = ⟨false, false⟩
  buf   : ∀ a, s.buf.read a = none
  ghost : s.ghost = ⟨false, false, false, false⟩

/-- The pipeline right after the boot of R262: the counter started with phase 0, the Sampling Engine armed, the engine
enabled in circular mode with auto-increment and the cursor at 0, nothing in flight. -/
structure Booted (s : State) : Prop where
  inv     : Inv s
  run     : s.tg.run = true
  phase   : phase s.tg = 0
  arm     : s.se.arm = true
  en      : s.te.en = true
  circ    : s.te.circ = true
  dinc    : s.te.dinc = true
  cur     : s.te.cur = 0
  settled : settled s = true

/-- Apply a function to the next state of an outcome. -/
def mapNext (f : State → State) (o : Host.Outcome State Fault Refusal) : Host.Outcome State Fault Refusal :=
  match o with
  | .next s => .next (f s)
  | .fault r => .fault r
  | .refused r => .refused r

/-- The state without the ghost markers (R270). -/
def eraseGhost (s : State) : State := { s with ghost := ⟨false, false, false, false⟩ }

/-- The state without the three inert settings (R137). -/
def eraseInert (s : State) : State := { s with se := { s.se with edge := false, ch := 0, smp := 0 } }

/-- The state without the three error conditions (R167). -/
def eraseErrors (s : State) : State := { s with te := { s.te with teif := false, feif := false, dmeif := false } }

/-- The state with another response on `rsp`: what a refused command may change (R233). -/
def State.withRsp (s : State) (r : Option Word) : State := { s with rsp := r }

/-- The encoding of a form as its rule gives it: `hi` is the upper half of its word (OP and ADDR), and with any DATA
below it the word decodes to that form, in a trace, and on `cmd` if it is a command (R80, R86). -/
def HasWord (hi : BitVec 16) (form : Data → Instr) : Prop :=
  ∀ d : Data, decode .trace (hi ++ d) = .ok (form d) ∧
    ((form d).isCommand = true → decode .cmd (hi ++ d) = .ok (form d))

/-- An infinite run: at every moment an enabled step fires (R68). -/
def IsRun (σ : Nat → State) (ι : Nat → Instr) : Prop := ∀ k, Fires (σ k) (ι k) (σ (k + 1))

/-- Weak fairness for CONV, XFER and the five ACK steps: a step that stays enabled is eventually fired (R271). -/
def WeaklyFair (σ : Nat → State) (ι : Nat → Instr) : Prop :=
  (∀ k, (∀ j, k ≤ j → convEnabled (σ j) = true) → ∃ j, k ≤ j ∧ ∃ v, ι j = .conv v) ∧
  ∀ i ∈ agentSteps, ∀ k, (∀ j, k ≤ j → enabled i (σ j) = true) → ∃ j, k ≤ j ∧ ι j = i

/-- The steps of a lap without reconfiguration: neither a write of TE_EN nor RESET. -/
def keepsLap : Instr → Bool
  | .rdTgCr => true
  | .wrTgCr _ => true
  | .rdTgPsc => true
  | .wrTgPsc _ => true
  | .rdTgArr => true
  | .wrTgArr _ => true
  | .rdSeCr => true
  | .wrSeCr _ => true
  | .rdSeDr => true
  | .wrSeDr _ => true
  | .rdTeEn => true
  | .wrTeEn _ => false
  | .rdTeCr => true
  | .wrTeCr _ => true
  | .rdTeSrc => true
  | .wrTeSrc _ => true
  | .rdTeDst => true
  | .wrTeDst _ => true
  | .rdTeN => true
  | .wrTeN _ => true
  | .rdCfSr => true
  | .wrCfSr _ => true
  | .rds _ => true
  | .tick _ => true
  | .conv _ => true
  | .xfer => true
  | .ackHt => true
  | .ackTc => true
  | .ackTe => true
  | .ackFe => true
  | .ackDme => true
  | .errTe => true
  | .errFe => true
  | .errDme => true
  | .reset => false

/-- How many XFER steps of a run are enabled when they come, that is how many transfers are made (R163). -/
def transfersMade : List Instr → State → Nat
  | [], _ => 0
  | i :: is, s =>
    match exec i s with
    | .next t => (if i = .xfer ∧ xferEnabled s = true then 1 else 0) + transfersMade is t
    | .fault _ => 0
    | .refused _ => 0

/-- Every slot of a half holds a value. -/
abbrev HalfWritten (h : Half) (d n : Nat) (m : Memory) : Prop := ∀ a ∈ halfSlots h d n, m.read a ≠ none

/-- What the Consumer Loop keeps, whatever the other agents do between its commands: it knows the ring of the block, a
half whose condition is pending or whose flag is set is filled (R69), and so is a half in service; in one iteration
the flag of a half still to be cleared is set (R202, R210). -/
structure LoopInv (x : LoopState) : Prop where
  inv   : Inv x.st
  valid : cfgValid x.st.te = true
  dinc  : x.st.te.dinc = true
  ring  : x.d = x.st.te.dst.toNat ∧ x.n = x.st.te.n.toNat
  lap   : ∀ j, j < x.st.te.cur.toNat → x.st.buf.read (x.d + j) ≠ none
  half0 : x.st.te.htif = true ∨ x.st.cf.halfReady = true → HalfWritten .half0 x.d x.n x.st.buf
  half1 : x.st.te.tcif = true ∨ x.st.cf.fullReady = true → HalfWritten .half1 x.d x.n x.st.buf
  phase : match x.phase with
    | .poll => True
    | .clear h rest => (h :: rest).Nodup ∧ ∀ g ∈ h :: rest, g.flag x.st = true
    | .read h left _ rest =>
      left ≠ [] ∧ (∀ a ∈ left, a ∈ halfSlots h x.d x.n) ∧ HalfWritten h x.d x.n x.st.buf ∧
        rest.Nodup ∧ ∀ g ∈ rest, g.flag x.st = true
    | .send left rest => left ≠ [] ∧ rest.Nodup ∧ ∀ g ∈ rest, g.flag x.st = true

/-- How many transfers can be made before one writes into the half again, with the cursor at `cur`: the deadline of
R264 and R70. No transfer is promised while the cursor stands inside the half. -/
def transfersLeft (h : Half) (cur n : Nat) : Nat :=
  match h with
  | .half0 => if n / 2 ≤ cur then n - cur else 0
  | .half1 => n / 2 - cur

/-- How many transfers are made in a run of the loop among the other agents. -/
def loopTransfers : List LoopMove → LoopState → Nat
  | [], _ => 0
  | m :: ms, x =>
    match loopStep m x with
    | .next y => (if m = .other .xfer ∧ xferEnabled x.st = true then 1 else 0) + loopTransfers ms y
    | .fault _ => 0
    | .refused _ => 0

/-- Who may write what (the table of R242), as a relation between a step and the states before and after it. -/
structure WrittenBy (i : Instr) (s t : State) : Prop where
  psc   : t.tg.psc ≠ s.tg.psc → ∃ d, i = .wrTgPsc d
  arr   : t.tg.arr ≠ s.tg.arr → ∃ d, i = .wrTgArr d
  run   : t.tg.run ≠ s.tg.run → ∃ d, i = .wrTgCr d
  count : (t.tg.pcnt, t.tg.cnt) ≠ (s.tg.pcnt, s.tg.cnt) →
    (∃ n, i = .tick n) ∨ ((∃ d, i = .wrTgPsc d ∨ i = .wrTgArr d) ∧ t.tg.pcnt = 0 ∧ t.tg.cnt = 0)
  sets  : (t.se.arm, t.se.edge, t.se.ch, t.se.smp) ≠ (s.se.arm, s.se.edge, s.se.ch, s.se.smp) → ∃ d, i = .wrSeCr d
  dr    : t.se.dr ≠ s.se.dr → ∃ v, i = .conv v
  busy  : t.se.busy ≠ s.se.busy → (∃ n, i = .tick n) ∨ ∃ v, i = .conv v
  drqUp : s.drq = false → t.drq = true → ∃ v, i = .conv v
  drqDn : s.drq = true → t.drq = false → i = .xfer ∨ (∃ d, i = .wrTeEn d) ∧ s.te.en = false ∧ t.te.en = true
  cfg   : (t.te.circ, t.te.dinc, t.te.sfix, t.te.src, t.te.dst, t.te.n)
      ≠ (s.te.circ, s.te.dinc, s.te.sfix, s.te.src, s.te.dst, s.te.n) →
    s.te.en = false ∧ ∃ d, i = .wrTeCr d ∨ i = .wrTeSrc d ∨ i = .wrTeDst d ∨ i = .wrTeN d
  en    : t.te.en ≠ s.te.en →
    (∃ d, i = .wrTeEn d) ∨
      i = .xfer ∧ s.te.circ = false ∧ s.te.cur.toNat + 1 = s.te.n.toNat ∧ t.te.en = false
  cur   : t.te.cur ≠ s.te.cur →
    i = .xfer ∨ (∃ d, i = .wrTeEn d) ∧ s.te.en = false ∧ t.te.en = true ∧ t.te.cur = 0
  htUp  : s.te.htif = false → t.te.htif = true → i = .xfer
  htDn  : s.te.htif = true → t.te.htif = false → i = .ackHt
  tcUp  : s.te.tcif = false → t.te.tcif = true → i = .xfer
  tcDn  : s.te.tcif = true → t.te.tcif = false → i = .ackTc
  teUp  : s.te.teif = false → t.te.teif = true → i = .errTe
  teDn  : s.te.teif = true → t.te.teif = false → i = .ackTe
  feUp  : s.te.feif = false → t.te.feif = true → i = .errFe
  feDn  : s.te.feif = true → t.te.feif = false → i = .ackFe
  dmUp  : s.te.dmeif = false → t.te.dmeif = true → i = .errDme
  dmDn  : s.te.dmeif = true → t.te.dmeif = false → i = .ackDme
  hrUp  : s.cf.halfReady = false → t.cf.halfReady = true → i = .ackHt
  hrDn  : s.cf.halfReady = true → t.cf.halfReady = false → ∃ d, i = .wrCfSr d ∧ dataBit d 0 = true
  frUp  : s.cf.fullReady = false → t.cf.fullReady = true → i = .ackTc
  frDn  : s.cf.fullReady = true → t.cf.fullReady = false → ∃ d, i = .wrCfSr d ∧ dataBit d 1 = true
  buf   : ∀ a, t.buf.read a ≠ s.buf.read a → i = .xfer

end Sys2Proof.Machine
end

