-- ==== Sys2Proof/Certificates/Slice0/Obligations.lean ====
section
/-! DEFINITION. The statements about STM32-CORE. Response words are written out as numbers: status OK with data 0 is
0x00000000, ERR_OP 0x10000000, ERR_ADDR 0x20000000, ERR_ACCESS 0x30000000, ERR_BUSY 0x40000000, ERR_CFG 0x50000000, NOTEN
0x70000000 (R81, R90). `s.withRsp w` is `s` with the response word `w` and nothing else changed, so an equation
`exec i s = .next (s.withRsp w)` is the frame as well: every state element, slot, marker and port but `rsp` is unchanged.
An equation with a record update in place of it says the same of everything the update does not name. -/

open Sys2Proof Sys2Proof.Machine

/-! ### Reset -/

/-- R47, R260. The values are the spec's; `AtReset` writes the table out. The lines are low because they equal the flags. -/
def Obligations.ResetValuesAtPowerOnAndAfterReset : Prop :=
  HasWord 0xE00F (fun _ => .reset) ∧
  AtReset State.reset ∧
  (∀ s : State, enabled .reset s = true ∧
    ∃ t, exec .reset s = .next t ∧ AtReset t ∧ t.rsp = some 0x00000000 ∧ irqHalf t = false ∧ irqFull t = false) ∧
  ∀ s : State, AtReset s →
    (∀ i, enabled i s = true →
      agentOf i = .host ∨ (∃ n, i = .tick n) ∨ i = .errTe ∨ i = .errFe ∨ i = .errDme ∨ i = .reset) ∧
    ∀ n, exec (.tick n) s = .next (s.withRsp (some 0x00000000))

/-- R261. Only the error events, RESET and the host's commands can change a state at reset; every other step that is
written leaves all but the response word as it was. -/
def Obligations.OnlyHostAndEnvironmentChangeAResetState : Prop :=
  ∀ (s t : State) (i : Instr), AtReset s → exec i s = .next t →
    agentOf i = .host ∨ agentOf i = .environment ∨ t = s.withRsp t.rsp

/-! ### Words, decoding, encoding -/

/-- R93, R94, R88, with the model's inbox as the order of arrival: the word at its head is decoded and executed, or
refused with its status. With no word there the state stays: that clause is the model's choice (log 4). -/
def Obligations.StepExecutesTheDecodedWord : Prop :=
  (∀ (s : State) (c : Channel) (w : Word) (rest : List Arrival) (i : Instr),
    s.inbox = ⟨c, w⟩ :: rest → decode c w = .ok i → step s = exec i { s with inbox := rest }) ∧
  (∀ (s : State) (c : Channel) (w : Word) (rest : List Arrival) (e : DecodeError),
    s.inbox = ⟨c, w⟩ :: rest → decode c w = .error e →
      step s = .next { s with
        inbox := rest
        rsp := some (if e = .reservedOp ∨ e = .truncated then 0x10000000 else 0x20000000) }) ∧
  ∀ s : State, s.inbox = [] → step s = .next s

/-- Decode and encode agree on every well-formed instruction, at every operand; a stimulus word on the `cmd` port is
refused (R80, R82, R86, R87). -/
def Obligations.DecodeEncodeRoundTrip : Prop :=
  ∀ (c : Channel) (i : Instr),
    (i.wellFormed c = true → decode c (encode i) = .ok i) ∧
    (i.wellFormed c = false → decode c (encode i) = .error .reservedOp)

/-- No bit of a word is read wrongly or dropped, but the DATA bits a form ignores: the encoding of what a word decodes
to has the word's OP and ADDR, and its DATA or 0 (R80, R83, R87, U15). -/
def Obligations.EncodeOfDecodedWordIsTheWord : Prop :=
  ∀ (c : Channel) (w : Word) (i : Instr), decode c w = .ok i →
    encode i = if i.takesData then w else w &&& 0xFFFF0000

/-- R88, word by word on the port it names: the tests in order, the status each answers, that nothing but the
inbox and the response word changes, and that every other word is an instruction that step executes. -/
def Obligations.EveryWordHasADefinedOutcome : Prop :=
  (∀ (s : State) (c : Channel) (w : Word) (rest : List Arrival), s.inbox = ⟨c, w⟩ :: rest →
    let refused := fun r : Word => Host.Outcome.next (φ := Fault) (ρ := Refusal) { s with inbox := rest, rsp := some r }
    let op := w.toNat / 2 ^ 28
    let addr := w.toNat / 2 ^ 16 % 2 ^ 12
    (op ∉ [1, 2, 3] ∧ ¬(op = 0xE ∧ c = .trace) → step s = refused 0x10000000) ∧
    (op ∈ [1, 2] ∧ addr ∉ [0x000, 0x001, 0x002, 0x010, 0x011, 0x020, 0x021, 0x022, 0x023, 0x024, 0x030] →
      step s = refused 0x20000000) ∧
    (op = 3 ∧ addr ≠ 0 → step s = refused 0x20000000) ∧
    (op = 0xE ∧ c = .trace ∧ addr ∉ [1, 2, 3, 4, 5, 6, 7, 8, 9, 10, 11, 15] → step s = refused 0x20000000) ∧
    (op = 2 ∧ addr = 0x011 → step s = refused 0x30000000) ∧
    ((op ∈ [1, 2] ∧ addr ∈ [0x000, 0x001, 0x002, 0x010, 0x011, 0x020, 0x021, 0x022, 0x023, 0x024, 0x030]) ∨
      (op = 3 ∧ addr = 0) ∨ (op = 0xE ∧ c = .trace ∧ addr ∈ [1, 2, 3, 4, 5, 6, 7, 8, 9, 10, 11, 15]) →
      ∃ i, decode c w = .ok i ∧ step s = exec i { s with inbox := rest })) ∧
  ∀ (s : State) (c : Channel) (rest : List Arrival) (w : Word), w = 0x00000000 ∨ w = 0xFFFFFFFF →
    s.inbox = ⟨c, w⟩ :: rest → step s = .next { s with inbox := rest, rsp := some 0x10000000 }

/-- R93: exactly one row of the table covers a word that decodes, the row of the instruction it decodes to; on the
`cmd` port that row is a command's. -/
def Obligations.ExactlyOneTableRowCoversADecodedWord : Prop :=
  ∀ (c : Channel) (w : Word) (i : Instr), decode c w = .ok i →
    (opcodeTable.filter (fun r => r.covers w)).map OpcodeRow.mnemonic = [i.mnemonic] ∧
    (c = .cmd → (commandRows.filter (fun r => r.covers w)).map OpcodeRow.mnemonic = [i.mnemonic])

/-- Words of the opcode map of 30_encoding.md section 6 and of the vectors' traces, written out. -/
def Obligations.WordsOfTheOpcodeMapDecode : Prop :=
  decode .cmd 0x1000BEEF = .ok .rdTgCr ∧ decode .cmd 0x20010063 = .ok (.wrTgPsc 99) ∧
  decode .cmd 0x20100231 = .ok (.wrSeCr 0x0231) ∧ decode .cmd 0x20110005 = .ok (.wrSeDr 5) ∧
  decode .cmd 0x20200001 = .ok (.wrTeEn 1) ∧ decode .cmd 0x10240000 = .ok .rdTeN ∧
  decode .cmd 0x20300002 = .ok (.wrCfSr 2) ∧ decode .cmd 0x30000101 = .ok (.rds 0x0101) ∧
  decode .trace 0xE0012710 = .ok (.tick 10000) ∧ decode .trace 0xE0020064 = .ok (.conv 100) ∧
  decode .trace 0xE0030000 = .ok .xfer ∧ decode .trace 0xE0050000 = .ok .ackTc ∧
  decode .trace 0xE00B0000 = .ok .errDme ∧ decode .trace 0xE00F0000 = .ok .reset ∧
  decode .cmd 0xE0010001 = .error .reservedOp

/-- R95: a stored trace is read back word for word, and the first byte of a word is its least significant one. -/
def Obligations.StoredTraceIsLittleEndian : Prop :=
  (∀ ws : List Word, wordsOfBytes (bytesOfWords ws) = some ws) ∧
  ∀ b0 b1 b2 b3 : Byte,
    (wordOfBytes b0 b1 b2 b3).toNat = b0.toNat + 2 ^ 8 * b1.toNat + 2 ^ 16 * b2.toNat + 2 ^ 24 * b3.toNat

/-! ### Reads of registers -/

/-- R112, R114, R116: the words and the values; nothing but the response word changes, running or not. -/
def Obligations.TriggerRegisterReads : Prop :=
  HasWord 0x1000 (fun _ => .rdTgCr) ∧ HasWord 0x1001 (fun _ => .rdTgPsc) ∧ HasWord 0x1002 (fun _ => .rdTgArr) ∧
  ∀ s : State,
    exec .rdTgCr s = .next (s.withRsp (some (if s.tg.run then 0x00000001 else 0x00000000))) ∧
    exec .rdTgPsc s = .next (s.withRsp (some (s.tg.psc.setWidth 32))) ∧
    exec .rdTgArr s = .next (s.withRsp (some (s.tg.arr.setWidth 32)))

/-- R132, R133: SE_CR is 0b00000 ++ SMP ++ CH ++ 0b00 ++ EDGE ++ ARM; reading SE_DR has no side effect. -/
def Obligations.SamplingRegisterReads : Prop :=
  HasWord 0x1010 (fun _ => .rdSeCr) ∧ HasWord 0x1011 (fun _ => .rdSeDr) ∧
  (∀ s : State, ∃ w : Word, exec .rdSeCr s = .next (s.withRsp (some w)) ∧
    w.toNat = 2 ^ 8 * s.se.smp.toNat + 2 ^ 4 * s.se.ch.toNat + 2 * s.se.edge.toNat + s.se.arm.toNat) ∧
  ∀ s : State, exec .rdSeDr s = .next (s.withRsp (some (s.se.dr.setWidth 32)))

/-- R152, R154, R156, R158, R160: the words and the values; nothing but the response word changes. -/
def Obligations.TransferRegisterReads : Prop :=
  HasWord 0x1020 (fun _ => .rdTeEn) ∧ HasWord 0x1021 (fun _ => .rdTeCr) ∧ HasWord 0x1022 (fun _ => .rdTeSrc) ∧
  HasWord 0x1023 (fun _ => .rdTeDst) ∧ HasWord 0x1024 (fun _ => .rdTeN) ∧
  ∀ s : State,
    exec .rdTeEn s = .next (s.withRsp (some (if s.te.en then 0x00000001 else 0x00000000))) ∧
    (∃ w : Word, exec .rdTeCr s = .next (s.withRsp (some w)) ∧
      w.toNat = 4 * s.te.sfix.toNat + 2 * s.te.dinc.toNat + s.te.circ.toNat) ∧
    exec .rdTeSrc s = .next (s.withRsp (some (s.te.src.setWidth 32))) ∧
    exec .rdTeDst s = .next (s.withRsp (some (s.te.dst.setWidth 32))) ∧
    exec .rdTeN s = .next (s.withRsp (some (s.te.n.setWidth 32)))

/-- R186: the values are 0, 1, 2 and 3, and reading clears nothing. -/
def Obligations.FlagRegisterRead : Prop :=
  HasWord 0x1030 (fun _ => .rdCfSr) ∧
  ∀ s : State, exec .rdCfSr s = .next (s.withRsp (some (
    match s.cf.fullReady, s.cf.halfReady with
    | false, false => 0x00000000
    | false, true => 0x00000001
    | true, false => 0x00000002
    | true, true => 0x00000003)))

/-! ### Trigger Generator -/

/-- R111: start and stop, in every state; nothing else changes, the counters included. -/
def Obligations.TriggerStartStop : Prop :=
  HasWord 0x2000 .wrTgCr ∧
  ∀ (s : State) (d : Data),
    exec (.wrTgCr d) s = .next { s with tg := { s.tg with run := d.toNat % 2 == 1 }, rsp := some 0x00000000 }

/-- R113, R115: accepted while stopped, clearing both counters; refused while running. -/
def Obligations.PeriodWritesOnlyWhileStopped : Prop :=
  HasWord 0x2001 .wrTgPsc ∧ HasWord 0x2002 .wrTgArr ∧
  ∀ (s : State) (d : Data),
    (s.tg.run = false →
      exec (.wrTgPsc d) s =
        .next { s with tg := { s.tg with psc := d, pcnt := 0, cnt := 0 }, rsp := some 0x00000000 } ∧
      exec (.wrTgArr d) s =
        .next { s with tg := { s.tg with arr := d, pcnt := 0, cnt := 0 }, rsp := some 0x00000000 }) ∧
    (s.tg.run = true →
      exec (.wrTgPsc d) s = .next (s.withRsp (some 0x40000000)) ∧
      exec (.wrTgArr d) s = .next (s.withRsp (some 0x40000000)))

/-- R117: `TICK #n` is n ticks in a row, and one tick is the case analysis of the rule; `emitTrigger` is the pulse
and the trigger reception of R135. -/
def Obligations.TickCountsAndEmits : Prop :=
  HasWord 0xE001 .tick ∧
  (∀ (s : State) (n : Data), exec (.tick n) s = .next ((State.tickOnce^[n.toNat] s).withRsp (some 0x00000000))) ∧
  ∀ s : State,
    (s.tg.run = false → s.tickOnce = s) ∧
    (s.tg.run = true → s.tg.pcnt.toNat < s.tg.psc.toNat →
      ∃ p : Data, p.toNat = s.tg.pcnt.toNat + 1 ∧ s.tickOnce = { s with tg := { s.tg with pcnt := p } }) ∧
    (s.tg.run = true → s.tg.psc.toNat ≤ s.tg.pcnt.toNat → s.tg.cnt.toNat < s.tg.arr.toNat →
      ∃ c : Data, c.toNat = s.tg.cnt.toNat + 1 ∧ s.tickOnce = { s with tg := { s.tg with pcnt := 0, cnt := c } }) ∧
    (s.tg.run = true → s.tg.psc.toNat ≤ s.tg.pcnt.toNat → s.tg.arr.toNat ≤ s.tg.cnt.toNat →
      s.tickOnce = { s with tg := { s.tg with pcnt := 0, cnt := 0 } }.emitTrigger)

/-- R135, as part of `emit TRIGGER`: one pulse on `trig_out`, and one conversion started if the engine is armed and
idle; a trigger during a conversion starts nothing and sets GH_TRIG_LOST; an unarmed engine ignores it. -/
def Obligations.TriggerReception : Prop :=
  ∀ s : State,
    (s.se.arm = true → s.se.busy = false →
      s.emitTrigger = { s with trigOut := s.trigOut + 1, se := { s.se with busy := true } }) ∧
    (s.se.arm = true → s.se.busy = true →
      s.emitTrigger = { s with trigOut := s.trigOut + 1, ghost := { s.ghost with trigLost := true } }) ∧
    (s.se.arm = false → s.emitTrigger = { s with trigOut := s.trigOut + 1 })

/-- R118, over any list of TICK steps: φ advances by one a tick modulo P, and a trigger is emitted exactly when φ was
P − 1, so the pulses of `t` ticks from phase φ number ⌊(φ + t) / P⌋; the period in seconds is P / f_clk. Pulses are
counted in `trigOut` (log 7). -/
def Obligations.PeriodLaw : Prop :=
  (∀ (s t : State) (ns : List Data), s.tg.run = true → s.tg.pcnt ≤ s.tg.psc → s.tg.cnt ≤ s.tg.arr →
    runInstrs (ns.map .tick) s = .next t →
    let ticks := (ns.map BitVec.toNat).sum
    phase s.tg < period s.tg ∧ period t.tg = period s.tg ∧
    phase t.tg = (phase s.tg + ticks) % period s.tg ∧
    t.trigOut = s.trigOut + (phase s.tg + ticks) / period s.tg) ∧
  ∀ tg : TriggerGen, period tg = (tg.psc.toNat + 1) * (tg.arr.toNat + 1) ∧ 1 ≤ period tg ∧ period tg ≤ 2 ^ 32 ∧
    phase tg = tg.cnt.toNat * (tg.psc.toNat + 1) + tg.pcnt.toNat ∧
    ∀ fclk : Rat, periodSeconds fclk tg = (period tg : Rat) / fclk

/-- `trig_out` pulses, and a conversion starts, in no step but a TICK with the counter running (R119, R120, R130). -/
def Obligations.OnlyARunningTickEmitsATrigger : Prop :=
  ∀ (i : Instr) (s t : State), exec i s = .next t →
    (t.trigOut ≠ s.trigOut → ∃ n, i = .tick n ∧ s.tg.run = true ∧ s.trigOut < t.trigOut) ∧
    (s.se.busy = false → t.se.busy = true → ∃ n, i = .tick n ∧ s.tg.run = true ∧ s.se.arm = true)

/-! ### Sampling Engine stub -/

/-- R131, R134: the four fields are taken from their bits and the rest of DATA is ignored; SE_DR is never written. -/
def Obligations.SamplingRegisterWrites : Prop :=
  HasWord 0x2010 .wrSeCr ∧ HasWord 0x2011 .wrSeDr ∧
  ∀ (s : State) (d : Data),
    (∃ (c : BitVec 4) (m : BitVec 3), c.toNat = d.toNat / 2 ^ 4 % 2 ^ 4 ∧ m.toNat = d.toNat / 2 ^ 8 % 2 ^ 3 ∧
      exec (.wrSeCr d) s = .next { s with
        se := { s.se with arm := d.toNat % 2 == 1, edge := d.toNat / 2 % 2 == 1, ch := c, smp := m }
        rsp := some 0x00000000 }) ∧
    exec (.wrSeDr d) s = .next (s.withRsp (some 0x30000000))

/-- R136: the drawn value reaches SE.DR, the request is set, and the marker is set if an enabled engine had not copied
the older value; with no conversion in progress the step is not enabled and changes nothing. -/
def Obligations.ConversionCompletes : Prop :=
  HasWord 0xE002 .conv ∧
  ∀ (s : State) (v : Sample),
    (s.se.busy = true → exec (.conv v) s = .next { s with
      se := { s.se with dr := v, busy := false }
      drq := true
      ghost := { s.ghost with sampleLost := s.ghost.sampleLost || (s.drq && s.te.en) }
      rsp := some 0x00000000 }) ∧
    (s.se.busy = false → exec (.conv v) s = .next (s.withRsp (some 0x70000000)))

/-- R137, R24: CH, SMP and EDGE are read by no rule but RD SE_CR. Two states that differ only in them take every other
step alike, with the same response; RD SE_CR differs in its response alone. -/
def Obligations.InertSettingsHaveNoEffect : Prop :=
  ∀ (i : Instr) (s₁ s₂ : State), eraseInert s₁ = eraseInert s₂ →
    (i ≠ .rdSeCr → mapNext eraseInert (exec i s₁) = mapNext eraseInert (exec i s₂)) ∧
    mapNext (fun t => (eraseInert t).withRsp none) (exec i s₁) =
      mapNext (fun t => (eraseInert t).withRsp none) (exec i s₂)

/-! ### Transfer Engine -/

/-- R161: the five tests, the sum over the integers. -/
def Obligations.ConfigurationValidity : Prop :=
  ∀ te : TransferEngine, cfgValid te = true ↔
    te.n.toNat % 2 = 0 ∧ 2 ≤ te.n.toNat ∧ te.dst.toNat + te.n.toNat ≤ 65536 ∧ te.src = 0x0011 ∧ te.sfix = true

/-- R151: disable, enable, enable while enabled, and the refused enable. -/
def Obligations.EngineEnableAndDisable : Prop :=
  HasWord 0x2020 .wrTeEn ∧
  ∀ (s : State) (d : Data),
    (d.toNat % 2 = 0 → exec (.wrTeEn d) s = .next { s with te := { s.te with en := false }, rsp := some 0x00000000 }) ∧
    (d.toNat % 2 = 1 → s.te.en = true → exec (.wrTeEn d) s = .next (s.withRsp (some 0x00000000))) ∧
    (d.toNat % 2 = 1 → s.te.en = false → cfgValid s.te = false →
      exec (.wrTeEn d) s = .next (s.withRsp (some 0x50000000))) ∧
    (d.toNat % 2 = 1 → s.te.en = false → cfgValid s.te = true →
      exec (.wrTeEn d) s =
        .next { s with te := { s.te with en := true, cur := 0 }, drq := false, rsp := some 0x00000000 })

/-- R153, R155, R157, R159, R168: accepted while disabled, refused with ERR_BUSY while enabled. -/
def Obligations.ConfigurationWritesOnlyWhileDisabled : Prop :=
  HasWord 0x2021 .wrTeCr ∧ HasWord 0x2022 .wrTeSrc ∧ HasWord 0x2023 .wrTeDst ∧ HasWord 0x2024 .wrTeN ∧
  ∀ (s : State) (d : Data),
    (s.te.en = false →
      exec (.wrTeCr d) s = .next { s with
        te := { s.te with circ := d.toNat % 2 == 1, dinc := d.toNat / 2 % 2 == 1, sfix := d.toNat / 4 % 2 == 1 }
        rsp := some 0x00000000 } ∧
      exec (.wrTeSrc d) s = .next { s with te := { s.te with src := d }, rsp := some 0x00000000 } ∧
      exec (.wrTeDst d) s = .next { s with te := { s.te with dst := d }, rsp := some 0x00000000 } ∧
      exec (.wrTeN d) s = .next { s with te := { s.te with n := d }, rsp := some 0x00000000 }) ∧
    (s.te.en = true → ∀ i ∈ [Instr.wrTeCr d, .wrTeSrc d, .wrTeDst d, .wrTeN d],
      exec i s = .next (s.withRsp (some 0x40000000)))

/-- R162, from every state that meets the invariant: one slot is written, at `xferSlot` of the state before, the request
is consumed, the cursor advances and wraps, at most one condition is raised, a merged one sets its marker, and a
non-circular engine stops at N. Everything else is unchanged. With no request or the engine off, the step is not
enabled. -/
def Obligations.TransferCopiesOneSample : Prop :=
  HasWord 0xE003 (fun _ => .xfer) ∧
  (∀ s : State, s.te.en = false ∨ s.drq = false → exec .xfer s = .next (s.withRsp (some 0x70000000))) ∧
  ∀ s : State, Inv s → s.te.en = true → s.drq = true → ∃ t, exec .xfer s = .next t ∧
    (xferSlot s.te = if s.te.dinc then s.te.dst.toNat + s.te.cur.toNat else s.te.dst.toNat) ∧
    xferSlot s.te < 65536 ∧
    t.buf.read (xferSlot s.te) = some s.se.dr ∧
    (∀ a, a ≠ xferSlot s.te → t.buf.read a = s.buf.read a) ∧
    let c := s.te.cur.toNat + 1
    let n := s.te.n.toNat
    t.te.cur.toNat = (if c = n then 0 else c) ∧
    t.te.en = (s.te.circ || decide (c ≠ n)) ∧
    t.te.htif = (s.te.htif || decide (c = n / 2)) ∧
    t.te.tcif = (s.te.tcif || decide (c = n)) ∧
    t.ghost = { s.ghost with
      halfLost := s.ghost.halfLost || (s.te.htif && decide (c = n / 2))
      fullLost := s.ghost.fullLost || (s.te.tcif && decide (c = n)) } ∧
    { t.te with cur := s.te.cur, en := s.te.en, htif := s.te.htif, tcif := s.te.tcif } = s.te ∧
    t.drq = false ∧ t.rsp = some 0x00000000 ∧
    t.tg = s.tg ∧ t.se = s.se ∧ t.cf = s.cf ∧ t.inbox = s.inbox ∧ t.trigOut = s.trigOut

/-- R163, in circular mode: over any run without a write of TE_EN and without RESET, however the other steps come between,
the cursor is its old value plus the number of transfers made, modulo N; the configuration and the enable stay. -/
def Obligations.CursorCountsTransfersModuloN : Prop :=
  ∀ (is : List Instr) (s t : State), Inv s → s.te.en = true → s.te.circ = true → (∀ i ∈ is, keepsLap i = true) →
    runInstrs is s = .next t →
    t.te.cur.toNat = (s.te.cur.toNat + transfersMade is s) % s.te.n.toNat ∧
    t.te.en = true ∧ (t.te.circ, t.te.dinc, t.te.sfix, t.te.src, t.te.dst, t.te.n) =
      (s.te.circ, s.te.dinc, s.te.sfix, s.te.src, s.te.dst, s.te.n)

/-- R70: once the cursor has crossed N/2 (or N), the N/2 transfers that follow leave the slots of half 0 (or half 1)
unchanged, whatever other steps come between. -/
def Obligations.ReportedHalfStaysForHalfALap : Prop :=
  ∀ (is : List Instr) (s t : State), Inv s → s.te.en = true → s.te.circ = true → s.te.dinc = true →
    (∀ i ∈ is, keepsLap i = true) → runInstrs is s = .next t → transfersMade is s ≤ s.te.n.toNat / 2 →
    (s.te.cur.toNat = s.te.n.toNat / 2 → ∀ a ∈ halfSlots .half0 s.te.dst.toNat s.te.n.toNat, t.buf.read a = s.buf.read a) ∧
    (s.te.cur.toNat = 0 → ∀ a ∈ halfSlots .half1 s.te.dst.toNat s.te.n.toNat, t.buf.read a = s.buf.read a)

/-- R69, R235: a flag that a run finds set was latched by an ACK step of the run, and the condition that step found was
raised by a transfer of the run that brought the cursor to N/2 (to N for FullReady). -/
def Obligations.NotificationFollowsItsTransfer : Prop :=
  ∀ (is : List Instr) (s t : State), runInstrs is s = .next t →
    (s.te.htif = false → s.cf.halfReady = false → t.cf.halfReady = true →
      ∃ p₁ p₂ p₃ u v, is = p₁ ++ .xfer :: (p₂ ++ .ackHt :: p₃) ∧
        runInstrs p₁ s = .next u ∧ xferEnabled u = true ∧ u.te.cur.toNat + 1 = u.te.n.toNat / 2 ∧
        runInstrs (p₁ ++ .xfer :: p₂) s = .next v ∧ v.te.htif = true) ∧
    (s.te.tcif = false → s.cf.fullReady = false → t.cf.fullReady = true →
      ∃ p₁ p₂ p₃ u v, is = p₁ ++ .xfer :: (p₂ ++ .ackTc :: p₃) ∧
        runInstrs p₁ s = .next u ∧ xferEnabled u = true ∧ u.te.cur.toNat + 1 = u.te.n.toNat ∧
        runInstrs (p₁ ++ .xfer :: p₂) s = .next v ∧ v.te.tcif = true)

/-- R164, R165, R166: always enabled; each sets its own bit and nothing else. -/
def Obligations.ErrorEventsSetTheirBit : Prop :=
  HasWord 0xE009 (fun _ => .errTe) ∧ HasWord 0xE00A (fun _ => .errFe) ∧ HasWord 0xE00B (fun _ => .errDme) ∧
  ∀ s : State,
    (enabled .errTe s = true ∧
      exec .errTe s = .next { s with te := { s.te with teif := true }, rsp := some 0x00000000 }) ∧
    (enabled .errFe s = true ∧
      exec .errFe s = .next { s with te := { s.te with feif := true }, rsp := some 0x00000000 }) ∧
    (enabled .errDme s = true ∧
      exec .errDme s = .next { s with te := { s.te with dmeif := true }, rsp := some 0x00000000 })

/-- R167, R240: no step reads an error condition but its own ACK step. Two states that differ only in the three bits
take every step alike, and answer alike unless the step is an ACK of an error. -/
def Obligations.ErrorConditionsDisturbNothing : Prop :=
  ∀ (i : Instr) (s₁ s₂ : State), eraseErrors s₁ = eraseErrors s₂ →
    (i ≠ .ackTe → i ≠ .ackFe → i ≠ .ackDme →
      mapNext eraseErrors (exec i s₁) = mapNext eraseErrors (exec i s₂)) ∧
    mapNext (fun t => (eraseErrors t).withRsp none) (exec i s₁) =
      mapNext (fun t => (eraseErrors t).withRsp none) (exec i s₂)

/-! ### Notification Interface and latch -/

/-- R181, R182: a pending condition is cleared and its flag latched, its line high; a flag that is still set sets the
marker; a condition that is not pending leaves the step not enabled. -/
def Obligations.AcknowledgeLatchesTheFlag : Prop :=
  HasWord 0xE004 (fun _ => .ackHt) ∧ HasWord 0xE005 (fun _ => .ackTc) ∧
  ∀ s : State,
    (s.te.htif = true → ∃ t, exec .ackHt s = .next t ∧ irqHalf t = true ∧ t = { s with
      te := { s.te with htif := false }
      cf := { s.cf with halfReady := true }
      ghost := { s.ghost with halfLost := s.ghost.halfLost || s.cf.halfReady }
      rsp := some 0x00000000 }) ∧
    (s.te.htif = false → exec .ackHt s = .next (s.withRsp (some 0x70000000))) ∧
    (s.te.tcif = true → ∃ t, exec .ackTc s = .next t ∧ irqFull t = true ∧ t = { s with
      te := { s.te with tcif := false }
      cf := { s.cf with fullReady := true }
      ghost := { s.ghost with fullLost := s.ghost.fullLost || s.cf.fullReady }
      rsp := some 0x00000000 }) ∧
    (s.te.tcif = false → exec .ackTc s = .next (s.withRsp (some 0x70000000)))

/-- R183, R184, R185: the error is absorbed. -/
def Obligations.AcknowledgeAbsorbsTheError : Prop :=
  HasWord 0xE006 (fun _ => .ackTe) ∧ HasWord 0xE007 (fun _ => .ackFe) ∧ HasWord 0xE008 (fun _ => .ackDme) ∧
  ∀ s : State,
    (s.te.teif = true → exec .ackTe s = .next { s with te := { s.te with teif := false }, rsp := some 0x00000000 }) ∧
    (s.te.teif = false → exec .ackTe s = .next (s.withRsp (some 0x70000000))) ∧
    (s.te.feif = true → exec .ackFe s = .next { s with te := { s.te with feif := false }, rsp := some 0x00000000 }) ∧
    (s.te.feif = false → exec .ackFe s = .next (s.withRsp (some 0x70000000))) ∧
    (s.te.dmeif = true → exec .ackDme s = .next { s with te := { s.te with dmeif := false }, rsp := some 0x00000000 }) ∧
    (s.te.dmeif = false → exec .ackDme s = .next (s.withRsp (some 0x70000000)))

/-- R187: write one to clear; a written 0 leaves its flag, no value sets one, and no condition is touched. -/
def Obligations.FlagWriteOneToClear : Prop :=
  HasWord 0x2030 .wrCfSr ∧
  ∀ (s : State) (d : Data), exec (.wrCfSr d) s = .next { s with
    cf := ⟨if d.toNat % 2 = 1 then false else s.cf.halfReady, if d.toNat / 2 % 2 = 1 then false else s.cf.fullReady⟩
    rsp := some 0x00000000 }

/-- R192: clearing a clear flag is a no-op; latching a set flag leaves it set; an ACK of a condition that is not
pending is not enabled. -/
def Obligations.FlagOperationsAreIdempotent : Prop :=
  (∀ (s : State) (d : Data), s.cf = ⟨false, false⟩ → exec (.wrCfSr d) s = .next (s.withRsp (some 0x00000000))) ∧
  (∀ (s t : State) (d : Data), exec (.wrCfSr d) s = .next t → exec (.wrCfSr d) t = .next t) ∧
  (∀ s t : State, exec .ackHt s = .next t → s.cf.halfReady = true → t.cf.halfReady = true) ∧
  (∀ s t : State, exec .ackTc s = .next t → s.cf.fullReady = true → t.cf.fullReady = true) ∧
  ∀ s : State, enabled .ackHt s = s.te.htif ∧ enabled .ackTc s = s.te.tcif ∧ enabled .ackTe s = s.te.teif ∧
    enabled .ackFe s = s.te.feif ∧ enabled .ackDme s = s.te.dmeif

/-- R189, over all steps: a flag rises only in its ACK step, and falls only in a WR CF_SR that writes 1 to its bit, and
in RESET. The lines are the flags (R188). -/
def Obligations.SingleWriterPerDirection : Prop :=
  ∀ (i : Instr) (s t : State), exec i s = .next t →
    (irqHalf s = s.cf.halfReady ∧ irqFull s = s.cf.fullReady) ∧
    (s.cf.halfReady = false → t.cf.halfReady = true → i = .ackHt) ∧
    (s.cf.halfReady = true → t.cf.halfReady = false → (∃ d : Data, i = .wrCfSr d ∧ d.toNat % 2 = 1) ∨ i = .reset) ∧
    (s.cf.fullReady = false → t.cf.fullReady = true → i = .ackTc) ∧
    (s.cf.fullReady = true → t.cf.fullReady = false → (∃ d : Data, i = .wrCfSr d ∧ d.toNat / 2 % 2 = 1) ∨ i = .reset)

/-- R271, R240: under weak fairness a condition that is pending at some moment of a run is later acknowledged by its own
ACK step, unless a RESET drops it; and a conversion in progress later completes, unless a RESET forgets it. -/
def Obligations.PendingConditionsAreEventuallyAcknowledged : Prop :=
  ∀ (σ : Nat → State) (ι : Nat → Instr), IsRun σ ι → WeaklyFair σ ι → ∀ k,
    (∀ i ∈ [Instr.ackHt, .ackTc, .ackTe, .ackFe, .ackDme], enabled i (σ k) = true →
      ∃ j, k ≤ j ∧ (ι j = i ∨ ι j = .reset)) ∧
    ((σ k).se.busy = true → ∃ j, k ≤ j ∧ ((∃ v, ι j = .conv v) ∨ ι j = .reset))

/-! ### Sample memory -/

/-- R200: RDS answers the slot's present content and changes nothing. A slot that holds no value makes the read a fault
(R200 (d), U1). A word with a nonzero ADDR is refused with ERR_ADDR. -/
def Obligations.SlotRead : Prop :=
  HasWord 0x3000 .rds ∧
  (∀ (s : State) (a : Data) (v : Sample), s.buf.read a.toNat = some v →
    exec (.rds a) s = .next (s.withRsp (some (v.setWidth 32)))) ∧
  (∀ (s : State) (a : Data), s.buf.read a.toNat = none → exec (.rds a) s = .fault (.unwrittenSlot a.toNat)) ∧
  (∀ (s : State) (c : Channel) (w : Word) (rest : List Arrival), s.inbox = ⟨c, w⟩ :: rest →
    w.toNat / 2 ^ 28 = 3 → w.toNat / 2 ^ 16 % 2 ^ 12 ≠ 0 →
    step s = .next { s with inbox := rest, rsp := some 0x20000000 })

/-! ### Refused commands, permissions, ghost markers -/

/-- R231: which step answers which status, for every step that has a word; the statuses of words that do not decode are
ERR_OP and ERR_ADDR and no instruction answers them. A response that is not OK carries DATA = 0. -/
def Obligations.StatusCauses : Prop :=
  ∀ (i : Instr) (s t : State), exec i s = .next t → ∃ w : Word, t.rsp = some w ∧
    let status := w.toNat / 2 ^ 28
    (status = 3 ↔ ∃ d, i = .wrSeDr d) ∧
    (status = 4 ↔ (∃ d, i = .wrTgPsc d ∨ i = .wrTgArr d) ∧ s.tg.run = true ∨
      (∃ d, i = .wrTeCr d ∨ i = .wrTeSrc d ∨ i = .wrTeDst d ∨ i = .wrTeN d) ∧ s.te.en = true) ∧
    (status = 5 ↔ (∃ d : Data, i = .wrTeEn d ∧ d.toNat % 2 = 1) ∧ s.te.en = false ∧ cfgValid s.te = false) ∧
    (status = 7 ↔ enabled i s = false) ∧
    status ∈ [0, 3, 4, 5, 7] ∧
    (status ≠ 0 → w.toNat % 2 ^ 28 = 0) ∧
    w.toNat / 2 ^ 16 % 2 ^ 12 = 0

/-- R233: a refused command (and a stimulus word that is not enabled) changes no state element and no marker; the
response carries DATA = 0. -/
def Obligations.RefusedCommandsHaveNoEffect : Prop :=
  ∀ (i : Instr) (s t : State) (w : Word), exec i s = .next t → t.rsp = some w → w.toNat / 2 ^ 28 ≠ 0 →
    t = s.withRsp (some w) ∧ w.toNat % 2 ^ 16 = 0

/-- R242: who may write what, row by row; RESET, which writes everything, is apart (R260). -/
def Obligations.StateIsWrittenOnlyByItsOwner : Prop :=
  ∀ (i : Instr) (s t : State), exec i s = .next t → i ≠ .reset → WrittenBy i s t

/-- R270: a marker is cleared by no step but RESET, and set only by the step and in the case the table names. -/
def Obligations.GhostMarkersRecordTheirHazard : Prop :=
  ∀ (i : Instr) (s t : State), exec i s = .next t → i ≠ .reset →
    (s.ghost.trigLost = true → t.ghost.trigLost = true) ∧
    (s.ghost.sampleLost = true → t.ghost.sampleLost = true) ∧
    (s.ghost.halfLost = true → t.ghost.halfLost = true) ∧
    (s.ghost.fullLost = true → t.ghost.fullLost = true) ∧
    (s.ghost.trigLost = false → t.ghost.trigLost = true → (∃ n, i = .tick n) ∧ s.se.arm = true) ∧
    (s.ghost.sampleLost = false →
      (t.ghost.sampleLost = true ↔ (∃ v, i = .conv v) ∧ s.se.busy = true ∧ s.drq = true ∧ s.te.en = true)) ∧
    (s.ghost.halfLost = false → (t.ghost.halfLost = true ↔
      (i = .xfer ∧ xferEnabled s = true ∧ s.te.cur.toNat + 1 = s.te.n.toNat / 2 ∧ s.te.htif = true) ∨
      (i = .ackHt ∧ s.te.htif = true ∧ s.cf.halfReady = true))) ∧
    (s.ghost.fullLost = false → (t.ghost.fullLost = true ↔
      (i = .xfer ∧ xferEnabled s = true ∧ s.te.cur.toNat + 1 = s.te.n.toNat ∧ s.te.tcif = true) ∨
      (i = .ackTc ∧ s.te.tcif = true ∧ s.cf.fullReady = true)))

/-- R48, R270: no step reads a marker. Two states that differ only in the markers take every step alike, with the same
response. -/
def Obligations.GhostMarkersAreInvisible : Prop :=
  ∀ (i : Instr) (s₁ s₂ : State), eraseGhost s₁ = eraseGhost s₂ →
    mapNext eraseGhost (exec i s₁) = mapNext eraseGhost (exec i s₂)

/-! ### The invariant -/

/-- The invariant holds at reset (R23, R27, R47). -/
def Obligations.InvariantHoldsAtReset : Prop := Inv State.reset

/-- "true after reset and kept by every step" (R23), with the cursor's bound (R27), the validity of an enabled
configuration (R161) and the canonical form of the sample memory: from every state that meets the invariant, every step
leads to one that meets it. -/
def Obligations.EveryStepKeepsTheInvariant : Prop :=
  ∀ s t : State, Inv s → step s = .next t → Inv t

/-- A transfer cannot fail (R162) and every word has an outcome (R88): from every state that meets the invariant the
machine takes a next state, unless the word that comes next is an RDS of a slot that holds no value (log 2). With no
word to come the next state is the same state, which is the model's choice (log 4). -/
def Obligations.OnlyAnUnwrittenReadStopsTheMachine : Prop :=
  ∀ s : State, Inv s →
    (∃ t, step s = .next t) ∨
    ∃ (c : Channel) (w : Word) (rest : List Arrival) (a : Data), s.inbox = ⟨c, w⟩ :: rest ∧
      decode c w = .ok (.rds a) ∧ s.buf.read a.toNat = none ∧ step s = .fault (.unwrittenSlot a.toNat)

/-! ### Boot, the eager schedule, timing -/

/-- R262: from reset, for every legal ring, every period and every setting with ARM = 1, each command of the boot
sequence answers OK, and the pipeline is booted with that configuration and every flag clear. -/
def Obligations.BootSequenceStartsThePipeline : Prop :=
  ∀ (s : State) (d n settings p a : Data), AtReset s → s.buf = [] →
    n.toNat % 2 = 0 → 2 ≤ n.toNat → d.toNat + n.toNat ≤ 65536 → settings.toNat % 2 = 1 →
    (∀ k, 1 ≤ k → k ≤ 9 →
      ∃ t, runInstrs ((bootCommands d n settings p a).take k) s = .next t ∧ t.rsp = some 0x00000000) ∧
    ∃ t, runInstrs (bootCommands d n settings p a) s = .next t ∧ Booted t ∧ t.te.dst = d ∧ t.te.n = n ∧
      t.tg.psc = p ∧ t.tg.arr = a ∧ t.cf = ⟨false, false⟩ ∧ noMarker t = true ∧ t.inbox = s.inbox

/-- R272: under the eager schedule every step of a trace, in whatever order the trace has them, keeps the machine
settled (every condition acknowledged, every sample copied or the engine off) and breaks no hazard of R265 and R266:
neither GH_TRIG_LOST nor GH_SAMPLE_LOST is set. The one stop is the read of a slot that holds no value. -/
def Obligations.EagerScheduleLosesNothing : Prop :=
  ∀ (v : Nat → Sample) (r : EagerRun) (i : Instr), Inv r.st → settled r.st = true →
    (∃ a, i = .rds a ∧ r.st.buf.read a.toNat = none) ∨
    ∃ r', r.step v i = .next r' ∧ Inv r'.st ∧ settled r'.st = true ∧
      (r'.st.ghost.trigLost = true → r.st.ghost.trigLost = true) ∧
      (r'.st.ghost.sampleLost = true → r.st.ghost.sampleLost = true)

/-- R273: after a boot with the counters at zero, circular mode, eager schedule: by tick t the triggers, the conversions
and the transfers number ⌊t / P⌋ each (the cursor counts the transfers), and the flag-setting ACK steps number
⌊t / (P × N/2)⌋. -/
def Obligations.TimingLawUnderTheEagerSchedule : Prop :=
  ∀ (v : Nat → Sample) (r : EagerRun) (t : Nat), Booted r.st →
    ∃ r', r.ticks v t = .next r' ∧
      r'.st.trigOut = r.st.trigOut + t / period r.st.tg ∧
      r'.drawn = r.drawn + t / period r.st.tg ∧
      r'.st.te.cur.toNat = t / period r.st.tg % r.st.te.n.toNat ∧
      r'.notices = r.notices + t / (period r.st.tg * (r.st.te.n.toNat / 2))

/-! ### The consumer's protocol -/

/-- R205, R206: for every legal capacity and every half of samples the sum stays below 2^31, the mean is the floor of
sum / (N/2), it fits 16 bits, and it is exact for a constant half. -/
def Obligations.MeanIsExact : Prop :=
  ∀ (n : Nat) (vs : List Sample), n % 2 = 0 → 2 ≤ n → n ≤ 65534 → vs.length = n / 2 →
    sampleSum vs < 2 ^ 31 ∧
    mean n vs * (n / 2) ≤ sampleSum vs ∧ sampleSum vs < (mean n vs + 1) * (n / 2) ∧
    mean n vs ≤ 65535 ∧
    ∀ x : Sample, (∀ y ∈ vs, y = x) → mean n vs = x.toNat

/-- R207 (with its character codes, which are from general knowledge, log 17), R208: the line is the label, the digits and CR LF; the digits are those of the number in base 10, most
significant first, none leading 0 but in "0" itself, one to five for a 16-bit mean. -/
def Obligations.ReportLineIsTheDecimalMean : Prop :=
  ∀ v : Nat,
    reportLine .half0 v =
      [0x41, 0x56, 0x47, 0x30, 0x20, 0x3D, 0x20] ++ (decimalDigits v).map (fun d => BitVec.ofNat 8 (48 + d)) ++ [13, 10] ∧
    reportLine .half1 v =
      [0x41, 0x56, 0x47, 0x31, 0x20, 0x3D, 0x20] ++ (decimalDigits v).map (fun d => BitVec.ofNat 8 (48 + d)) ++ [13, 10] ∧
    (decimalDigits v).foldl (fun acc d => 10 * acc + d) 0 = v ∧
    (∀ d ∈ decimalDigits v, d < 10) ∧
    (0 < v → (decimalDigits v).head? ≠ some 0) ∧ decimalDigits 0 = [0] ∧
    (v ≤ 65535 → 1 ≤ (decimalDigits v).length ∧ (decimalDigits v).length ≤ 5)

/-- R202, R203: the service clears its flag first and only that flag, reads the N/2 slots of its half, and emits the line
of their mean; the memory and everything else stay. -/
def Obligations.ServiceReportsTheMeanOfItsHalf : Prop :=
  ∀ (h : Half) (d n : Nat) (s : State) (vs : List Sample), d + n ≤ 65536 → 2 ≤ n → n % 2 = 0 →
    vs.map some = (halfSlots h d n).map s.buf.read →
    ∃ w, serviceHalf h d n s = .next (reportLine h (mean n vs),
      { s with
        cf := match h with
          | .half0 => { s.cf with halfReady := false }
          | .half1 => { s.cf with fullReady := false }
        rsp := some w })

/-- The round-trip scenario of 95_test_vectors.md S4, for every ring, period and value: booted with the flags clear, a
constant input over the N/2 periods that fill half 0, then one iteration of the consumer: it reports exactly that value
for half 0, in either order of service, and clears the flag (R201 to R205, R273). -/
def Obligations.ConstantHalfIsReportedExactly : Prop :=
  ∀ (r : EagerRun) (x : Sample) (first : Half), Booted r.st → r.st.cf = ⟨false, false⟩ →
    ∃ r' u, r.ticks (fun _ => x) (period r.st.tg * (r.st.te.n.toNat / 2)) = .next r' ∧
      r'.st.cf = ⟨true, false⟩ ∧
      consumerIteration first r.st.te.dst.toNat r.st.te.n.toNat r'.st = .next ([reportLine .half0 x.toNat], u) ∧
      u.cf = ⟨false, false⟩

/-- R201, run forever and with the other agents' steps between its commands: after boot, and then whatever the agents and
the error events do in between, the loop always has a move of its own, and every move that may come completes and leads
on. Its commands are RD CF_SR, the clear of a flag that is set, and RDS of a written slot of the ring (R67, R210). A RESET
is apart: it takes the samples from under a read. -/
def Obligations.ConsumerLoopRunsForever : Prop :=
  (∀ s : State, Booted s → s.cf = ⟨false, false⟩ → LoopInv (loopStart s)) ∧
  ∀ x : LoopState, LoopInv x →
    (∃ m, m.isOwn = true ∧ loopEnabled m x = true) ∧
    ∀ m : LoopMove, loopEnabled m x = true → m ≠ .other .reset →
      ∃ y, loopStep m x = .next y ∧ LoopInv y ∧
        (m = .accept ∧ y.st = x.st ∨
          ∃ i, Fires x.st i y.st ∧
            (m = .other i ∧ agentOf i ≠ .host ∧ y = { x with st := y.st } ∨
              m.isOwn = true ∧ (i = .rdCfSr ∨ (∃ h : Half, i = .wrCfSr h.clearData ∧ h.flag x.st = true) ∨
                ∃ a v : Data, i = .rds a ∧ x.d ≤ a.toNat ∧ a.toNat < x.d + x.n ∧ x.st.buf.read a.toNat = some v)))

/-- R201, R202: one iteration without other steps between its commands is a run of the loop's own moves, from poll to
poll, with the same lines and the same state. -/
def Obligations.IterationIsTheLoopUninterrupted : Prop :=
  ∀ (first : Half) (d n : Nat) (s t : State) (lines : List (List Byte)) (sent : List Byte),
    consumerIteration first d n s = .next (lines, t) →
    ∃ ms, (∀ m ∈ ms, m.isOwn = true) ∧
      runLoop ms ⟨d, n, .poll, sent, s⟩ = .next ⟨d, n, .poll, sent ++ lines.flatten, t⟩

/-- R239, R268: however the agents' steps fall between the loop's commands, a flag that is set at some moment, in the
middle of a service of its own half too, is later cleared by a clear that begins a service of its half. The loop keeps
making moves of its own (its transport does not stall for good, U13), and no RESET comes. -/
def Obligations.EveryFlagIsServiced : Prop :=
  ∀ (σ : Nat → LoopState) (μ : Nat → LoopMove), IsLoopRun σ μ → (∀ k, ∃ j, k ≤ j ∧ (μ j).isOwn = true) →
    (∀ k, μ k ≠ .other .reset) → ∀ (h : Half) (k : Nat), h.flag (σ k).st = true →
    ∃ j rest, k ≤ j ∧ (∀ i, k ≤ i → i ≤ j → h.flag (σ i).st = true) ∧ μ j = .clear ∧ (σ j).phase = .clear h rest

/-- R202, R203, R68, R70, R264: a service whose commands have any agents' steps between them, in any order of its
reads, and whose reads end before the transfer that writes into its half again, emits the line of the mean of the half
as it stood at the clear. -/
def Obligations.InterleavedServiceReportsItsHalf : Prop :=
  ∀ (ms : List LoopMove) (x y : LoopState) (h : Half) (rest rest' : List Half) (vs : List Sample) (bytes : List Byte),
    Inv x.st → x.st.te.en = true → x.st.te.circ = true → x.st.te.dinc = true →
    x.d = x.st.te.dst.toNat → x.n = x.st.te.n.toNat → x.phase = .clear h rest →
    vs.map some = (halfSlots h x.d x.n).map x.st.buf.read →
    LoopMove.accept ∉ ms → LoopMove.other .reset ∉ ms →
    loopTransfers ms x ≤ transfersLeft h x.st.te.cur.toNat x.n →
    runLoop ms x = .next y → y.phase = .send bytes rest' →
    bytes = reportLine h (mean x.n vs) ∧ rest' = rest ∧ y.sent = x.sent

/-! ### Assembler -/

/-- R91: the text of a well-formed statement is read back as that statement, and assembles; a statement with an
immediate outside 0 .. 65535 is an assembly error. The spacing that is written and read is the model's choice
(log 18). -/
def Obligations.AssemblerReadsWhatItWrites : Prop :=
  (∀ st : AsmStmt, st.wellFormed = true →
    readLine (stmtText st) = some ⟨some st, none⟩ ∧ assemble st = some ((expand st).map encode)) ∧
  ∀ st : AsmStmt, st.wellFormed = false → assemble st = none

/-- R92: the expansions of the pseudo-instructions. -/
def Obligations.PseudoInstructionExpansions : Prop :=
  expand .start = [.wrTgCr 1] ∧ expand .stop = [.wrTgCr 0] ∧ expand .arm = [.wrSeCr 1] ∧
  expand .enable = [.wrTeEn 1] ∧ expand .disable = [.wrTeEn 0] ∧ expand .poll = [.rdCfSr] ∧
  expand .clrh = [.wrCfSr 1] ∧ expand .clrf = [.wrCfSr 2] ∧
  ∀ x y : Data,
    expand (.period x.toNat y.toNat) = [.wrTgPsc x, .wrTgArr y] ∧
    expand (.ring x.toNat y.toNat) = [.wrTeCr 7, .wrTeSrc 0x0011, .wrTeDst x, .wrTeN y] ∧
    expand (.sample x.toNat) = [.conv x, .xfer]
end

