-- ==== Sys2Proof/Laws/State.lean ====
section
/-! SUPPORT. One lemma per field per state update, true by rfl, so that no proof unfolds a record update. -/

namespace Sys2Proof.Machine

@[simp] theorem State.respond_tg (s : State) (st : Status) (d : Data) : (s.respond st d).tg = s.tg := rfl
@[simp] theorem State.respond_se (s : State) (st : Status) (d : Data) : (s.respond st d).se = s.se := rfl
@[simp] theorem State.respond_drq (s : State) (st : Status) (d : Data) : (s.respond st d).drq = s.drq := rfl
@[simp] theorem State.respond_te (s : State) (st : Status) (d : Data) : (s.respond st d).te = s.te := rfl
@[simp] theorem State.respond_cf (s : State) (st : Status) (d : Data) : (s.respond st d).cf = s.cf := rfl
@[simp] theorem State.respond_buf (s : State) (st : Status) (d : Data) : (s.respond st d).buf = s.buf := rfl
@[simp] theorem State.respond_ghost (s : State) (st : Status) (d : Data) : (s.respond st d).ghost = s.ghost := rfl
@[simp] theorem State.respond_inbox (s : State) (st : Status) (d : Data) : (s.respond st d).inbox = s.inbox := rfl
@[simp] theorem State.respond_rsp (s : State) (st : Status) (d : Data) : (s.respond st d).rsp = some (responseWord st d) := rfl
@[simp] theorem State.respond_trigOut (s : State) (st : Status) (d : Data) : (s.respond st d).trigOut = s.trigOut := rfl

@[simp] theorem State.refuse_tg (s : State) (st : Status) : (s.refuse st).tg = s.tg := rfl
@[simp] theorem State.refuse_se (s : State) (st : Status) : (s.refuse st).se = s.se := rfl
@[simp] theorem State.refuse_drq (s : State) (st : Status) : (s.refuse st).drq = s.drq := rfl
@[simp] theorem State.refuse_te (s : State) (st : Status) : (s.refuse st).te = s.te := rfl
@[simp] theorem State.refuse_cf (s : State) (st : Status) : (s.refuse st).cf = s.cf := rfl
@[simp] theorem State.refuse_buf (s : State) (st : Status) : (s.refuse st).buf = s.buf := rfl
@[simp] theorem State.refuse_ghost (s : State) (st : Status) : (s.refuse st).ghost = s.ghost := rfl
@[simp] theorem State.refuse_inbox (s : State) (st : Status) : (s.refuse st).inbox = s.inbox := rfl
@[simp] theorem State.refuse_rsp (s : State) (st : Status) : (s.refuse st).rsp = some (responseWord st 0) := rfl
@[simp] theorem State.refuse_trigOut (s : State) (st : Status) : (s.refuse st).trigOut = s.trigOut := rfl

@[simp] theorem State.notEnabled_tg (s : State) : (s.notEnabled).tg = s.tg := rfl
@[simp] theorem State.notEnabled_se (s : State) : (s.notEnabled).se = s.se := rfl
@[simp] theorem State.notEnabled_drq (s : State) : (s.notEnabled).drq = s.drq := rfl
@[simp] theorem State.notEnabled_te (s : State) : (s.notEnabled).te = s.te := rfl
@[simp] theorem State.notEnabled_cf (s : State) : (s.notEnabled).cf = s.cf := rfl
@[simp] theorem State.notEnabled_buf (s : State) : (s.notEnabled).buf = s.buf := rfl
@[simp] theorem State.notEnabled_ghost (s : State) : (s.notEnabled).ghost = s.ghost := rfl
@[simp] theorem State.notEnabled_inbox (s : State) : (s.notEnabled).inbox = s.inbox := rfl
@[simp] theorem State.notEnabled_rsp (s : State) : (s.notEnabled).rsp = some (responseWord .noten 0) := rfl
@[simp] theorem State.notEnabled_trigOut (s : State) : (s.notEnabled).trigOut = s.trigOut := rfl

@[simp] theorem State.done_tg (s : State) : (s.done).tg = s.tg := rfl
@[simp] theorem State.done_se (s : State) : (s.done).se = s.se := rfl
@[simp] theorem State.done_drq (s : State) : (s.done).drq = s.drq := rfl
@[simp] theorem State.done_te (s : State) : (s.done).te = s.te := rfl
@[simp] theorem State.done_cf (s : State) : (s.done).cf = s.cf := rfl
@[simp] theorem State.done_buf (s : State) : (s.done).buf = s.buf := rfl
@[simp] theorem State.done_ghost (s : State) : (s.done).ghost = s.ghost := rfl
@[simp] theorem State.done_inbox (s : State) : (s.done).inbox = s.inbox := rfl
@[simp] theorem State.done_rsp (s : State) : (s.done).rsp = some (responseWord .ok 0) := rfl
@[simp] theorem State.done_trigOut (s : State) : (s.done).trigOut = s.trigOut := rfl

@[simp] theorem State.rejectWord_tg (s : State) (e : DecodeError) : (s.rejectWord e).tg = s.tg := rfl
@[simp] theorem State.rejectWord_se (s : State) (e : DecodeError) : (s.rejectWord e).se = s.se := rfl
@[simp] theorem State.rejectWord_drq (s : State) (e : DecodeError) : (s.rejectWord e).drq = s.drq := rfl
@[simp] theorem State.rejectWord_te (s : State) (e : DecodeError) : (s.rejectWord e).te = s.te := rfl
@[simp] theorem State.rejectWord_cf (s : State) (e : DecodeError) : (s.rejectWord e).cf = s.cf := rfl
@[simp] theorem State.rejectWord_buf (s : State) (e : DecodeError) : (s.rejectWord e).buf = s.buf := rfl
@[simp] theorem State.rejectWord_ghost (s : State) (e : DecodeError) : (s.rejectWord e).ghost = s.ghost := rfl
@[simp] theorem State.rejectWord_inbox (s : State) (e : DecodeError) : (s.rejectWord e).inbox = s.inbox := rfl
@[simp] theorem State.rejectWord_rsp (s : State) (e : DecodeError) : (s.rejectWord e).rsp = some (responseWord (statusOf e) 0) := rfl
@[simp] theorem State.rejectWord_trigOut (s : State) (e : DecodeError) : (s.rejectWord e).trigOut = s.trigOut := rfl

@[simp] theorem State.answerReg_tg (s : State) (r : Reg) : (s.answerReg r).tg = s.tg := rfl
@[simp] theorem State.answerReg_se (s : State) (r : Reg) : (s.answerReg r).se = s.se := rfl
@[simp] theorem State.answerReg_drq (s : State) (r : Reg) : (s.answerReg r).drq = s.drq := rfl
@[simp] theorem State.answerReg_te (s : State) (r : Reg) : (s.answerReg r).te = s.te := rfl
@[simp] theorem State.answerReg_cf (s : State) (r : Reg) : (s.answerReg r).cf = s.cf := rfl
@[simp] theorem State.answerReg_buf (s : State) (r : Reg) : (s.answerReg r).buf = s.buf := rfl
@[simp] theorem State.answerReg_ghost (s : State) (r : Reg) : (s.answerReg r).ghost = s.ghost := rfl
@[simp] theorem State.answerReg_inbox (s : State) (r : Reg) : (s.answerReg r).inbox = s.inbox := rfl
@[simp] theorem State.answerReg_rsp (s : State) (r : Reg) : (s.answerReg r).rsp = some (responseWord .ok (readReg s r)) := rfl
@[simp] theorem State.answerReg_trigOut (s : State) (r : Reg) : (s.answerReg r).trigOut = s.trigOut := rfl

@[simp] theorem State.raiseHalf_tg (s : State) : (s.raiseHalf).tg = s.tg := rfl
@[simp] theorem State.raiseHalf_se (s : State) : (s.raiseHalf).se = s.se := rfl
@[simp] theorem State.raiseHalf_drq (s : State) : (s.raiseHalf).drq = s.drq := rfl
@[simp] theorem State.raiseHalf_te (s : State) : (s.raiseHalf).te = { s.te with htif := true } := rfl
@[simp] theorem State.raiseHalf_cf (s : State) : (s.raiseHalf).cf = s.cf := rfl
@[simp] theorem State.raiseHalf_buf (s : State) : (s.raiseHalf).buf = s.buf := rfl
@[simp] theorem State.raiseHalf_ghost (s : State) : (s.raiseHalf).ghost = { s.ghost with halfLost := s.ghost.halfLost || s.te.htif } := rfl
@[simp] theorem State.raiseHalf_inbox (s : State) : (s.raiseHalf).inbox = s.inbox := rfl
@[simp] theorem State.raiseHalf_rsp (s : State) : (s.raiseHalf).rsp = s.rsp := rfl
@[simp] theorem State.raiseHalf_trigOut (s : State) : (s.raiseHalf).trigOut = s.trigOut := rfl

@[simp] theorem State.raiseFull_tg (s : State) : (s.raiseFull).tg = s.tg := rfl
@[simp] theorem State.raiseFull_se (s : State) : (s.raiseFull).se = s.se := rfl
@[simp] theorem State.raiseFull_drq (s : State) : (s.raiseFull).drq = s.drq := rfl
@[simp] theorem State.raiseFull_te (s : State) : (s.raiseFull).te = { s.te with tcif := true } := rfl
@[simp] theorem State.raiseFull_cf (s : State) : (s.raiseFull).cf = s.cf := rfl
@[simp] theorem State.raiseFull_buf (s : State) : (s.raiseFull).buf = s.buf := rfl
@[simp] theorem State.raiseFull_ghost (s : State) : (s.raiseFull).ghost = { s.ghost with fullLost := s.ghost.fullLost || s.te.tcif } := rfl
@[simp] theorem State.raiseFull_inbox (s : State) : (s.raiseFull).inbox = s.inbox := rfl
@[simp] theorem State.raiseFull_rsp (s : State) : (s.raiseFull).rsp = s.rsp := rfl
@[simp] theorem State.raiseFull_trigOut (s : State) : (s.raiseFull).trigOut = s.trigOut := rfl

@[simp] theorem State.latchHalf_tg (s : State) : (s.latchHalf).tg = s.tg := rfl
@[simp] theorem State.latchHalf_se (s : State) : (s.latchHalf).se = s.se := rfl
@[simp] theorem State.latchHalf_drq (s : State) : (s.latchHalf).drq = s.drq := rfl
@[simp] theorem State.latchHalf_te (s : State) : (s.latchHalf).te = { s.te with htif := false } := rfl
@[simp] theorem State.latchHalf_cf (s : State) : (s.latchHalf).cf = { s.cf with halfReady := true } := rfl
@[simp] theorem State.latchHalf_buf (s : State) : (s.latchHalf).buf = s.buf := rfl
@[simp] theorem State.latchHalf_ghost (s : State) : (s.latchHalf).ghost = { s.ghost with halfLost := s.ghost.halfLost || s.cf.halfReady } := rfl
@[simp] theorem State.latchHalf_inbox (s : State) : (s.latchHalf).inbox = s.inbox := rfl
@[simp] theorem State.latchHalf_rsp (s : State) : (s.latchHalf).rsp = s.rsp := rfl
@[simp] theorem State.latchHalf_trigOut (s : State) : (s.latchHalf).trigOut = s.trigOut := rfl

@[simp] theorem State.latchFull_tg (s : State) : (s.latchFull).tg = s.tg := rfl
@[simp] theorem State.latchFull_se (s : State) : (s.latchFull).se = s.se := rfl
@[simp] theorem State.latchFull_drq (s : State) : (s.latchFull).drq = s.drq := rfl
@[simp] theorem State.latchFull_te (s : State) : (s.latchFull).te = { s.te with tcif := false } := rfl
@[simp] theorem State.latchFull_cf (s : State) : (s.latchFull).cf = { s.cf with fullReady := true } := rfl
@[simp] theorem State.latchFull_buf (s : State) : (s.latchFull).buf = s.buf := rfl
@[simp] theorem State.latchFull_ghost (s : State) : (s.latchFull).ghost = { s.ghost with fullLost := s.ghost.fullLost || s.cf.fullReady } := rfl
@[simp] theorem State.latchFull_inbox (s : State) : (s.latchFull).inbox = s.inbox := rfl
@[simp] theorem State.latchFull_rsp (s : State) : (s.latchFull).rsp = s.rsp := rfl
@[simp] theorem State.latchFull_trigOut (s : State) : (s.latchFull).trigOut = s.trigOut := rfl

@[simp] theorem State.setTeif_tg (s : State) (b : Bool) : (s.setTeif b).tg = s.tg := rfl
@[simp] theorem State.setTeif_se (s : State) (b : Bool) : (s.setTeif b).se = s.se := rfl
@[simp] theorem State.setTeif_drq (s : State) (b : Bool) : (s.setTeif b).drq = s.drq := rfl
@[simp] theorem State.setTeif_te (s : State) (b : Bool) : (s.setTeif b).te = { s.te with teif := b } := rfl
@[simp] theorem State.setTeif_cf (s : State) (b : Bool) : (s.setTeif b).cf = s.cf := rfl
@[simp] theorem State.setTeif_buf (s : State) (b : Bool) : (s.setTeif b).buf = s.buf := rfl
@[simp] theorem State.setTeif_ghost (s : State) (b : Bool) : (s.setTeif b).ghost = s.ghost := rfl
@[simp] theorem State.setTeif_inbox (s : State) (b : Bool) : (s.setTeif b).inbox = s.inbox := rfl
@[simp] theorem State.setTeif_rsp (s : State) (b : Bool) : (s.setTeif b).rsp = s.rsp := rfl
@[simp] theorem State.setTeif_trigOut (s : State) (b : Bool) : (s.setTeif b).trigOut = s.trigOut := rfl

@[simp] theorem State.setFeif_tg (s : State) (b : Bool) : (s.setFeif b).tg = s.tg := rfl
@[simp] theorem State.setFeif_se (s : State) (b : Bool) : (s.setFeif b).se = s.se := rfl
@[simp] theorem State.setFeif_drq (s : State) (b : Bool) : (s.setFeif b).drq = s.drq := rfl
@[simp] theorem State.setFeif_te (s : State) (b : Bool) : (s.setFeif b).te = { s.te with feif := b } := rfl
@[simp] theorem State.setFeif_cf (s : State) (b : Bool) : (s.setFeif b).cf = s.cf := rfl
@[simp] theorem State.setFeif_buf (s : State) (b : Bool) : (s.setFeif b).buf = s.buf := rfl
@[simp] theorem State.setFeif_ghost (s : State) (b : Bool) : (s.setFeif b).ghost = s.ghost := rfl
@[simp] theorem State.setFeif_inbox (s : State) (b : Bool) : (s.setFeif b).inbox = s.inbox := rfl
@[simp] theorem State.setFeif_rsp (s : State) (b : Bool) : (s.setFeif b).rsp = s.rsp := rfl
@[simp] theorem State.setFeif_trigOut (s : State) (b : Bool) : (s.setFeif b).trigOut = s.trigOut := rfl

@[simp] theorem State.setDmeif_tg (s : State) (b : Bool) : (s.setDmeif b).tg = s.tg := rfl
@[simp] theorem State.setDmeif_se (s : State) (b : Bool) : (s.setDmeif b).se = s.se := rfl
@[simp] theorem State.setDmeif_drq (s : State) (b : Bool) : (s.setDmeif b).drq = s.drq := rfl
@[simp] theorem State.setDmeif_te (s : State) (b : Bool) : (s.setDmeif b).te = { s.te with dmeif := b } := rfl
@[simp] theorem State.setDmeif_cf (s : State) (b : Bool) : (s.setDmeif b).cf = s.cf := rfl
@[simp] theorem State.setDmeif_buf (s : State) (b : Bool) : (s.setDmeif b).buf = s.buf := rfl
@[simp] theorem State.setDmeif_ghost (s : State) (b : Bool) : (s.setDmeif b).ghost = s.ghost := rfl
@[simp] theorem State.setDmeif_inbox (s : State) (b : Bool) : (s.setDmeif b).inbox = s.inbox := rfl
@[simp] theorem State.setDmeif_rsp (s : State) (b : Bool) : (s.setDmeif b).rsp = s.rsp := rfl
@[simp] theorem State.setDmeif_trigOut (s : State) (b : Bool) : (s.setDmeif b).trigOut = s.trigOut := rfl

@[simp] theorem State.completeConversion_tg (s : State) (v : Sample) : (s.completeConversion v).tg = s.tg := rfl
@[simp] theorem State.completeConversion_se (s : State) (v : Sample) : (s.completeConversion v).se = { s.se with dr := v, busy := false } := rfl
@[simp] theorem State.completeConversion_drq (s : State) (v : Sample) : (s.completeConversion v).drq = true := rfl
@[simp] theorem State.completeConversion_te (s : State) (v : Sample) : (s.completeConversion v).te = s.te := rfl
@[simp] theorem State.completeConversion_cf (s : State) (v : Sample) : (s.completeConversion v).cf = s.cf := rfl
@[simp] theorem State.completeConversion_buf (s : State) (v : Sample) : (s.completeConversion v).buf = s.buf := rfl
@[simp] theorem State.completeConversion_ghost (s : State) (v : Sample) : (s.completeConversion v).ghost = { s.ghost with sampleLost := s.ghost.sampleLost || (s.drq && s.te.en) } := rfl
@[simp] theorem State.completeConversion_inbox (s : State) (v : Sample) : (s.completeConversion v).inbox = s.inbox := rfl
@[simp] theorem State.completeConversion_rsp (s : State) (v : Sample) : (s.completeConversion v).rsp = s.rsp := rfl
@[simp] theorem State.completeConversion_trigOut (s : State) (v : Sample) : (s.completeConversion v).trigOut = s.trigOut := rfl

@[simp] theorem State.enableEngine_tg (s : State) : (s.enableEngine).tg = s.tg := rfl
@[simp] theorem State.enableEngine_se (s : State) : (s.enableEngine).se = s.se := rfl
@[simp] theorem State.enableEngine_drq (s : State) : (s.enableEngine).drq = false := rfl
@[simp] theorem State.enableEngine_te (s : State) : (s.enableEngine).te = { s.te with en := true, cur := 0 } := rfl
@[simp] theorem State.enableEngine_cf (s : State) : (s.enableEngine).cf = s.cf := rfl
@[simp] theorem State.enableEngine_buf (s : State) : (s.enableEngine).buf = s.buf := rfl
@[simp] theorem State.enableEngine_ghost (s : State) : (s.enableEngine).ghost = s.ghost := rfl
@[simp] theorem State.enableEngine_inbox (s : State) : (s.enableEngine).inbox = s.inbox := rfl
@[simp] theorem State.enableEngine_rsp (s : State) : (s.enableEngine).rsp = s.rsp := rfl
@[simp] theorem State.enableEngine_trigOut (s : State) : (s.enableEngine).trigOut = s.trigOut := rfl

@[simp] theorem State.storeSample_tg (s : State) : (s.storeSample).tg = s.tg := rfl
@[simp] theorem State.storeSample_se (s : State) : (s.storeSample).se = s.se := rfl
@[simp] theorem State.storeSample_drq (s : State) : (s.storeSample).drq = false := rfl
@[simp] theorem State.storeSample_te (s : State) : (s.storeSample).te = s.te := rfl
@[simp] theorem State.storeSample_cf (s : State) : (s.storeSample).cf = s.cf := rfl
@[simp] theorem State.storeSample_buf (s : State) : (s.storeSample).buf = s.buf.write (xferSlot s.te) s.se.dr := rfl
@[simp] theorem State.storeSample_ghost (s : State) : (s.storeSample).ghost = s.ghost := rfl
@[simp] theorem State.storeSample_inbox (s : State) : (s.storeSample).inbox = s.inbox := rfl
@[simp] theorem State.storeSample_rsp (s : State) : (s.storeSample).rsp = s.rsp := rfl
@[simp] theorem State.storeSample_trigOut (s : State) : (s.storeSample).trigOut = s.trigOut := rfl

@[simp] theorem State.wrapCursor_tg (s : State) : (s.wrapCursor).tg = s.tg := rfl
@[simp] theorem State.wrapCursor_se (s : State) : (s.wrapCursor).se = s.se := rfl
@[simp] theorem State.wrapCursor_drq (s : State) : (s.wrapCursor).drq = s.drq := rfl
@[simp] theorem State.wrapCursor_te (s : State) : (s.wrapCursor).te = { s.te with tcif := true, cur := 0, en := s.te.en && s.te.circ } := rfl
@[simp] theorem State.wrapCursor_cf (s : State) : (s.wrapCursor).cf = s.cf := rfl
@[simp] theorem State.wrapCursor_buf (s : State) : (s.wrapCursor).buf = s.buf := rfl
@[simp] theorem State.wrapCursor_ghost (s : State) : (s.wrapCursor).ghost = { s.ghost with fullLost := s.ghost.fullLost || s.te.tcif } := rfl
@[simp] theorem State.wrapCursor_inbox (s : State) : (s.wrapCursor).inbox = s.inbox := rfl
@[simp] theorem State.wrapCursor_rsp (s : State) : (s.wrapCursor).rsp = s.rsp := rfl
@[simp] theorem State.wrapCursor_trigOut (s : State) : (s.wrapCursor).trigOut = s.trigOut := rfl

@[simp] theorem State.resetBlock_tg (s : State) : (s.resetBlock).tg = State.reset.tg := rfl
@[simp] theorem State.resetBlock_se (s : State) : (s.resetBlock).se = State.reset.se := rfl
@[simp] theorem State.resetBlock_drq (s : State) : (s.resetBlock).drq = State.reset.drq := rfl
@[simp] theorem State.resetBlock_te (s : State) : (s.resetBlock).te = State.reset.te := rfl
@[simp] theorem State.resetBlock_cf (s : State) : (s.resetBlock).cf = State.reset.cf := rfl
@[simp] theorem State.resetBlock_buf (s : State) : (s.resetBlock).buf = State.reset.buf := rfl
@[simp] theorem State.resetBlock_ghost (s : State) : (s.resetBlock).ghost = State.reset.ghost := rfl
@[simp] theorem State.resetBlock_inbox (s : State) : (s.resetBlock).inbox = s.inbox := rfl
@[simp] theorem State.resetBlock_rsp (s : State) : (s.resetBlock).rsp = State.reset.rsp := rfl
@[simp] theorem State.resetBlock_trigOut (s : State) : (s.resetBlock).trigOut = s.trigOut := rfl

end Sys2Proof.Machine
end

