-- ==== Sys2Proof/Laws/Memory.lean ====
section
/-! SUPPORT. The laws of the sample memory: a read after a write, the canonical form, and that equal contents are
equal lists. -/

namespace Sys2Proof.Machine

@[simp] theorem Memory.read_nil (a : Nat) : Memory.read [] a = none := rfl

@[simp] theorem Memory.read_write_same (m : Memory) (a : Nat) (v : Sample) : (m.write a v).read a = some v := by
  induction m with
  | nil => simp [Memory.write, Memory.read]
  | cons c rest ih =>
    obtain ⟨b, w⟩ := c
    by_cases hlt : a < b
    · simp [Memory.write, Memory.read, hlt]
    · by_cases heq : a = b
      · simp [Memory.write, Memory.read, heq]
      · simp [Memory.write, Memory.read, hlt, heq, ih]

theorem Memory.read_write_other (m : Memory) {a b : Nat} (v : Sample) (h : b ≠ a) :
    (m.write a v).read b = m.read b := by
  induction m with
  | nil => simp [Memory.write, Memory.read, h]
  | cons c rest ih =>
    obtain ⟨k, w⟩ := c
    by_cases hlt : a < k
    · simp [Memory.write, Memory.read, hlt, h]
    · by_cases heq : a = k
      · subst heq
        simp [Memory.write, Memory.read, h]
      · simp [Memory.write, Memory.read, hlt, heq, ih]

theorem Memory.read_write (m : Memory) (a b : Nat) (v : Sample) :
    (m.write a v).read b = if b = a then some v else m.read b := by
  by_cases h : b = a
  · simp [h]
  · simp [h, Memory.read_write_other]

theorem Memory.wf_nil : Memory.wf [] := by simp [Memory.wf]

/-- Every entry after a write is the new one or was there before. -/
theorem Memory.mem_write {m : Memory} {a : Nat} {v : Sample} {c : Nat × Sample} (h : c ∈ m.write a v) :
    c = (a, v) ∨ c ∈ m := by
  induction m with
  | nil => simpa [Memory.write] using h
  | cons d rest ih =>
    obtain ⟨k, w⟩ := d
    simp only [Memory.write] at h
    split at h
    · simpa using h
    · split at h
      · rcases List.mem_cons.mp h with h | h
        · exact .inl h
        · exact .inr (List.mem_cons_of_mem _ h)
      · rcases List.mem_cons.mp h with h | h
        · exact .inr (by simp [h])
        · rcases ih h with h | h
          · exact .inl h
          · exact .inr (List.mem_cons_of_mem _ h)

/-- A write inside the memory keeps the canonical form. -/
theorem Memory.write_wf {m : Memory} {a : Nat} (v : Sample) (hm : m.wf) (ha : a < Config.memSlots) :
    (m.write a v).wf := by
  refine ⟨?_, fun c hc => ?_⟩
  · have hs := hm.1
    clear hm
    induction m with
    | nil => simp [Memory.write]
    | cons d rest ih =>
      obtain ⟨k, w⟩ := d
      rw [List.pairwise_cons] at hs
      simp only [Memory.write]
      split
      · next hlt =>
        rw [List.pairwise_cons, List.pairwise_cons]
        refine ⟨fun c hc => ?_, hs⟩
        rcases List.mem_cons.mp hc with rfl | hc
        · exact hlt
        · exact Nat.lt_trans hlt (hs.1 c hc)
      · split
        · next heq =>
          rw [List.pairwise_cons]
          exact ⟨fun c hc => heq ▸ hs.1 c hc, hs.2⟩
        · rw [List.pairwise_cons]
          refine ⟨fun c hc => ?_, ih hs.2⟩
          rcases Memory.mem_write hc with rfl | hc
          · show k < a
            omega
          · exact hs.1 c hc
  · rcases Memory.mem_write hc with rfl | hc
    · exact ha
    · exact hm.2 c hc

/-- A slot below every entry holds no value. -/
theorem Memory.read_below {m : Memory} {a : Nat} (h : ∀ c ∈ m, a < c.1) : m.read a = none := by
  induction m with
  | nil => rfl
  | cons c rest ih =>
    obtain ⟨k, w⟩ := c
    have hk : a < k := h (k, w) (by simp)
    simp [Memory.read, Nat.ne_of_lt hk, ih (fun c hc => h c (by simp [hc]))]

/-- In canonical form, equal contents are equal lists. -/
theorem Memory.ext_of_read {m₁ m₂ : Memory} (h₁ : m₁.wf) (h₂ : m₂.wf) (h : ∀ a, m₁.read a = m₂.read a) :
    m₁ = m₂ := by
  replace h₁ := h₁.1
  replace h₂ := h₂.1
  revert h₂ h₁ h
  induction m₁ generalizing m₂ with
  | nil =>
    intro h _ _
    cases m₂ with
    | nil => rfl
    | cons c rest => simpa [Memory.read] using h c.1
  | cons c rest ih =>
    obtain ⟨k, w⟩ := c
    intro h h₁ h₂
    cases m₂ with
    | nil => simpa [Memory.read] using h k
    | cons d rest' =>
      obtain ⟨k', w'⟩ := d
      rw [List.pairwise_cons] at h₁ h₂
      have hkk : k = k' := by
        rcases Nat.lt_trichotomy k k' with hlt | heq | hgt
        · have hb : Memory.read ((k', w') :: rest') k = none := Memory.read_below fun c hc => by
            rcases List.mem_cons.mp hc with rfl | hc
            · exact hlt
            · exact Nat.lt_trans hlt (h₂.1 c hc)
          have := h k
          rw [hb] at this
          simp [Memory.read] at this
        · exact heq
        · have hb : Memory.read ((k, w) :: rest) k' = none := Memory.read_below fun c hc => by
            rcases List.mem_cons.mp hc with rfl | hc
            · exact hgt
            · exact Nat.lt_trans hgt (h₁.1 c hc)
          have := h k'
          rw [hb] at this
          simp [Memory.read] at this
      subst hkk
      have hw : w = w' := by simpa [Memory.read] using h k
      subst hw
      congr 1
      refine ih (m₂ := rest') (fun a => ?_) h₁.2 h₂.2
      by_cases ha : a = k
      · subst ha
        rw [Memory.read_below h₁.1, Memory.read_below h₂.1]
      · simpa [Memory.read, ha] using h a

/-- A slot outside the memory holds no value in canonical form. -/
theorem Memory.read_outside {m : Memory} (hm : m.wf) {a : Nat} (ha : Config.memSlots ≤ a) : m.read a = none := by
  have hb := hm.2
  clear hm
  induction m with
  | nil => rfl
  | cons c rest ih =>
    obtain ⟨k, w⟩ := c
    have hk : k < Config.memSlots := hb (k, w) (by simp)
    have : a ≠ k := by omega
    simp [Memory.read, this, ih (fun c hc => hb c (by simp [hc]))]

end Sys2Proof.Machine
end

