-- ==== Sys2Proof/Laws/Encoding.lean ====
section
/-! SUPPORT. The small lemmas of words, registers and events: the fields of a word written from its fields, and that
the address of every register and the id of every event leads back to it. -/

namespace Sys2Proof

/-- Each bit of a word is a bit of one field (R80). -/
theorem getLsbD_mkWord (o : BitVec 4) (a : RegAddr) (d : Data) (i : Nat) :
    (mkWord o a d).getLsbD i =
      if i < 16 then d.getLsbD i else if i < 28 then a.getLsbD (i - 16) else o.getLsbD (i - 28) := by
  have h : (mkWord o a d).getLsbD i =
      (HAppend.hAppend (γ := BitVec (16 + 16)) (HAppend.hAppend (γ := BitVec (4 + 12)) o a) d).getLsbD i := rfl
  rw [h, BitVec.getLsbD_append]
  split
  · rfl
  · rw [BitVec.getLsbD_append]
    by_cases h2 : i < 28
    · rw [if_pos (by omega), if_pos h2]
    · rw [if_neg (by omega), if_neg h2]
      congr 1

@[simp] theorem op_mkWord (o : BitVec 4) (a : RegAddr) (d : Data) : (mkWord o a d).op = o := by
  apply BitVec.eq_of_getLsbD_eq
  intro i hi
  rw [Word.op, BitVec.getLsbD_extractLsb', getLsbD_mkWord, if_neg (by omega), if_neg (by omega)]
  simp [hi]

@[simp] theorem addr_mkWord (o : BitVec 4) (a : RegAddr) (d : Data) : (mkWord o a d).addr = a := by
  apply BitVec.eq_of_getLsbD_eq
  intro i hi
  rw [Word.addr, BitVec.getLsbD_extractLsb', getLsbD_mkWord, if_neg (by omega), if_pos (by omega)]
  simp [hi]

@[simp] theorem data_mkWord (o : BitVec 4) (a : RegAddr) (d : Data) : (mkWord o a d).data = d := by
  apply BitVec.eq_of_getLsbD_eq
  intro i hi
  rw [Word.data, BitVec.getLsbD_extractLsb', getLsbD_mkWord, if_pos (by omega)]
  simp [hi]

/-- A word is its three fields. -/
theorem mkWord_fields (w : Word) : mkWord w.op w.addr w.data = w := by
  apply BitVec.eq_of_getLsbD_eq
  intro i hi
  rw [getLsbD_mkWord, Word.op, Word.addr, Word.data]
  simp only [BitVec.getLsbD_extractLsb']
  split
  · next h => simp [h]
  · split
    · have h1 : i - 16 < 12 := by omega
      have h2 : 16 + (i - 16) = i := by omega
      simp [h1, h2]
    · have h1 : i - 28 < 4 := by omega
      have h2 : 28 + (i - 28) = i := by omega
      simp [h1, h2]

@[simp] theorem regAt_addr (r : Reg) : regAt r.addr = some r := by cases r <;> rfl

@[simp] theorem eventAt_id (e : Event) : eventAt e.id = some e := by cases e <;> rfl

theorem addr_of_regAt {a : RegAddr} {r : Reg} (h : regAt a = some r) : r.addr = a := by
  simpa using List.find?_some h

theorem id_of_eventAt {a : RegAddr} {e : Event} (h : eventAt a = some e) : e.id = a := by
  simpa using List.find?_some h

/-- The word of an RD (R83). -/
theorem encode_rdOf (r : Reg) : encode (rdOf r) = mkWord 0x1 r.addr 0 := by cases r <;> rfl

/-- The word of a WR (R83). -/
theorem encode_wrOf (r : Reg) (d : Data) : encode (wrOf r d) = mkWord 0x2 r.addr d := by cases r <;> rfl

/-- The fields of the word of an event: the id, and DATA if the event takes one (R87). -/
theorem encode_eventOf (e : Event) (d : Data) :
    encode (eventOf e d) = mkWord 0xE e.id (if e = .tick ∨ e = .conv then d else 0) := by cases e <;> rfl

/-- Decoding of a word written from its fields, OP 0x1. -/
theorem decode_rd (c : Channel) (r : Reg) (d : Data) : decode c (mkWord 0x1 r.addr d) = .ok (rdOf r) := by
  simp [decode]

/-- Decoding of a word written from its fields, OP 0x2. -/
theorem decode_wr (c : Channel) (r : Reg) (d : Data) : decode c (mkWord 0x2 r.addr d) = .ok (wrOf r d) := by
  simp [decode]

/-- Decoding of a word written from its fields, OP 0xE of a trace. -/
theorem decode_event (e : Event) (d : Data) : decode .trace (mkWord 0xE e.id d) = .ok (eventOf e d) := by
  simp [decode]

/-- Every instruction is an RD, a WR, an RDS or an event (R80). -/
theorem instr_cases (i : Instr) :
    (∃ r, i = rdOf r) ∨ (∃ r d, i = wrOf r d) ∨ (∃ a, i = .rds a) ∨ ∃ e d, i = eventOf e d := by
  cases i with
  | rdTgCr => exact .inl ⟨.tgCr, rfl⟩
  | wrTgCr d => exact .inr (.inl ⟨.tgCr, d, rfl⟩)
  | rdTgPsc => exact .inl ⟨.tgPsc, rfl⟩
  | wrTgPsc d => exact .inr (.inl ⟨.tgPsc, d, rfl⟩)
  | rdTgArr => exact .inl ⟨.tgArr, rfl⟩
  | wrTgArr d => exact .inr (.inl ⟨.tgArr, d, rfl⟩)
  | rdSeCr => exact .inl ⟨.seCr, rfl⟩
  | wrSeCr d => exact .inr (.inl ⟨.seCr, d, rfl⟩)
  | rdSeDr => exact .inl ⟨.seDr, rfl⟩
  | wrSeDr d => exact .inr (.inl ⟨.seDr, d, rfl⟩)
  | rdTeEn => exact .inl ⟨.teEn, rfl⟩
  | wrTeEn d => exact .inr (.inl ⟨.teEn, d, rfl⟩)
  | rdTeCr => exact .inl ⟨.teCr, rfl⟩
  | wrTeCr d => exact .inr (.inl ⟨.teCr, d, rfl⟩)
  | rdTeSrc => exact .inl ⟨.teSrc, rfl⟩
  | wrTeSrc d => exact .inr (.inl ⟨.teSrc, d, rfl⟩)
  | rdTeDst => exact .inl ⟨.teDst, rfl⟩
  | wrTeDst d => exact .inr (.inl ⟨.teDst, d, rfl⟩)
  | rdTeN => exact .inl ⟨.teN, rfl⟩
  | wrTeN d => exact .inr (.inl ⟨.teN, d, rfl⟩)
  | rdCfSr => exact .inl ⟨.cfSr, rfl⟩
  | wrCfSr d => exact .inr (.inl ⟨.cfSr, d, rfl⟩)
  | rds a => exact .inr (.inr (.inl ⟨a, rfl⟩))
  | tick d => exact .inr (.inr (.inr ⟨.tick, d, rfl⟩))
  | conv d => exact .inr (.inr (.inr ⟨.conv, d, rfl⟩))
  | xfer => exact .inr (.inr (.inr ⟨.xfer, 0, rfl⟩))
  | ackHt => exact .inr (.inr (.inr ⟨.ackHt, 0, rfl⟩))
  | ackTc => exact .inr (.inr (.inr ⟨.ackTc, 0, rfl⟩))
  | ackTe => exact .inr (.inr (.inr ⟨.ackTe, 0, rfl⟩))
  | ackFe => exact .inr (.inr (.inr ⟨.ackFe, 0, rfl⟩))
  | ackDme => exact .inr (.inr (.inr ⟨.ackDme, 0, rfl⟩))
  | errTe => exact .inr (.inr (.inr ⟨.errTe, 0, rfl⟩))
  | errFe => exact .inr (.inr (.inr ⟨.errFe, 0, rfl⟩))
  | errDme => exact .inr (.inr (.inr ⟨.errDme, 0, rfl⟩))
  | reset => exact .inr (.inr (.inr ⟨.reset, 0, rfl⟩))

@[simp] theorem format_rdOf (r : Reg) : (rdOf r).format = .R := by cases r <;> rfl

@[simp] theorem format_wrOf (r : Reg) (d : Data) : (wrOf r d).format = .W := by cases r <;> rfl

@[simp] theorem format_eventOf (e : Event) (d : Data) : (eventOf e d).format = .E := by cases e <;> rfl

/-- What a decoded word is (R93): the inversion of the decoder. -/
theorem decode_cases {c : Channel} {w : Word} {i : Instr} (h : decode c w = .ok i) :
    (w.op = 0x1 ∧ ∃ r, regAt w.addr = some r ∧ i = rdOf r) ∨
    (w.op = 0x2 ∧ ∃ r, regAt w.addr = some r ∧ i = wrOf r w.data) ∨
    (w.op = 0x3 ∧ w.addr = 0 ∧ i = .rds w.data) ∨
    (w.op = 0xE ∧ c = .trace ∧ ∃ e, eventAt w.addr = some e ∧ i = eventOf e w.data) := by
  unfold decode at h
  split at h
  · split at h <;> simp_all
  · split at h
    · split at h <;> simp_all
    · split at h
      · split at h <;> simp_all
      · split at h
        · split at h <;> simp_all
        · simp at h

/-- OP as a number (R80). -/
theorem op_toNat (w : Word) : w.op.toNat = w.toNat / 2 ^ 28 := by
  have := w.isLt
  simp [Word.op, BitVec.extractLsb', Nat.shiftRight_eq_div_pow]
  omega

/-- ADDR as a number (R80). -/
theorem addr_toNat (w : Word) : w.addr.toNat = w.toNat / 2 ^ 16 % 2 ^ 12 := by
  simp [Word.addr, BitVec.extractLsb', Nat.shiftRight_eq_div_pow]

/-- A field equals a constant exactly when the numbers agree. -/
theorem op_eq_iff (w : Word) (k : BitVec 4) : w.op = k ↔ w.toNat / 2 ^ 28 = k.toNat := by
  rw [← op_toNat]
  exact ⟨fun h => h ▸ rfl, BitVec.eq_of_toNat_eq⟩

/-- The word as a number (R80). -/
theorem toNat_mkWord (o : BitVec 4) (a : RegAddr) (d : Data) :
    (mkWord o a d).toNat = o.toNat * 2 ^ 28 + a.toNat * 2 ^ 16 + d.toNat := by
  have h : (mkWord o a d).toNat =
      (HAppend.hAppend (γ := BitVec (16 + 16)) (HAppend.hAppend (γ := BitVec (4 + 12)) o a) d).toNat := rfl
  have hd := d.isLt
  have ha := a.isLt
  rw [h, BitVec.toNat_append, BitVec.toNat_append, ← Nat.shiftLeft_add_eq_or_of_lt hd,
    ← Nat.shiftLeft_add_eq_or_of_lt ha, Nat.shiftLeft_eq, Nat.shiftLeft_eq]
  omega

/-- The row mask 0xFFFF0000 drops DATA and keeps OP and ADDR. -/
theorem mkWord_mask (o : BitVec 4) (a : RegAddr) (d : Data) : mkWord o a d &&& 0xFFFF0000#32 = mkWord o a 0 := by
  have hm : ∀ i : Fin 32, (0xFFFF0000#32).getLsbD i.val = decide (16 ≤ i.val) := by decide
  apply BitVec.eq_of_getLsbD_eq
  intro i hi
  rw [BitVec.getLsbD_and, hm ⟨i, hi⟩, getLsbD_mkWord, getLsbD_mkWord]
  by_cases h : i < 16
  · simp [h, Nat.not_le.mpr h]
  · simp [h, Nat.le_of_not_lt h]

end Sys2Proof
end

