-- ==== Sys2Proof/Laws/Response.lean ====
section
/-! SUPPORT. The response words as numbers (R81, R90). -/

namespace Sys2Proof.Machine

/-- OK with data: the data, zero-extended. -/
theorem responseWord_ok (d : Data) : responseWord .ok d = d.setWidth 32 := by
  apply BitVec.eq_of_toNat_eq
  have := d.isLt
  rw [responseWord, toNat_mkWord, BitVec.toNat_setWidth]
  simp [Status.code]
  omega

@[simp] theorem responseWord_ok_zero : responseWord .ok 0#16 = 0x00000000#32 := by decide
@[simp] theorem responseWord_errOp : responseWord .errOp 0#16 = 0x10000000#32 := by decide
@[simp] theorem responseWord_errAddr : responseWord .errAddr 0#16 = 0x20000000#32 := by decide
@[simp] theorem responseWord_errAccess : responseWord .errAccess 0#16 = 0x30000000#32 := by decide
@[simp] theorem responseWord_errBusy : responseWord .errBusy 0#16 = 0x40000000#32 := by decide
@[simp] theorem responseWord_errCfg : responseWord .errCfg 0#16 = 0x50000000#32 := by decide
@[simp] theorem responseWord_noten : responseWord .noten 0#16 = 0x70000000#32 := by decide

/-- The host finds the data it asked for in the response (R81). -/
@[simp] theorem data_responseWord (st : Status) (d : Data) : (responseWord st d).data = d := data_mkWord _ _ _

/-- The STATUS field of a response (R81). -/
theorem status_responseWord (st : Status) (d : Data) : (responseWord st d).toNat / 2 ^ 28 = st.code.toNat := by
  rw [← op_toNat, responseWord, op_mkWord]

/-- The DATA field of a response and the zero field, as numbers (R81). -/
theorem low_responseWord (st : Status) (d : Data) : (responseWord st d).toNat % 2 ^ 28 = d.toNat := by
  have := d.isLt
  rw [responseWord, toNat_mkWord]
  simp
  omega

/-- A refused command changes the response word and nothing else (R233). -/
theorem refuse_eq (s : State) (st : Status) : s.refuse st = s.withRsp (some (responseWord st 0)) := rfl

/-- A step that is not enabled changes the response word and nothing else (R86). -/
theorem notEnabled_eq (s : State) : s.notEnabled = s.withRsp (some (responseWord .noten 0)) := rfl

/-- The end of an accepted step writes the response word and nothing else. -/
theorem done_eq (s : State) : s.done = s.withRsp (some (responseWord .ok 0)) := rfl

/-- Reading a register writes the response word and nothing else (R65). -/
theorem answerReg_eq (s : State) (r : Reg) : s.answerReg r = s.withRsp (some ((readReg s r).setWidth 32)) := by
  rw [← responseWord_ok]
  rfl

end Sys2Proof.Machine
end

