-- ==== Sys2Proof/Laws/Tick.lean ====
section
/-! SUPPORT. The laws of the tick: what one tick can do, said once; its frame; and that the early end of the count in
`tickMany` changes nothing. -/

namespace Sys2Proof.Machine

/-- DATA[k] as arithmetic on the number (R84). -/
theorem dataBit_eq (d : Data) (k : Nat) : dataBit d k = (d.toNat / 2 ^ k % 2 == 1) := by
  simp [dataBit, BitVec.getLsbD, Nat.testBit, Nat.shiftRight_eq_div_pow, Nat.and_comm 1]

/-- DATA[0] is the parity (R84). -/
theorem dataBit_zero (d : Data) : dataBit d 0 = (d.toNat % 2 == 1) := by
  rw [dataBit_eq]
  simp

/-- Everything a trigger reception can do (R135). -/
theorem receiveTrigger_cases (s : State) :
    (s.se.arm = false ∧ s.receiveTrigger = s) ∨
    (s.se.arm = true ∧ s.se.busy = false ∧ s.receiveTrigger = { s with se := { s.se with busy := true } }) ∨
    (s.se.arm = true ∧ s.se.busy = true ∧
      s.receiveTrigger = { s with ghost := { s.ghost with trigLost := true } }) := by
  unfold State.receiveTrigger
  cases ha : s.se.arm <;> cases hb : s.se.busy <;> simp

/-- Everything one tick can do (R117): nothing, a prescaler count, a counter step, or the wrap with its trigger. -/
theorem tickOnce_cases (s : State) :
    (s.tg.run = false ∧ s.tickOnce = s) ∨
    (s.tg.run = true ∧ s.tg.pcnt < s.tg.psc ∧
      s.tickOnce = { s with tg := { s.tg with pcnt := s.tg.pcnt + 1 } }) ∨
    (s.tg.run = true ∧ ¬ s.tg.pcnt < s.tg.psc ∧ s.tg.cnt < s.tg.arr ∧
      s.tickOnce = { s with tg := { s.tg with pcnt := 0, cnt := s.tg.cnt + 1 } }) ∨
    (s.tg.run = true ∧ ¬ s.tg.pcnt < s.tg.psc ∧ ¬ s.tg.cnt < s.tg.arr ∧
      s.tickOnce = { s with tg := { s.tg with pcnt := 0, cnt := 0 } }.emitTrigger) := by
  unfold State.tickOnce
  cases hr : s.tg.run
  · simp
  · by_cases h1 : s.tg.pcnt < s.tg.psc
    · simp [h1]
    · by_cases h2 : s.tg.cnt < s.tg.arr <;> simp [h1, h2]

/-- What a tick leaves alone, and that triggers only add up (R117, R135, R242). -/
structure TickFrame (s t : State) : Prop where
  psc    : t.tg.psc = s.tg.psc
  arr    : t.tg.arr = s.tg.arr
  run    : t.tg.run = s.tg.run
  arm    : t.se.arm = s.se.arm
  edge   : t.se.edge = s.se.edge
  ch     : t.se.ch = s.se.ch
  smp    : t.se.smp = s.se.smp
  dr     : t.se.dr = s.se.dr
  busy   : s.se.busy = true → t.se.busy = true
  starts : s.se.busy = false → t.se.busy = true → s.se.arm = true ∧ s.tg.run = true
  drq    : t.drq = s.drq
  te     : t.te = s.te
  cf     : t.cf = s.cf
  buf    : t.buf = s.buf
  lost   : s.ghost.trigLost = true → t.ghost.trigLost = true
  loses  : s.ghost.trigLost = false → t.ghost.trigLost = true → s.se.arm = true
  sample : t.ghost.sampleLost = s.ghost.sampleLost
  half   : t.ghost.halfLost = s.ghost.halfLost
  full   : t.ghost.fullLost = s.ghost.fullLost
  inbox  : t.inbox = s.inbox
  rsp    : t.rsp = s.rsp
  pulses : s.trigOut ≤ t.trigOut
  pulse  : t.trigOut ≠ s.trigOut → s.tg.run = true

theorem TickFrame.refl (s : State) : TickFrame s s := by
  constructor <;> simp_all

theorem TickFrame.trans {s t u : State} (h₁ : TickFrame s t) (h₂ : TickFrame t u) : TickFrame s u where
  psc := h₂.psc.trans h₁.psc
  arr := h₂.arr.trans h₁.arr
  run := h₂.run.trans h₁.run
  arm := h₂.arm.trans h₁.arm
  edge := h₂.edge.trans h₁.edge
  ch := h₂.ch.trans h₁.ch
  smp := h₂.smp.trans h₁.smp
  dr := h₂.dr.trans h₁.dr
  busy := fun h => h₂.busy (h₁.busy h)
  starts := fun h h' => by
    cases ht : t.se.busy
    · have := h₂.starts ht h'
      rwa [h₁.arm, h₁.run] at this
    · exact h₁.starts h ht
  drq := h₂.drq.trans h₁.drq
  te := h₂.te.trans h₁.te
  cf := h₂.cf.trans h₁.cf
  buf := h₂.buf.trans h₁.buf
  lost := fun h => h₂.lost (h₁.lost h)
  loses := fun h h' => by
    cases ht : t.ghost.trigLost
    · rw [← h₁.arm]
      exact h₂.loses ht h'
    · exact h₁.loses h ht
  sample := h₂.sample.trans h₁.sample
  half := h₂.half.trans h₁.half
  full := h₂.full.trans h₁.full
  inbox := h₂.inbox.trans h₁.inbox
  rsp := h₂.rsp.trans h₁.rsp
  pulses := Nat.le_trans h₁.pulses h₂.pulses
  pulse := fun h => by
    by_cases ht : t.trigOut = s.trigOut
    · rw [← h₁.run]
      exact h₂.pulse (by rwa [ht])
    · exact h₁.pulse ht

theorem emitTrigger_frame (s : State) (h : s.tg.run = true) : TickFrame s s.emitTrigger := by
  rcases receiveTrigger_cases { s with trigOut := s.trigOut + 1 } with ⟨ha, e⟩ | ⟨ha, hb, e⟩ | ⟨ha, hb, e⟩ <;>
    rw [State.emitTrigger, e] <;> constructor <;> simp_all

/-- The frame of one tick. -/
theorem tickOnce_frame (s : State) : TickFrame s s.tickOnce := by
  rcases tickOnce_cases s with ⟨_, e⟩ | ⟨hr, _, e⟩ | ⟨hr, _, _, e⟩ | ⟨hr, _, _, e⟩
  · rw [e]
    exact TickFrame.refl s
  · rw [e]
    constructor <;> simp_all
  · rw [e]
    constructor <;> simp_all
  · rw [e]
    refine TickFrame.trans (t := { s with tg := { s.tg with pcnt := 0, cnt := 0 } }) ?_ (emitTrigger_frame _ hr)
    constructor <;> simp_all

/-- A stopped counter ignores ticks (R117). -/
theorem tickOnce_stopped {s : State} (h : s.tg.run = false) : s.tickOnce = s := by
  simp [State.tickOnce, h]

/-- The early end of `tickMany` changes nothing: it is the tick applied `n` times (R117). -/
theorem tickMany_eq_iterate (s : State) (n : Nat) : s.tickMany n = State.tickOnce^[n] s := by
  induction n generalizing s with
  | zero => rfl
  | succ n ih =>
    rw [Function.iterate_succ_apply, State.tickMany]
    cases h : s.tg.run
    · rw [tickOnce_stopped h, Function.iterate_fixed (tickOnce_stopped h)]
      rfl
    · exact ih _

/-- The frame of any number of ticks. -/
theorem tickMany_frame (s : State) (n : Nat) : TickFrame s (s.tickMany n) := by
  induction n generalizing s with
  | zero => exact TickFrame.refl s
  | succ n ih =>
    rw [State.tickMany]
    split
    · exact (tickOnce_frame s).trans (ih _)
    · exact TickFrame.refl s

/-- `m + n` ticks are `m` ticks and then `n` (R117). -/
theorem tickMany_add (s : State) (m n : Nat) : s.tickMany (m + n) = (s.tickMany m).tickMany n := by
  rw [tickMany_eq_iterate, tickMany_eq_iterate, tickMany_eq_iterate, Nat.add_comm, Function.iterate_add_apply]

/-- One tick keeps the counters within their configuration (R23). -/
theorem tickOnce_counters {s : State} (hp : s.tg.pcnt ≤ s.tg.psc) (hc : s.tg.cnt ≤ s.tg.arr) :
    s.tickOnce.tg.pcnt ≤ s.tickOnce.tg.psc ∧ s.tickOnce.tg.cnt ≤ s.tickOnce.tg.arr := by
  rcases tickOnce_cases s with ⟨_, e⟩ | ⟨_, h, e⟩ | ⟨_, _, h, e⟩ | ⟨_, _, _, e⟩
  · rw [e]
    exact ⟨hp, hc⟩
  · rw [e]
    refine ⟨?_, hc⟩
    have := s.tg.psc.isLt
    simp only [BitVec.lt_def, BitVec.le_def] at *
    rw [BitVec.toNat_add]
    simp
    omega
  · rw [e]
    refine ⟨?_, ?_⟩
    · simp [BitVec.le_def]
    · have := s.tg.arr.isLt
      simp only [BitVec.lt_def, BitVec.le_def] at *
      rw [BitVec.toNat_add]
      simp
      omega
  · have hf : s.tickOnce.tg = { s.tg with pcnt := 0, cnt := 0 } := by
      rw [e]
      rcases receiveTrigger_cases { s with tg := { s.tg with pcnt := 0, cnt := 0 }, trigOut := s.trigOut + 1 } with
        ⟨_, e'⟩ | ⟨_, _, e'⟩ | ⟨_, _, e'⟩ <;> rw [State.emitTrigger, e']
    rw [hf]
    simp [BitVec.le_def]

/-- Any number of ticks keeps the counters within their configuration (R23). -/
theorem tickMany_counters {s : State} (n : Nat) (hp : s.tg.pcnt ≤ s.tg.psc) (hc : s.tg.cnt ≤ s.tg.arr) :
    (s.tickMany n).tg.pcnt ≤ (s.tickMany n).tg.psc ∧ (s.tickMany n).tg.cnt ≤ (s.tickMany n).tg.arr := by
  induction n generalizing s with
  | zero => exact ⟨hp, hc⟩
  | succ n ih =>
    rw [State.tickMany]
    split
    · exact ih (tickOnce_counters hp hc).1 (tickOnce_counters hp hc).2
    · exact ⟨hp, hc⟩

/-- A trigger leaves the Trigger Generator as it is. -/
theorem emitTrigger_tg (s : State) : s.emitTrigger.tg = s.tg := by
  rcases receiveTrigger_cases { s with trigOut := s.trigOut + 1 } with ⟨_, e⟩ | ⟨_, _, e⟩ | ⟨_, _, e⟩ <;>
    rw [State.emitTrigger, e]

/-- A trigger is one pulse (R119). -/
theorem emitTrigger_trigOut (s : State) : s.emitTrigger.trigOut = s.trigOut + 1 := by
  rcases receiveTrigger_cases { s with trigOut := s.trigOut + 1 } with ⟨_, e⟩ | ⟨_, _, e⟩ | ⟨_, _, e⟩ <;>
    rw [State.emitTrigger, e]

/-- The phase stays below the period while the counters are within their configuration (R23, R118). -/
theorem phase_lt_period {tg : TriggerGen} (hp : tg.pcnt ≤ tg.psc) (hc : tg.cnt ≤ tg.arr) : phase tg < period tg := by
  rw [BitVec.le_def] at hp hc
  have h := Nat.mul_le_mul_right (tg.psc.toNat + 1) hc
  rw [phase, period, Nat.mul_comm (tg.psc.toNat + 1), Nat.add_mul]
  omega

/-- The phase after one tick of a running counter: one more, or the wrap with one pulse (R118). -/
theorem tickOnce_phase {s : State} (hr : s.tg.run = true) (hp : s.tg.pcnt ≤ s.tg.psc) (hc : s.tg.cnt ≤ s.tg.arr) :
    (phase s.tg + 1 < period s.tg ∧ phase s.tickOnce.tg = phase s.tg + 1 ∧ s.tickOnce.trigOut = s.trigOut) ∨
    (phase s.tg + 1 = period s.tg ∧ phase s.tickOnce.tg = 0 ∧ s.tickOnce.trigOut = s.trigOut + 1) := by
  have hk := tickOnce_counters hp hc
  have hlt := phase_lt_period hk.1 hk.2
  rcases tickOnce_cases s with ⟨h, _⟩ | ⟨_, h, e⟩ | ⟨_, h1, h, e⟩ | ⟨_, h1, h, e⟩
  · rw [hr] at h
    cases h
  · left
    rw [e] at hlt ⊢
    have hb := s.tg.psc.isLt
    rw [BitVec.lt_def] at h
    have hs : (s.tg.pcnt + 1).toNat = s.tg.pcnt.toNat + 1 := by
      rw [BitVec.toNat_add]
      simp
      omega
    simp only [phase, period, hs] at hlt ⊢
    exact ⟨by omega, by omega, trivial⟩
  · left
    rw [e] at hlt ⊢
    have hb := s.tg.arr.isLt
    rw [BitVec.lt_def] at h h1
    rw [BitVec.le_def] at hp
    have hs : (s.tg.cnt + 1).toNat = s.tg.cnt.toNat + 1 := by
      rw [BitVec.toNat_add]
      simp
      omega
    have hz : (0 : Data).toNat = 0 := rfl
    simp only [phase, period, hs, hz, Nat.add_mul (s.tg.cnt.toNat)] at hlt ⊢
    exact ⟨by omega, by omega, trivial⟩
  · right
    rw [e, emitTrigger_tg, emitTrigger_trigOut]
    rw [BitVec.lt_def] at h h1
    rw [BitVec.le_def] at hp hc
    have h2 : s.tg.pcnt.toNat = s.tg.psc.toNat := by omega
    have h3 : s.tg.cnt.toNat = s.tg.arr.toNat := by omega
    refine ⟨?_, by simp [phase], rfl⟩
    rw [phase, period, h2, h3, Nat.mul_comm (s.tg.psc.toNat + 1), Nat.add_mul]
    omega

end Sys2Proof.Machine
end

