-- ==== Sys2Proof/Laws/Transfer.lean ====
section
/-! SUPPORT. The laws of the transfer: the advance of the cursor, field by field (R162), and when XFER completes (R61). -/

namespace Sys2Proof.Machine

/-- What the advance of the cursor does, field by field (R162). -/
structure Advanced (s t : State) : Prop where
  cur   : t.te.cur = if s.te.cur.toNat + 1 = s.te.n.toNat then 0 else BitVec.ofNat 16 (s.te.cur.toNat + 1)
  en    : t.te.en = (s.te.en && (s.te.circ || decide (s.te.cur.toNat + 1 ≠ s.te.n.toNat)))
  htif  : t.te.htif = (s.te.htif || decide (s.te.cur.toNat + 1 = s.te.n.toNat / 2))
  tcif  : t.te.tcif = (s.te.tcif || decide (s.te.cur.toNat + 1 = s.te.n.toNat))
  circ  : t.te.circ = s.te.circ
  dinc  : t.te.dinc = s.te.dinc
  sfix  : t.te.sfix = s.te.sfix
  src   : t.te.src = s.te.src
  dst   : t.te.dst = s.te.dst
  n     : t.te.n = s.te.n
  teif  : t.te.teif = s.te.teif
  feif  : t.te.feif = s.te.feif
  dmeif : t.te.dmeif = s.te.dmeif
  trig  : t.ghost.trigLost = s.ghost.trigLost
  smpl  : t.ghost.sampleLost = s.ghost.sampleLost
  half  : t.ghost.halfLost = (s.ghost.halfLost || (s.te.htif && decide (s.te.cur.toNat + 1 = s.te.n.toNat / 2)))
  full  : t.ghost.fullLost = (s.ghost.fullLost || (s.te.tcif && decide (s.te.cur.toNat + 1 = s.te.n.toNat)))
  tg    : t.tg = s.tg
  se    : t.se = s.se
  drq   : t.drq = s.drq
  cf    : t.cf = s.cf
  buf   : t.buf = s.buf
  inbox : t.inbox = s.inbox
  rsp   : t.rsp = s.rsp
  pulse : t.trigOut = s.trigOut

/-- The spec lemma of the advance. -/
theorem advanceCursor_spec (s : State) : Advanced s s.advanceCursor := by
  constructor <;> simp only [State.advanceCursor, State.crossMidpoint] <;> split_ifs <;>
    first
    | simp [*]; done
    | grind [State.raiseHalf, State.raiseFull, State.wrapCursor]

/-- A valid configuration, as numbers (R161). -/
theorem cfgValid_bounds {te : TransferEngine} (h : cfgValid te = true) :
    te.n.toNat % 2 = 0 ∧ 2 ≤ te.n.toNat ∧ te.dst.toNat + te.n.toNat ≤ Config.memSlots := by
  simp only [cfgValid, Bool.and_eq_true, beq_iff_eq, decide_eq_true_eq] at h
  exact ⟨h.1.1.1.1, h.1.1.1.2, h.1.1.2⟩

/-- The slot address of an enabled engine lies inside the memory (R61). -/
theorem xferSlot_lt {s : State} (hi : Inv s) (he : s.te.en = true) : xferSlot s.te < Config.memSlots := by
  have hv := cfgValid_bounds (hi.valid he)
  have hc := hi.cur_lt he
  rw [BitVec.lt_def] at hc
  unfold xferSlot
  split <;> omega

/-- XFER completes from every state that meets the invariant (R162). -/
theorem execXfer_eq {s : State} (hi : Inv s) (he : s.te.en = true) (hd : s.drq = true) :
    execXfer s = .next s.storeSample.advanceCursor.done := by
  simp [execXfer, xferEnabled, he, hd, xferSlot_lt hi he]

/-- What a transfer does, field by field, in terms of the state before it (R162). -/
structure Transferred (s t : State) : Prop where
  cur   : t.te.cur = if s.te.cur.toNat + 1 = s.te.n.toNat then 0 else BitVec.ofNat 16 (s.te.cur.toNat + 1)
  en    : t.te.en = (s.te.en && (s.te.circ || decide (s.te.cur.toNat + 1 ≠ s.te.n.toNat)))
  htif  : t.te.htif = (s.te.htif || decide (s.te.cur.toNat + 1 = s.te.n.toNat / 2))
  tcif  : t.te.tcif = (s.te.tcif || decide (s.te.cur.toNat + 1 = s.te.n.toNat))
  circ  : t.te.circ = s.te.circ
  dinc  : t.te.dinc = s.te.dinc
  sfix  : t.te.sfix = s.te.sfix
  src   : t.te.src = s.te.src
  dst   : t.te.dst = s.te.dst
  n     : t.te.n = s.te.n
  teif  : t.te.teif = s.te.teif
  feif  : t.te.feif = s.te.feif
  dmeif : t.te.dmeif = s.te.dmeif
  trig  : t.ghost.trigLost = s.ghost.trigLost
  smpl  : t.ghost.sampleLost = s.ghost.sampleLost
  half  : t.ghost.halfLost = (s.ghost.halfLost || (s.te.htif && decide (s.te.cur.toNat + 1 = s.te.n.toNat / 2)))
  full  : t.ghost.fullLost = (s.ghost.fullLost || (s.te.tcif && decide (s.te.cur.toNat + 1 = s.te.n.toNat)))
  tg    : t.tg = s.tg
  se    : t.se = s.se
  drq   : t.drq = false
  cf    : t.cf = s.cf
  buf   : t.buf = s.buf.write (xferSlot s.te) s.se.dr
  inbox : t.inbox = s.inbox
  rsp   : t.rsp = some (responseWord .ok 0)
  pulse : t.trigOut = s.trigOut

/-- The spec lemma of the transfer. -/
theorem transfer_spec (s : State) : Transferred s s.storeSample.advanceCursor.done where
  cur := (advanceCursor_spec s.storeSample).cur
  en := (advanceCursor_spec s.storeSample).en
  htif := (advanceCursor_spec s.storeSample).htif
  tcif := (advanceCursor_spec s.storeSample).tcif
  circ := (advanceCursor_spec s.storeSample).circ
  dinc := (advanceCursor_spec s.storeSample).dinc
  sfix := (advanceCursor_spec s.storeSample).sfix
  src := (advanceCursor_spec s.storeSample).src
  dst := (advanceCursor_spec s.storeSample).dst
  n := (advanceCursor_spec s.storeSample).n
  teif := (advanceCursor_spec s.storeSample).teif
  feif := (advanceCursor_spec s.storeSample).feif
  dmeif := (advanceCursor_spec s.storeSample).dmeif
  trig := (advanceCursor_spec s.storeSample).trig
  smpl := (advanceCursor_spec s.storeSample).smpl
  half := (advanceCursor_spec s.storeSample).half
  full := (advanceCursor_spec s.storeSample).full
  tg := (advanceCursor_spec s.storeSample).tg
  se := (advanceCursor_spec s.storeSample).se
  drq := (advanceCursor_spec s.storeSample).drq
  cf := (advanceCursor_spec s.storeSample).cf
  buf := (advanceCursor_spec s.storeSample).buf
  inbox := (advanceCursor_spec s.storeSample).inbox
  rsp := rfl
  pulse := (advanceCursor_spec s.storeSample).pulse

/-- The new cursor of an enabled engine as a number: one more, or 0 at the end of the ring (R162). -/
theorem Transferred.cur_toNat {s t : State} (f : Transferred s t) (hc : s.te.cur < s.te.n) :
    t.te.cur.toNat = if s.te.cur.toNat + 1 = s.te.n.toNat then 0 else s.te.cur.toNat + 1 := by
  have hn := s.te.n.isLt
  rw [BitVec.lt_def] at hc
  rw [f.cur]
  split
  · rfl
  · rw [BitVec.toNat_ofNat]
    omega

/-- Everything XFER can do. -/
theorem execXfer_cases {s t : State} (h : execXfer s = .next t) :
    (xferEnabled s = false ∧ t = s.notEnabled) ∨
    (xferEnabled s = true ∧ xferSlot s.te < Config.memSlots ∧ t = s.storeSample.advanceCursor.done) := by
  unfold execXfer at h
  split at h
  · split at h
    · next h1 h2 => exact .inr ⟨h1, h2, (Host.Outcome.next.inj h).symm⟩
    · cases h
  · next h1 => exact .inl ⟨by simpa using h1, (Host.Outcome.next.inj h).symm⟩

end Sys2Proof.Machine
end

