-- ==== Sys2Proof/Laws/Step.lean ====
section
/-! SUPPORT. What `exec` can do, said once: `Effect i s t` lists every next state of every instruction, guards included;
`exec_effect` is the inversion, `effect_exec` the other direction. Later proofs do `cases exec_effect h` and unfold no
meaning. -/

namespace Sys2Proof.Machine

/-- Every way in which an instruction reaches a next state. -/
inductive Effect : Instr → State → State → Prop where
  | read (i : Instr) (r : Reg) (s : State) (hi : i = rdOf r) : Effect i s (s.answerReg r)
  | refused (i : Instr) (st : Status) (s : State)
      (hi : (st = .errAccess ∧ ∃ d, i = .wrSeDr d) ∨
        (st = .errBusy ∧ (∃ d, i = .wrTgPsc d ∨ i = .wrTgArr d) ∧ s.tg.run = true) ∨
        (st = .errBusy ∧ (∃ d, i = .wrTeCr d ∨ i = .wrTeSrc d ∨ i = .wrTeDst d ∨ i = .wrTeN d) ∧ s.te.en = true) ∨
        (st = .errCfg ∧ (∃ d, i = .wrTeEn d ∧ dataBit d 0 = true) ∧ s.te.en = false ∧ cfgValid s.te = false) ∨
        (st = .noten ∧ enabled i s = false)) : Effect i s (s.refuse st)
  | start (d : Data) (s : State) : Effect (.wrTgCr d) s { s with tg := { s.tg with run := dataBit d 0 } }.done
  | psc (d : Data) (s : State) (h : s.tg.run = false) :
      Effect (.wrTgPsc d) s { s with tg := { s.tg with psc := d, pcnt := 0, cnt := 0 } }.done
  | arr (d : Data) (s : State) (h : s.tg.run = false) :
      Effect (.wrTgArr d) s { s with tg := { s.tg with arr := d, pcnt := 0, cnt := 0 } }.done
  | settings (d : Data) (s : State) : Effect (.wrSeCr d) s
      { s with se := { s.se with
        arm := dataBit d 0, edge := dataBit d 1, ch := dataCh d, smp := dataSmp d } }.done
  | disable (d : Data) (s : State) (h : dataBit d 0 = false) :
      Effect (.wrTeEn d) s { s with te := { s.te with en := false } }.done
  | stays (d : Data) (s : State) (h : dataBit d 0 = true) (he : s.te.en = true) : Effect (.wrTeEn d) s s.done
  | enable (d : Data) (s : State) (h : dataBit d 0 = true) (he : s.te.en = false) (hv : cfgValid s.te = true) :
      Effect (.wrTeEn d) s s.enableEngine.done
  | mode (d : Data) (s : State) (he : s.te.en = false) : Effect (.wrTeCr d) s
      { s with te := { s.te with circ := dataBit d 0, dinc := dataBit d 1, sfix := dataBit d 2 } }.done
  | src (d : Data) (s : State) (he : s.te.en = false) :
      Effect (.wrTeSrc d) s { s with te := { s.te with src := d } }.done
  | dst (d : Data) (s : State) (he : s.te.en = false) :
      Effect (.wrTeDst d) s { s with te := { s.te with dst := d } }.done
  | capacity (d : Data) (s : State) (he : s.te.en = false) :
      Effect (.wrTeN d) s { s with te := { s.te with n := d } }.done
  | clear (d : Data) (s : State) : Effect (.wrCfSr d) s { s with cf := clearFlags s.cf d }.done
  | slot (a : Data) (v : Sample) (s : State) (h : s.buf.read a.toNat = some v) :
      Effect (.rds a) s (s.respond .ok v)
  | tick (n : Data) (s : State) : Effect (.tick n) s (s.tickMany n.toNat).done
  | conv (v : Sample) (s : State) (h : s.se.busy = true) : Effect (.conv v) s (s.completeConversion v).done
  | xfer (s : State) (h : xferEnabled s = true) (hs : xferSlot s.te < Config.memSlots) :
      Effect .xfer s s.storeSample.advanceCursor.done
  | ackHt (s : State) (h : s.te.htif = true) : Effect .ackHt s s.latchHalf.done
  | ackTc (s : State) (h : s.te.tcif = true) : Effect .ackTc s s.latchFull.done
  | ackTe (s : State) (h : s.te.teif = true) : Effect .ackTe s (s.setTeif false).done
  | ackFe (s : State) (h : s.te.feif = true) : Effect .ackFe s (s.setFeif false).done
  | ackDme (s : State) (h : s.te.dmeif = true) : Effect .ackDme s (s.setDmeif false).done
  | errTe (s : State) : Effect .errTe s (s.setTeif true).done
  | errFe (s : State) : Effect .errFe s (s.setFeif true).done
  | errDme (s : State) : Effect .errDme s (s.setDmeif true).done
  | reset (s : State) : Effect .reset s s.resetBlock.done

theorem effect_rd (r : Reg) {s t : State} (h : Host.Outcome.next (φ := Fault) (ρ := Refusal) (s.answerReg r) = .next t) :
    Effect (rdOf r) s t := by
  cases h
  exact .read _ r s rfl

theorem effect_noten {i : Instr} {s t : State} (hi : enabled i s = false)
    (h : Host.Outcome.next (φ := Fault) (ρ := Refusal) s.notEnabled = .next t) : Effect i s t := by
  cases h
  exact .refused i .noten s (.inr (.inr (.inr (.inr ⟨rfl, hi⟩))))

theorem effect_configure {i : Instr} {s t : State} {te : TransferEngine}
    (hi : ∃ d, i = .wrTeCr d ∨ i = .wrTeSrc d ∨ i = .wrTeDst d ∨ i = .wrTeN d)
    (hok : s.te.en = false → Effect i s { s with te := te }.done)
    (h : Host.Outcome.next (φ := Fault) (ρ := Refusal) (s.configure te) = .next t) : Effect i s t := by
  cases h
  unfold State.configure
  split
  · next he => exact .refused i .errBusy s (.inr (.inr (.inl ⟨rfl, hi, he⟩)))
  · next he => exact hok (by simpa using he)

/-- The inversion of `exec`. -/
theorem exec_effect {i : Instr} {s t : State} (h : exec i s = .next t) : Effect i s t := by
  cases i with
  | rdTgCr => exact effect_rd .tgCr h
  | rdTgPsc => exact effect_rd .tgPsc h
  | rdTgArr => exact effect_rd .tgArr h
  | rdSeCr => exact effect_rd .seCr h
  | rdSeDr => exact effect_rd .seDr h
  | rdTeEn => exact effect_rd .teEn h
  | rdTeCr => exact effect_rd .teCr h
  | rdTeSrc => exact effect_rd .teSrc h
  | rdTeDst => exact effect_rd .teDst h
  | rdTeN => exact effect_rd .teN h
  | rdCfSr => exact effect_rd .cfSr h
  | wrTgCr d =>
    cases h
    exact .start d s
  | wrTgPsc d =>
    simp only [exec, execWrTgPsc] at h
    split at h
    · next hr => cases h; exact .refused _ .errBusy s (.inr (.inl ⟨rfl, ⟨d, .inl rfl⟩, hr⟩))
    · next hr => cases h; exact .psc d s (by simpa using hr)
  | wrTgArr d =>
    simp only [exec, execWrTgArr] at h
    split at h
    · next hr => cases h; exact .refused _ .errBusy s (.inr (.inl ⟨rfl, ⟨d, .inr rfl⟩, hr⟩))
    · next hr => cases h; exact .arr d s (by simpa using hr)
  | wrSeCr d =>
    cases h
    exact .settings d s
  | wrSeDr d =>
    cases h
    exact .refused _ .errAccess s (.inl ⟨rfl, d, rfl⟩)
  | wrTeEn d =>
    simp only [exec, execWrTeEn] at h
    split at h
    · next hd =>
      split at h
      · next he => cases h; exact .stays d s hd he
      · next he =>
        split at h
        · next hv => cases h; exact .enable d s hd (by simpa using he) hv
        · next hv =>
          cases h
          exact .refused _ .errCfg s
            (.inr (.inr (.inr (.inl ⟨rfl, ⟨d, rfl, hd⟩, by simpa using he, by simpa using hv⟩))))
    · next hd => cases h; exact .disable d s (by simpa using hd)
  | wrTeCr d => exact effect_configure ⟨d, .inl rfl⟩ (.mode d s) h
  | wrTeSrc d => exact effect_configure ⟨d, .inr (.inl rfl)⟩ (.src d s) h
  | wrTeDst d => exact effect_configure ⟨d, .inr (.inr (.inl rfl))⟩ (.dst d s) h
  | wrTeN d => exact effect_configure ⟨d, .inr (.inr (.inr rfl))⟩ (.capacity d s) h
  | wrCfSr d =>
    cases h
    exact .clear d s
  | rds a =>
    simp only [exec, execRds] at h
    split at h
    · next v hv => cases h; exact .slot a v s hv
    · cases h
  | tick n =>
    cases h
    exact .tick n s
  | conv v =>
    simp only [exec, execConv] at h
    split at h
    · next hb => cases h; exact .conv v s hb
    · next hb => exact effect_noten (by simpa [enabled] using hb) h
  | xfer =>
    rcases execXfer_cases h with ⟨hx, rfl⟩ | ⟨hx, hs, rfl⟩
    · exact effect_noten hx rfl
    · exact .xfer s hx hs
  | ackHt =>
    simp only [exec, execAckHt] at h
    split at h
    · next hb => cases h; exact .ackHt s hb
    · next hb => exact effect_noten (by simpa [enabled] using hb) h
  | ackTc =>
    simp only [exec, execAckTc] at h
    split at h
    · next hb => cases h; exact .ackTc s hb
    · next hb => exact effect_noten (by simpa [enabled] using hb) h
  | ackTe =>
    simp only [exec, execAckTe] at h
    split at h
    · next hb => cases h; exact .ackTe s hb
    · next hb => exact effect_noten (by simpa [enabled] using hb) h
  | ackFe =>
    simp only [exec, execAckFe] at h
    split at h
    · next hb => cases h; exact .ackFe s hb
    · next hb => exact effect_noten (by simpa [enabled] using hb) h
  | ackDme =>
    simp only [exec, execAckDme] at h
    split at h
    · next hb => cases h; exact .ackDme s hb
    · next hb => exact effect_noten (by simpa [enabled] using hb) h
  | errTe =>
    cases h
    exact .errTe s
  | errFe =>
    cases h
    exact .errFe s
  | errDme =>
    cases h
    exact .errDme s
  | reset =>
    cases h
    exact .reset s

/-- A step that is not enabled answers NOTEN and changes nothing else (R86). -/
theorem exec_of_not_enabled {i : Instr} {s : State} (h : enabled i s = false) : exec i s = .next s.notEnabled := by
  cases i <;> simp_all [enabled, exec, execConv, execXfer, execAckHt, execAckTc, execAckTe, execAckFe, execAckDme]

/-- The inbox is not touched by `exec`. -/
theorem effect_inbox {i : Instr} {s t : State} (h : Effect i s t) : t.inbox = s.inbox := by
  cases h with
  | tick n => exact (tickMany_frame s n.toNat).inbox
  | xfer => exact (advanceCursor_spec s.storeSample).inbox
  | _ => rfl

end Sys2Proof.Machine
end

