-- ==== Sys2Proof/Laws/Schedule.lean ====
section
/-! SUPPORT. The laws of runs and of the eager schedule: what settled means field by field, firing one step, a run of two
lists, and one tick as an instruction. -/

namespace Sys2Proof.Machine

/-- Settled, field by field (R275). -/
theorem settled_iff (s : State) :
    settled s = true ↔
      s.se.busy = false ∧ (s.te.en = true → s.drq = false) ∧ s.te.htif = false ∧ s.te.tcif = false ∧
        s.te.teif = false ∧ s.te.feif = false ∧ s.te.dmeif = false := by
  simp [settled, agentSteps, enabled, convEnabled, xferEnabled]
  grind

@[simp] theorem andThen_next {α β : Type} (a : α) (f : α → Host.Outcome β Fault Refusal) :
    andThen (.next a) f = f a := rfl

/-- What `andThen` reaching a next state says of its parts. -/
theorem andThen_eq_next {α β : Type} {o : Host.Outcome α Fault Refusal} {f : α → Host.Outcome β Fault Refusal} {b : β}
    (h : andThen o f = .next b) : ∃ a, o = .next a ∧ f a = .next b := by
  cases o with
  | next a => exact ⟨a, rfl, h⟩
  | fault r => cases h
  | refused r => cases h

/-- A run of a list is its first step and then the rest. -/
theorem runInstrs_cons {i : Instr} {is : List Instr} {s t : State} (h : runInstrs (i :: is) s = .next t) :
    ∃ u, exec i s = .next u ∧ runInstrs is u = .next t := andThen_eq_next h

/-- A run of two lists, one after the other. -/
theorem runInstrs_append (p q : List Instr) (s : State) :
    runInstrs (p ++ q) s = andThen (runInstrs p s) (runInstrs q) := by
  induction p generalizing s with
  | nil => rfl
  | cons i is ih =>
    rw [List.cons_append, runInstrs, runInstrs]
    cases exec i s with
    | next u => exact ih u
    | fault r => rfl
    | refused r => rfl

/-- A step that is not enabled is left out of the eager schedule (R272). -/
theorem fire_of_not_enabled {r : EagerRun} {i : Instr} (b : Bool) (h : enabled i r.st = false) :
    r.fire i b = .next r := by
  simp [EagerRun.fire, h]

/-- A step that is enabled fires and counts (R272). -/
theorem fire_of_enabled {r : EagerRun} {i : Instr} {t : State} (b : Bool) (h : enabled i r.st = true)
    (e : exec i r.st = .next t) : r.fire i b = .next ⟨r.drawn + b.toNat, r.notices + (setsFlag i).toNat, t⟩ := by
  simp [EagerRun.fire, h, e]

/-- One tick as an instruction (R117). -/
theorem exec_tick_one (s : State) : exec (.tick 1) s = .next s.tickOnce.done := by
  have h : s.tickMany 1 = s.tickOnce := by
    rw [tickMany_eq_iterate]
    rfl
  simp [exec, execTick, h]

end Sys2Proof.Machine
end

