-- ==== Sys2Proof/Laws/Text.lean ====
section
/-! SUPPORT. Laws of the decimal digits (R208), of the immediates of the assembler text (R91), and of the host's reads of
a list of slots (R202). -/

namespace Sys2Proof.Machine

/-- What the character of a digit is, and is not. -/
theorem digitChar_spec {d : Nat} (h : d < 10) :
    digitValue 10 (digitChar d) = some d ∧ digitChar d ≠ 'x' ∧ digitChar d ≠ ',' ∧ digitChar d ≠ ';' ∧
      digitChar d ≠ '-' ∧ isBlank (digitChar d) = false := by
  interval_cases d <;> decide

/-- Reading two texts of digits, one after the other. -/
theorem numberFrom_append (base acc : Nat) (p q : List Char) :
    numberFrom base acc (p ++ q) = (numberFrom base acc p).bind (fun x => numberFrom base x q) := by
  induction p generalizing acc with
  | nil => rfl
  | cons c cs ih =>
    rw [List.cons_append, numberFrom, numberFrom]
    cases digitValue base c with
    | some d => exact ih _
    | none => rfl

/-- With enough fuel: every digit is below 10, there is one, and reading the digits gives the number. -/
theorem digitsWithin_spec {fuel v : Nat} (h : v < fuel) :
    (∀ d ∈ digitsWithin fuel v, d < 10) ∧ digitsWithin fuel v ≠ [] ∧
      ∀ acc, numberFrom 10 acc ((digitsWithin fuel v).map digitChar) =
        some (acc * 10 ^ (digitsWithin fuel v).length + v) := by
  induction fuel generalizing v with
  | zero => omega
  | succ fuel ih =>
    unfold digitsWithin
    split
    · next hv =>
      refine ⟨by simp [hv], by simp, fun acc => ?_⟩
      simp [numberFrom, (digitChar_spec hv).1]
    · next hv =>
      obtain ⟨i1, _, i3⟩ := ih (v := v / 10) (by omega)
      have hm := Nat.mod_lt v (show 10 > 0 by omega)
      refine ⟨fun d hd => ?_, by simp, fun acc => ?_⟩
      · rcases List.mem_append.mp hd with hd | hd
        · exact i1 d hd
        · simp at hd
          omega
      · rw [List.map_append, numberFrom_append, i3]
        simp only [List.map_cons, List.map_nil, Option.bind_some, numberFrom, (digitChar_spec hm).1]
        simp only [List.length_append, List.length_singleton, pow_succ, ← Nat.mul_assoc]
        have := Nat.div_add_mod v 10
        generalize acc * 10 ^ (digitsWithin fuel (v / 10)).length = z
        congr 1
        omega

/-- An immediate is read back (R91). -/
theorem immediate_immText (v : Nat) : immediate (immText v) = some v := by
  obtain ⟨h1, h2, h3⟩ := digitsWithin_spec (Nat.lt_succ_self v)
  specialize h3 0
  rw [immText, decimalDigits, immediate]
  cases hd : digitsWithin (v + 1) v with
  | nil => exact absurd hd h2
  | cons d ds =>
    rw [hd] at h1 h3
    simp only [List.map_cons, Nat.zero_mul, Nat.zero_add] at h3 ⊢
    unfold number
    split
    · next heq => simp at heq
    · next heq =>
      cases ds with
      | nil => simp at heq
      | cons e es =>
        simp at heq
        exact absurd heq.2.1 (digitChar_spec (h1 e (by simp))).2.1
    · next heq =>
      simp at heq
      rw [← heq.1, ← heq.2]
      exact h3

/-- Reading a list of written slots gives their contents and changes the response word only (R200, R202). -/
theorem readSlots_spec (as : List Nat) (s : State) (vs : List Sample) (ha : ∀ a ∈ as, a < 65536)
    (hv : vs.map some = as.map s.buf.read) : ∃ r, readSlots as s = .next (vs, s.withRsp r) := by
  induction as generalizing s vs with
  | nil =>
    cases vs with
    | nil => exact ⟨s.rsp, rfl⟩
    | cons v vs => cases hv
  | cons a as ih =>
    cases vs with
    | nil => cases hv
    | cons v vs =>
      simp only [List.map_cons, List.cons.injEq] at hv
      have e : exec (.rds (BitVec.ofNat 16 a)) s = .next (s.respond .ok v) := by
        simp only [exec, execRds]
        rw [BitVec.toNat_ofNat, Nat.mod_eq_of_lt (ha a (by simp)), ← hv.1]
      obtain ⟨r, e2⟩ := ih (s.respond .ok v) vs (fun x hx => ha x (by simp [hx])) hv.2
      refine ⟨r, ?_⟩
      simp only [readSlots, e, andThen_next, State.respond_rsp, e2, data_responseWord]
      rfl

end Sys2Proof.Machine
end

