-- ==== Sys2Proof/Laws/ConsumerLoop.lean ====
section
/-! SUPPORT. What a move of the Consumer Loop can do, said once: `LoopEffect m x y` lists every next state of every move,
and `loopStep_effect` is the inversion. With it the small lemmas of the loop's phases and flags, and what a step of another
agent leaves alone. -/

namespace Sys2Proof.Machine

/-- Every way in which a move of the loop, or a step beside it, leads on. -/
inductive LoopEffect : LoopMove → LoopState → LoopState → Prop where
  | idle (m : LoopMove) (x : LoopState) (h : loopEnabled m x = false) : LoopEffect m x x
  | poll (first : Half) (x : LoopState) (hp : x.phase = .poll) : LoopEffect (.poll first) x
      { x with
        st := x.st.answerReg .cfSr
        phase := nextService (halvesToService first (readReg x.st .cfSr)) }
  | clear (h : Half) (rest : List Half) (x : LoopState) (hp : x.phase = .clear h rest) : LoopEffect .clear x
      { x with
        st := { x.st with cf := clearFlags x.st.cf h.clearData }.done
        phase := afterRead h x.n (halfSlots h x.d x.n) 0 rest }
  | read (a : Nat) (v : Sample) (h : Half) (left : List Nat) (sum : Nat) (rest : List Half) (x : LoopState)
      (hp : x.phase = .read h left sum rest) (ha : a ∈ left) (hv : x.st.buf.read (a % 65536) = some v) :
      LoopEffect (.read a) x
        { x with st := x.st.respond .ok v, phase := afterRead h x.n (left.erase a) (sum + v.toNat) rest }
  | accept (b : Byte) (bs : List Byte) (rest : List Half) (x : LoopState) (hp : x.phase = .send (b :: bs) rest) :
      LoopEffect .accept x { x with sent := x.sent ++ [b], phase := afterAccept bs rest }
  | other (i : Instr) (t : State) (x : LoopState) (hh : agentOf i ≠ .host) (he : enabled i x.st = true)
      (h : exec i x.st = .next t) : LoopEffect (.other i) x { x with st := t }

@[simp] theorem responseData_respond (s : State) (st : Status) (d : Data) : responseData (s.respond st d) = d := by
  simp [responseData]

@[simp] theorem responseData_answerReg (s : State) (r : Reg) : responseData (s.answerReg r) = readReg s r :=
  responseData_respond s .ok (readReg s r)

/-- A move that may not come next changes nothing. -/
theorem loopStep_of_not_enabled {m : LoopMove} {x : LoopState} (h : loopEnabled m x = false) :
    loopStep m x = .next x := by
  simp [loopStep, h]

/-- The poll (R201, R204). -/
theorem loopStep_poll {first : Half} {x : LoopState} (hp : x.phase = .poll) :
    loopStep (.poll first) x = .next { x with
      st := x.st.answerReg .cfSr
      phase := nextService (halvesToService first (readReg x.st .cfSr)) } := by
  simp [loopStep, loopEnabled, loopEffect, hp, LoopState.issue, exec, execRdCfSr]

/-- The clear (R202, R203). -/
theorem loopStep_clear {h : Half} {rest : List Half} {x : LoopState} (hp : x.phase = .clear h rest) :
    loopStep .clear x = .next { x with
      st := { x.st with cf := clearFlags x.st.cf h.clearData }.done
      phase := afterRead h x.n (halfSlots h x.d x.n) 0 rest } := by
  simp [loopStep, loopEnabled, loopEffect, hp, LoopState.issue, exec, execWrCfSr]

/-- The read of a slot that holds a value (R202). -/
theorem loopStep_read {a sum : Nat} {v : Sample} {h : Half} {left : List Nat} {rest : List Half} {x : LoopState}
    (hp : x.phase = .read h left sum rest) (ha : a ∈ left) (hv : x.st.buf.read (a % 65536) = some v) :
    loopStep (.read a) x = .next
      { x with st := x.st.respond .ok v, phase := afterRead h x.n (left.erase a) (sum + v.toNat) rest } := by
  simp [loopStep, loopEnabled, loopEffect, hp, ha, LoopState.issue, exec, execRds, hv]

/-- The transport takes a byte (R211). -/
theorem loopStep_accept {b : Byte} {bs : List Byte} {rest : List Half} {x : LoopState}
    (hp : x.phase = .send (b :: bs) rest) :
    loopStep .accept x = .next { x with sent := x.sent ++ [b], phase := afterAccept bs rest } := by
  simp [loopStep, loopEnabled, loopEffect, hp]

/-- A step of another agent (R68). -/
theorem loopStep_other {i : Instr} {t : State} {x : LoopState} (hh : agentOf i ≠ .host) (he : enabled i x.st = true)
    (h : exec i x.st = .next t) : loopStep (.other i) x = .next { x with st := t } := by
  simp [loopStep, loopEnabled, loopEffect, hh, he, LoopState.issue, h]

/-- The inversion of `loopStep`. -/
theorem loopStep_effect {m : LoopMove} {x y : LoopState} (e : loopStep m x = .next y) : LoopEffect m x y := by
  by_cases he : loopEnabled m x = true
  · cases m with
    | poll first =>
      have hp : x.phase = .poll := by
        simp only [loopEnabled] at he
        split at he <;> simp_all
      rw [loopStep_poll hp] at e
      cases e
      exact .poll first x hp
    | clear =>
      obtain ⟨h, rest, hp⟩ : ∃ h rest, x.phase = .clear h rest := by
        simp only [loopEnabled] at he
        split at he <;> simp_all
      rw [loopStep_clear hp] at e
      cases e
      exact .clear h rest x hp
    | read a =>
      obtain ⟨h, left, sum, rest, hp, ha⟩ : ∃ h left sum rest, x.phase = .read h left sum rest ∧ a ∈ left := by
        simp only [loopEnabled] at he
        split at he <;> simp_all
      cases hv : x.st.buf.read (a % 65536) with
      | some v =>
        rw [loopStep_read hp ha hv] at e
        cases e
        exact .read a v h left sum rest x hp ha hv
      | none => simp [loopStep, he, loopEffect, hp, LoopState.issue, exec, execRds, hv, andThen] at e
    | accept =>
      obtain ⟨b, bs, rest, hp⟩ : ∃ b bs rest, x.phase = .send (b :: bs) rest := by
        simp only [loopEnabled] at he
        split at he <;> simp_all
      rw [loopStep_accept hp] at e
      cases e
      exact .accept b bs rest x hp
    | other i =>
      have hi : agentOf i ≠ .host ∧ enabled i x.st = true := by simpa [loopEnabled] using he
      simp only [loopStep, he, if_true, loopEffect, LoopState.issue] at e
      obtain ⟨t, ht, e⟩ := andThen_eq_next e
      cases e
      exact .other i t x hi.1 hi.2 ht
  · rw [loopStep_of_not_enabled (by simpa using he)] at e
    cases e
    exact .idle m x (by simpa using he)

/-- The slots of a half as an interval (R31). -/
theorem mem_halfSlots {h : Half} {d n a : Nat} :
    a ∈ halfSlots h d n ↔ d + h.first n ≤ a ∧ a < d + h.first n + n / 2 := by
  simp only [halfSlots, List.mem_map, List.mem_range]
  constructor
  · rintro ⟨i, hi, rfl⟩
    omega
  · rintro ⟨h1, h2⟩
    exact ⟨a - (d + h.first n), by omega, by omega⟩

/-- A report line has bytes (R207), so with no slot left the loop goes to the transport. -/
theorem afterRead_nil (h : Half) (n sum : Nat) (rest : List Half) :
    afterRead h n [] sum rest = afterAccept (reportLine h (sum / (n / 2))) rest := by
  simp [afterRead, afterAccept, reportLine]

/-- A run is its first move and then the rest. -/
theorem runLoop_cons {m : LoopMove} {ms : List LoopMove} {x y : LoopState} (h : runLoop (m :: ms) x = .next y) :
    ∃ z, loopStep m x = .next z ∧ runLoop ms z = .next y := andThen_eq_next h

/-- Two runs, one after the other. -/
theorem runLoop_append {p q : List LoopMove} {x y : LoopState} (h : runLoop p x = .next y) :
    runLoop (p ++ q) x = runLoop q y := by
  induction p generalizing x with
  | nil =>
    cases h
    rfl
  | cons m ms ih =>
    obtain ⟨z, hz, h⟩ := runLoop_cons h
    rw [List.cons_append, runLoop, hz, andThen_next, ih h]

/-- The bit of CF_SR that stands for a flag (R43). -/
theorem dataBit_flagBit (h : Half) (s : State) : dataBit (readReg s .cfSr) h.flagBit = h.flag s := by
  have e : ∀ p q : Bool, dataBit ((bit q ++ bit p).setWidth 16) 0 = p ∧ dataBit ((bit q ++ bit p).setWidth 16) 1 = q := by
    decide
  cases h
  · exact (e s.cf.halfReady s.cf.fullReady).1
  · exact (e s.cf.halfReady s.cf.fullReady).2

/-- The poll finds exactly the flags that are set, each once (R201). -/
theorem mem_halvesToService {first h : Half} {s : State} :
    h ∈ halvesToService first (readReg s .cfSr) ↔ h.flag s = true := by
  rw [halvesToService, List.mem_filter, dataBit_flagBit]
  cases first <;> cases h <;> simp [Half.other]

theorem nodup_halvesToService (first : Half) (flags : Data) : (halvesToService first flags).Nodup :=
  List.Nodup.filter _ (by cases first <;> decide)

/-- A clear takes its own flag away and no other (R72, R187). -/
theorem flag_clear (g h : Half) (s : State) :
    g.flag { s with cf := clearFlags s.cf h.clearData }.done = (g.flag s && decide (g ≠ h)) := by
  cases g <;> cases h <;> simp [Half.flag, clearFlags, Half.clearData, dataBit]

/-- What a step of an agent other than the host leaves alone, RESET apart: the configuration, the flags that are set, and
the samples but one. -/
theorem agent_frame {i : Instr} {s t : State} (hh : agentOf i ≠ .host) (hr : i ≠ .reset) (h : exec i s = .next t) :
    (t.te.circ, t.te.dinc, t.te.sfix, t.te.src, t.te.dst, t.te.n) =
      (s.te.circ, s.te.dinc, s.te.sfix, s.te.src, s.te.dst, s.te.n) ∧
    (∀ g : Half, g.flag s = true → g.flag t = true) ∧
    (i = .xfer ∧ xferEnabled s = true ∧ Transferred s t ∨
      ¬(i = .xfer ∧ xferEnabled s = true) ∧ t.buf = s.buf ∧ t.te.cur = s.te.cur ∧ t.te.en = s.te.en ∧
        (t.te.htif = true ∨ t.cf.halfReady = true → s.te.htif = true ∨ s.cf.halfReady = true) ∧
        (t.te.tcif = true ∨ t.cf.fullReady = true → s.te.tcif = true ∨ s.cf.fullReady = true)) := by
  cases exec_effect h
  case tick n =>
    have f := tickMany_frame s n.toNat
    simp [f.te, f.cf, f.buf, Half.flag]
  case xfer hx hs =>
    have f := transfer_spec s
    refine ⟨by rw [f.circ, f.dinc, f.sfix, f.src, f.dst, f.n], fun g => ?_, .inl ⟨rfl, hx, f⟩⟩
    cases g <;> simp only [Half.flag, f.cf] <;> exact id
  case refused st hi =>
    refine ⟨rfl, fun _ => id, .inr ⟨?_, rfl, rfl, rfl, id, id⟩⟩
    rintro ⟨rfl, hx⟩
    simp [enabled, hx] at hi
  case read r hi =>
    cases r <;> simp [rdOf] at hi <;> simp [hi, agentOf] at hh
  case conv v hb =>
    simp [Half.flag]
  case reset => exact absurd rfl hr
  all_goals first
    | exact absurd rfl hh
    | (refine ⟨rfl, fun g => ?_, .inr ?_⟩
       · cases g <;> simp [Half.flag]
       · simp_all)

end Sys2Proof.Machine
end

