-- ==== Sys2Proof/Laws/PerInstr.lean ====
section
/-! SUPPORT. Per-instruction lemmas, one per constructor. The family `TableWord`: the word of an instruction, at every
operand, is covered by the row of the opcode table that has its mnemonic, and by no other row (R93). -/

namespace Sys2Proof.Laws.TableWord

/-- A row of the opcode table covers the word of `i` exactly if it is the row of `i` (R93). -/
def Statement (i : Instr) : Prop := ∀ r ∈ opcodeTable, (r.covers (encode i) = true ↔ r.mnemonic = i.mnemonic)

/-- Every row tests OP and ADDR and no bit of DATA. -/
theorem all_masks : ∀ r ∈ opcodeTable, r.mask = 0xFFFF0000 := by decide

/-- An operand in DATA does not change which rows cover the word. -/
theorem of_zero_data {i j : Instr} (hw : encode i &&& 0xFFFF0000 = encode j) (hm : i.mnemonic = j.mnemonic)
    (h : Statement j) : Statement i := by
  intro r hr
  rw [hm, ← h r hr, OpcodeRow.covers, OpcodeRow.covers, all_masks r hr, ← hw, BitVec.and_assoc, BitVec.and_self]

theorem rdTgCr : Statement .rdTgCr := by
  unfold Statement
  decide

theorem wrTgCr (data : Data) : Statement (.wrTgCr data) :=
  of_zero_data (j := .wrTgCr 0) (mkWord_mask _ _ _) rfl (by unfold Statement; decide)

theorem rdTgPsc : Statement .rdTgPsc := by
  unfold Statement
  decide

theorem wrTgPsc (data : Data) : Statement (.wrTgPsc data) :=
  of_zero_data (j := .wrTgPsc 0) (mkWord_mask _ _ _) rfl (by unfold Statement; decide)

theorem rdTgArr : Statement .rdTgArr := by
  unfold Statement
  decide

theorem wrTgArr (data : Data) : Statement (.wrTgArr data) :=
  of_zero_data (j := .wrTgArr 0) (mkWord_mask _ _ _) rfl (by unfold Statement; decide)

theorem rdSeCr : Statement .rdSeCr := by
  unfold Statement
  decide

theorem wrSeCr (data : Data) : Statement (.wrSeCr data) :=
  of_zero_data (j := .wrSeCr 0) (mkWord_mask _ _ _) rfl (by unfold Statement; decide)

theorem rdSeDr : Statement .rdSeDr := by
  unfold Statement
  decide

theorem wrSeDr (data : Data) : Statement (.wrSeDr data) :=
  of_zero_data (j := .wrSeDr 0) (mkWord_mask _ _ _) rfl (by unfold Statement; decide)

theorem rdTeEn : Statement .rdTeEn := by
  unfold Statement
  decide

theorem wrTeEn (data : Data) : Statement (.wrTeEn data) :=
  of_zero_data (j := .wrTeEn 0) (mkWord_mask _ _ _) rfl (by unfold Statement; decide)

theorem rdTeCr : Statement .rdTeCr := by
  unfold Statement
  decide

theorem wrTeCr (data : Data) : Statement (.wrTeCr data) :=
  of_zero_data (j := .wrTeCr 0) (mkWord_mask _ _ _) rfl (by unfold Statement; decide)

theorem rdTeSrc : Statement .rdTeSrc := by
  unfold Statement
  decide

theorem wrTeSrc (data : Data) : Statement (.wrTeSrc data) :=
  of_zero_data (j := .wrTeSrc 0) (mkWord_mask _ _ _) rfl (by unfold Statement; decide)

theorem rdTeDst : Statement .rdTeDst := by
  unfold Statement
  decide

theorem wrTeDst (data : Data) : Statement (.wrTeDst data) :=
  of_zero_data (j := .wrTeDst 0) (mkWord_mask _ _ _) rfl (by unfold Statement; decide)

theorem rdTeN : Statement .rdTeN := by
  unfold Statement
  decide

theorem wrTeN (data : Data) : Statement (.wrTeN data) :=
  of_zero_data (j := .wrTeN 0) (mkWord_mask _ _ _) rfl (by unfold Statement; decide)

theorem rdCfSr : Statement .rdCfSr := by
  unfold Statement
  decide

theorem wrCfSr (data : Data) : Statement (.wrCfSr data) :=
  of_zero_data (j := .wrCfSr 0) (mkWord_mask _ _ _) rfl (by unfold Statement; decide)

theorem rds (slot : Data) : Statement (.rds slot) :=
  of_zero_data (j := .rds 0) (mkWord_mask _ _ _) rfl (by unfold Statement; decide)

theorem tick (count : Data) : Statement (.tick count) :=
  of_zero_data (j := .tick 0) (mkWord_mask _ _ _) rfl (by unfold Statement; decide)

theorem conv (value : Sample) : Statement (.conv value) :=
  of_zero_data (j := .conv 0) (mkWord_mask _ _ _) rfl (by unfold Statement; decide)

theorem xfer : Statement .xfer := by
  unfold Statement
  decide

theorem ackHt : Statement .ackHt := by
  unfold Statement
  decide

theorem ackTc : Statement .ackTc := by
  unfold Statement
  decide

theorem ackTe : Statement .ackTe := by
  unfold Statement
  decide

theorem ackFe : Statement .ackFe := by
  unfold Statement
  decide

theorem ackDme : Statement .ackDme := by
  unfold Statement
  decide

theorem errTe : Statement .errTe := by
  unfold Statement
  decide

theorem errFe : Statement .errFe := by
  unfold Statement
  decide

theorem errDme : Statement .errDme := by
  unfold Statement
  decide

theorem reset : Statement .reset := by
  unfold Statement
  decide

end Sys2Proof.Laws.TableWord
end

