-- ==== Sys2Proof/Tests/Slice0.lean ====
section
/-! SUPPORT. Tests of the model on words and numbers taken from the spec (30_encoding.md, 95_test_vectors.md), the smoke
test of WellFormed, and for every obligation that has hypotheses a witness that meets them, at boundary values. -/

namespace Sys2Proof.Tests
open Sys2Proof Sys2Proof.Machine

/-! ### WellFormed refuses ill-formed terms -/

theorem test_wf_event_on_cmd : (Instr.tick 1).wellFormed .cmd = false := by decide
theorem test_wf_reset_on_cmd : Instr.reset.wellFormed .cmd = false := by decide
theorem test_wf_command_on_cmd : (Instr.rds 0).wellFormed .cmd = true := by decide
theorem test_wf_imm_too_large :
    (AsmStmt.wr .tgPsc 65536).wellFormed = false ∧ (AsmStmt.wr .tgPsc 65535).wellFormed = true ∧
    (AsmStmt.rds 65536).wellFormed = false ∧ (AsmStmt.tick 65536).wellFormed = false ∧
    (AsmStmt.conv 65536).wellFormed = false ∧ (AsmStmt.sample 65536).wellFormed = false := by decide
theorem test_wf_pair_too_large :
    (AsmStmt.period 65536 0).wellFormed = false ∧ (AsmStmt.period 0 65536).wellFormed = false ∧
    (AsmStmt.ring 65536 2).wellFormed = false ∧ (AsmStmt.ring 0 65536).wellFormed = false := by decide
theorem test_wf_bare_tick : (AsmStmt.plain .tick).wellFormed = false ∧ (AsmStmt.plain .conv).wellFormed = false := by decide

/-! ### Decoding: OP in bits 31:28, ADDR in bits 27:16, DATA in bits 15:0, written out from R80, R32, R85, R87 -/

theorem test_decode_tg :
    decode .cmd 0b0001_000000000000_0000000000000000 = .ok .rdTgCr ∧
    decode .cmd 0b0010_000000000000_0000000000000001 = .ok (.wrTgCr 1) ∧
    decode .cmd 0b0001_000000000001_0000000000000000 = .ok .rdTgPsc ∧
    decode .cmd 0b0010_000000000001_1000000000000001 = .ok (.wrTgPsc 0x8001) ∧
    decode .cmd 0b0001_000000000010_0000000000000000 = .ok .rdTgArr ∧
    decode .cmd 0b0010_000000000010_0000000001100011 = .ok (.wrTgArr 99) := by decide

theorem test_decode_se :
    decode .cmd 0b0001_000000010000_0000000000000000 = .ok .rdSeCr ∧
    decode .cmd 0b0010_000000010000_0000001000110001 = .ok (.wrSeCr 0x0231) ∧
    decode .cmd 0b0001_000000010001_0000000000000000 = .ok .rdSeDr ∧
    decode .cmd 0b0010_000000010001_0000000000000101 = .ok (.wrSeDr 5) := by decide

theorem test_decode_te :
    decode .cmd 0b0001_000000100000_0000000000000000 = .ok .rdTeEn ∧
    decode .cmd 0b0010_000000100000_0000000000000001 = .ok (.wrTeEn 1) ∧
    decode .cmd 0b0001_000000100001_0000000000000000 = .ok .rdTeCr ∧
    decode .cmd 0b0010_000000100001_0000000000000111 = .ok (.wrTeCr 7) ∧
    decode .cmd 0b0001_000000100010_0000000000000000 = .ok .rdTeSrc ∧
    decode .cmd 0b0010_000000100010_0000000000010001 = .ok (.wrTeSrc 0x11) ∧
    decode .cmd 0b0001_000000100011_0000000000000000 = .ok .rdTeDst ∧
    decode .cmd 0b0010_000000100011_0000000100000000 = .ok (.wrTeDst 0x100) ∧
    decode .cmd 0b0001_000000100100_0000000000000000 = .ok .rdTeN ∧
    decode .cmd 0b0010_000000100100_0000000001000000 = .ok (.wrTeN 64) := by decide

theorem test_decode_cf_and_rds :
    decode .cmd 0b0001_000000110000_0000000000000000 = .ok .rdCfSr ∧
    decode .cmd 0b0010_000000110000_0000000000000011 = .ok (.wrCfSr 3) ∧
    decode .cmd 0b0011_000000000000_1111111111111111 = .ok (.rds 0xFFFF) := by decide

theorem test_decode_events :
    decode .trace 0b1110_000000000001_0010011100010000 = .ok (.tick 10000) ∧
    decode .trace 0b1110_000000000010_0000000001100100 = .ok (.conv 100) ∧
    decode .trace 0b1110_000000000011_0000000000000000 = .ok .xfer ∧
    decode .trace 0b1110_000000000100_0000000000000000 = .ok .ackHt ∧
    decode .trace 0b1110_000000000101_0000000000000000 = .ok .ackTc ∧
    decode .trace 0b1110_000000000110_0000000000000000 = .ok .ackTe ∧
    decode .trace 0b1110_000000000111_0000000000000000 = .ok .ackFe ∧
    decode .trace 0b1110_000000001000_0000000000000000 = .ok .ackDme ∧
    decode .trace 0b1110_000000001001_0000000000000000 = .ok .errTe ∧
    decode .trace 0b1110_000000001010_0000000000000000 = .ok .errFe ∧
    decode .trace 0b1110_000000001011_0000000000000000 = .ok .errDme ∧
    decode .trace 0b1110_000000001111_0000000000000000 = .ok .reset := by decide

/-- V-D1 to V-D9, and the word with two faults: the tests of R88 in order. -/
theorem test_decode_refusals :
    decode .cmd 0x00000000 = .error .reservedOp ∧ decode .cmd 0xFFFFFFFF = .error .reservedOp ∧
    decode .cmd 0x40000000 = .error .reservedOp ∧ decode .cmd 0xE0010001 = .error .reservedOp ∧
    decode .cmd 0x10030000 = .error (.unmappedRegister 0x003) ∧
    decode .cmd 0x1FFF0000 = .error (.unmappedRegister 0xFFF) ∧
    decode .cmd 0x20310001 = .error (.unmappedRegister 0x031) ∧
    decode .cmd 0x30010000 = .error (.slotAddrField 0x001) ∧
    decode .trace 0xE0100000 = .error (.unknownEvent 0x010) ∧
    decode .trace 0xE00C0000 = .error (.unknownEvent 0x00C) ∧
    decode .cmd 0x4FFF0000 = .error .reservedOp := by decide

/-- R95: the word 0xE0012710 is stored as 10 27 01 E0. -/
theorem test_trace_bytes :
    bytesOfWord 0xE0012710 = [0x10, 0x27, 0x01, 0xE0] ∧
    wordsOfBytes [0x10, 0x27, 0x01, 0xE0, 0x00, 0x00, 0x03, 0xE0] = some [0xE0012710, 0xE0030000] ∧
    wordsOfBytes [0x10, 0x27, 0x01] = none := by decide

theorem test_decode_table_word :
    decodeTableWord 32 0x20010063 = some (.wrTgPsc 99) ∧ decodeTableWord 32 0xE00F0000 = some .reset ∧
    decodeTableWord 32 0x00000000 = none := by decide

/-! ### States to test on -/

/-- The state after a step, if there is one. -/
def after (i : Instr) (s : State) : Option State :=
  match exec i s with
  | .next t => some t
  | .fault _ => none
  | .refused _ => none

/-- The response of a step. -/
def response (i : Instr) (s : State) : Option Word := (after i s).bind (fun t => t.rsp)

/-- A Transfer Engine configured as in the tables of 95_test_vectors.md section 2.4: TE_CR bits, source, ring. -/
def engine (circ dinc sfix : Bool) (src dst n : Data) : TransferEngine :=
  { State.reset.te with circ := circ, dinc := dinc, sfix := sfix, src := src, dst := dst, n := n }

/-- A ring enabled in circular mode with auto-increment, the cursor at `cur`. -/
def ring (dst n cur : Data) : State :=
  { State.reset with te := { engine true true true 0x11 dst n with en := true, cur := cur } }

/-- The pipeline right after boot with PSC = p, ARR = a and the ring at `dst`. -/
def booted (p a dst n : Data) : State :=
  { ring dst n 0 with
    tg := ⟨p, a, true, 0, 0⟩
    se := { State.reset.se with arm := true } }

/-- A conversion in progress on an armed engine. -/
def converting (s : State) : State := { s with se := { s.se with arm := true, busy := true } }

/-- A sample that waits to be copied. -/
def waiting (s : State) (v : Sample) : State := { s with se := { s.se with dr := v }, drq := true }

/-- The five conditions and the two flags pending as given. -/
def pending (s : State) (ht tc err half full : Bool) : State :=
  { s with
    te := { s.te with htif := ht, tcif := tc, teif := err, feif := err, dmeif := err }
    cf := ⟨half, full⟩ }

/-! ### One step each -/

/-- V-D11: only bit 0 is kept. -/
theorem test_wr_tg_cr : (after (.wrTgCr 0xFFFF) State.reset).map (fun t => t.tg) = some ⟨0, 0, true, 0, 0⟩ ∧
    (after (.wrTgCr 0xFFFE) (booted 1 2 0 2)).map (fun t => t.tg) = some ⟨1, 2, false, 0, 0⟩ := by decide
theorem test_rd_tg_cr : response .rdTgCr (booted 1 2 0 2) = some 0x00000001 ∧ response .rdTgCr State.reset = some 0 := by decide
/-- V-T8: a write clears the counters even when the value is unchanged; V-T10: refused while running. -/
theorem test_wr_tg_psc :
    (after (.wrTgPsc 1) { State.reset with tg := ⟨1, 2, false, 1, 1⟩ }).map (fun t => t.tg) = some ⟨1, 2, false, 0, 0⟩ ∧
    response (.wrTgPsc 5) (booted 0 0 0 2) = some 0x40000000 := by decide
theorem test_wr_tg_arr :
    (after (.wrTgArr 2) { State.reset with tg := ⟨1, 2, false, 1, 1⟩ }).map (fun t => t.tg) = some ⟨1, 2, false, 0, 0⟩ ∧
    (after (.wrTgArr 5) (booted 1 2 0 2)).map (fun t => t.tg) = some ⟨1, 2, true, 0, 0⟩ := by decide
theorem test_rd_tg_psc_arr :
    response .rdTgPsc (booted 1 2 0 2) = some 0x00000001 ∧ response .rdTgArr (booted 1 2 0 2) = some 0x00000002 := by decide

/-- V-T2, V-T2b, V-T2c. -/
theorem test_tick_period_six :
    (after (.tick 5) (booted 1 2 0 2)).map (fun t => (t.trigOut, t.tg.pcnt, t.tg.cnt)) = some (0, 1, 2) ∧
    (after (.tick 6) (booted 1 2 0 2)).map (fun t => (t.trigOut, t.tg.pcnt, t.tg.cnt)) = some (1, 0, 0) ∧
    (after (.tick 13) (booted 1 2 0 2)).map (fun t => (t.trigOut, t.tg.pcnt, t.tg.cnt)) = some (2, 1, 0) := by decide
/-- V-S2, V-S3, V-T9. -/
theorem test_tick_reception :
    (after (.tick 2) (booted 0 0 0 2)).map (fun t => (t.se.busy, t.ghost.trigLost, t.trigOut)) = some (true, true, 2) ∧
    (after (.tick 3) { State.reset with tg := ⟨0, 0, true, 0, 0⟩ }).map (fun t => (t.se.busy, t.ghost.trigLost, t.trigOut)) =
      some (false, false, 3) ∧
    (after (.tick 100) State.reset).map (fun t => t.trigOut) = some 0 := by decide

/-- V-D12, V-S1. -/
theorem test_wr_se_cr : (after (.wrSeCr 0xFFFF) State.reset).bind (response .rdSeCr) = some 0x000007F3 ∧
    (after (.wrSeCr 0x0231) State.reset).map (fun t => (t.se.arm, t.se.edge, t.se.ch, t.se.smp)) = some (true, false, 3, 2) := by
  decide
/-- V-D14. -/
theorem test_se_dr : response (.wrSeDr 5) State.reset = some 0x30000000 ∧
    response .rdSeDr (waiting State.reset 0xFFFF) = some 0x0000FFFF := by decide
/-- V-S4, V-S6: a sample that an enabled engine had not copied is lost. -/
theorem test_conv :
    (after (.conv 4) (converting State.reset)).map (fun t => (t.se.dr, t.se.busy, t.drq)) = some (4, false, true) ∧
    response (.conv 5) State.reset = some 0x70000000 ∧
    (after (.conv 2) (converting (waiting (ring 0 2 0) 1))).map (fun t => t.ghost.sampleLost) = some true ∧
    (after (.conv 2) (converting (waiting State.reset 1))).map (fun t => t.ghost.sampleLost) = some false := by decide

/-- The enable check, V-E1 to V-E15. -/
theorem test_wr_te_en :
    ([engine true true true 0x11 0 2, engine true true true 0x11 2 65534, engine true true true 0x11 65534 2,
      engine false false true 0x11 0 4, engine true false true 0x11 0 4, engine false true true 0x11 0 4].map
        (fun te => response (.wrTeEn 1) { State.reset with te := te })).all (fun r => r == some 0) = true ∧
    ([engine true true true 0x11 0 0, engine true true true 0x11 0 1, engine true true true 0x11 0 3,
      engine true true true 0x11 0 65535, engine true true true 0x11 3 65534, engine true true true 0x11 65535 2,
      engine true true true 0x10 0 4, engine true true false 0x11 0 4, State.reset.te].map
        (fun te => response (.wrTeEn 1) { State.reset with te := te })).all (fun r => r == some 0x50000000) = true := by decide
/-- V-E16, V-E18, V-S7. -/
theorem test_wr_te_en_again :
    (after (.wrTeEn 1) (ring 0 2 1)).map (fun t => t.te.cur) = some 1 ∧
    (after (.wrTeEn 0) (ring 0 2 1)).map (fun t => (t.te.en, t.te.cur)) = some (false, 1) ∧
    (after (.wrTeEn 1) (waiting { State.reset with te := engine true true true 0x11 0 2 } 5)).map
      (fun t => (t.te.en, t.te.cur, t.drq, t.se.dr)) = some (true, 0, false, 5) := by decide
theorem test_rd_te_en : response .rdTeEn (ring 0 2 0) = some 1 ∧ response .rdTeEn State.reset = some 0 := by decide
/-- V-D13. -/
theorem test_te_cr : (after (.wrTeCr 0xFFFF) State.reset).bind (response .rdTeCr) = some 0x00000007 ∧
    (after (.wrTeCr 6) State.reset).map (fun t => (t.te.circ, t.te.dinc, t.te.sfix)) = some (false, true, true) := by decide
theorem test_te_src_dst_n :
    (after (.wrTeSrc 0x11) State.reset).bind (response .rdTeSrc) = some 0x00000011 ∧
    (after (.wrTeDst 0x100) State.reset).bind (response .rdTeDst) = some 0x00000100 ∧
    (after (.wrTeN 65535) State.reset).bind (response .rdTeN) = some 0x0000FFFF := by decide
/-- V-E17. -/
theorem test_te_busy :
    [Instr.wrTeN 4, .wrTeCr 7, .wrTeSrc 0x11, .wrTeDst 0].map (fun i => response i (ring 0 2 0)) =
      [some 0x40000000, some 0x40000000, some 0x40000000, some 0x40000000] := by decide

/-- V-X1: transfers 2 and 4 of a ring of four at slot 0. -/
theorem test_xfer :
    (after .xfer (waiting (ring 0 4 1) 20)).map (fun t => (t.buf.read 1, t.te.cur, t.te.htif, t.te.tcif)) =
      some (some 20, 2, true, false) ∧
    (after .xfer (waiting (ring 0 4 3) 50)).map (fun t => (t.buf.read 3, t.te.cur, t.te.htif, t.te.tcif)) =
      some (some 50, 0, false, true) ∧
    (after .xfer (waiting (ring 0 4 3) 50)).map (fun t => (t.drq, t.te.en)) = some (false, true) := by decide
/-- P4, steps 13 and 17: a non-circular engine with a fixed destination stops itself. -/
theorem test_xfer_stops :
    (after .xfer (waiting { State.reset with
      te := { engine false false true 0x11 9 2 with en := true, cur := 1 }, buf := [(9, 0x0AAA)] } 0x0BBB)).map
        (fun t => (t.buf, t.te.cur, t.te.tcif, t.te.en)) = some ([(9, 0x0BBB)], 0, true, false) ∧
    response .xfer (waiting State.reset 1) = some 0x70000000 := by decide

/-- V-N4, V-N1; P1 step 13. -/
theorem test_ack_ht :
    (after .ackHt (pending State.reset true false false true false)).map (fun t => (t.te.htif, t.cf.halfReady, t.ghost.halfLost)) =
      some (false, true, true) ∧
    (after .ackHt (pending State.reset true false false false false)).map (fun t => (t.te.htif, t.cf.halfReady, t.ghost.halfLost)) =
      some (false, true, false) ∧
    response .ackHt State.reset = some 0x70000000 := by decide
theorem test_ack_tc :
    (after .ackTc (pending State.reset false true false true true)).map (fun t => (t.te.tcif, t.cf.fullReady, t.ghost.fullLost)) =
      some (false, true, true) ∧
    response .ackTc (pending State.reset true false true true true) = some 0x70000000 := by decide
/-- V-R1, V-R2: each error event and its acknowledge touch their own bit. -/
theorem test_errors :
    (after .errTe State.reset).map (fun t => (t.te.teif, t.te.feif, t.te.dmeif)) = some (true, false, false) ∧
    (after .errFe State.reset).map (fun t => (t.te.teif, t.te.feif, t.te.dmeif)) = some (false, true, false) ∧
    (after .errDme State.reset).map (fun t => (t.te.teif, t.te.feif, t.te.dmeif)) = some (false, false, true) := by decide
theorem test_error_acks :
    (after .ackTe (pending State.reset false false true false false)).map (fun t => (t.te.teif, t.te.feif, t.te.dmeif)) =
      some (false, true, true) ∧
    (after .ackFe (pending State.reset false false true false false)).map (fun t => (t.te.teif, t.te.feif, t.te.dmeif)) =
      some (true, false, true) ∧
    (after .ackDme (pending State.reset false false true false false)).map (fun t => (t.te.teif, t.te.feif, t.te.dmeif)) =
      some (true, true, false) ∧
    [Instr.ackTe, .ackFe, .ackDme].map (fun i => response i State.reset) = [some 0x70000000, some 0x70000000, some 0x70000000] := by
  decide
/-- V-N3, V-N3b. -/
theorem test_cf_sr :
    response .rdCfSr (pending State.reset false false false true false) = some 1 ∧
    (after (.wrCfSr 1) (pending State.reset false false false true true)).bind (response .rdCfSr) = some 2 ∧
    (after (.wrCfSr 2) (pending State.reset false false false true true)).bind (response .rdCfSr) = some 1 ∧
    (after (.wrCfSr 0xFFFC) (pending State.reset false false false true true)).bind (response .rdCfSr) = some 3 := by decide

/-- P2 step 22; R200 (d): a slot that nothing has written. -/
theorem test_rds :
    response (.rds 0x0101) { State.reset with buf := [(0x0100, 10), (0x0101, 20)] } = some 0x00000014 ∧
    after (.rds 0xFFFF) State.reset = none := by decide
/-- R260: every element back at its reset value; OK. -/
theorem test_reset : (after .reset (pending (converting (booted 1 2 0x100 4)) true true true true true)) =
    some { State.reset with rsp := some 0 } := by decide

/-- A step runs the word that is placed, as the first after reset. -/
theorem test_step_runs_placed_word :
    step (State.reset.withFetchWord 32 0x20010063) = .next { State.reset with
      tg := { State.reset.tg with psc := 99 }, rsp := some 0 } ∧
    step (State.reset.withFetchWord 32 0xE0012710) = .next { State.reset with rsp := some 0 } ∧
    step (State.reset.withFetchWord 32 0x4FFF0000) = .next { State.reset with rsp := some 0x10000000 } := by
  refine ⟨?_, ?_, ?_⟩ <;> rfl

/-! ### The consumer and the assembler -/

/-- P5, the end-to-end scenario's lines: 41 56 47 30 20 3D 20 31 30 30 0D 0A and its fellow. -/
theorem test_report_lines :
    reportLine .half0 100 = [0x41, 0x56, 0x47, 0x30, 0x20, 0x3D, 0x20, 0x31, 0x30, 0x30, 0x0D, 0x0A] ∧
    reportLine .half1 200 = [0x41, 0x56, 0x47, 0x31, 0x20, 0x3D, 0x20, 0x32, 0x30, 0x30, 0x0D, 0x0A] ∧
    decimalDigits 0 = [0] ∧ decimalDigits 65535 = [6, 5, 5, 3, 5] := by decide
/-- P2: 10 and 20 give 15, 30 and 50 give 40; P6: 10 and 99 give 54. -/
theorem test_mean : mean 4 [10, 20] = 15 ∧ mean 4 [30, 50] = 40 ∧ mean 4 [10, 99] = 54 := by decide
/-- R204: the four values of CF_SR, in both orders. -/
theorem test_halves_to_service :
    halvesToService .half0 0 = [] ∧ halvesToService .half1 1 = [.half0] ∧ halvesToService .half0 2 = [.half1] ∧
    halvesToService .half0 3 = [.half0, .half1] ∧ halvesToService .half1 3 = [.half1, .half0] := by decide

/-- The last read of P6, with the agents' steps 30 and 31 between the two reads: 10 and then 99, reported as "AVG0 = 54",
and the flag set during the service stands (R239) with no marker (R268). -/
theorem test_loop_deadline_missed :
    ∃ y, runLoop [.other .xfer, .other .ackHt, .read 1]
        ⟨0, 4, .read .half0 [1] 10 [], [], { waiting (ring 0 4 1) 99 with buf := [(0, 10), (1, 20)] }⟩ = .next y ∧
      y.phase = .send [0x41, 0x56, 0x47, 0x30, 0x20, 0x3D, 0x20, 0x35, 0x34, 0x0D, 0x0A] [] ∧
      y.st.cf = ⟨true, false⟩ ∧ y.st.ghost.halfLost = false := ⟨_, rfl, by decide, rfl, rfl⟩

/-- R211: while the transport takes no byte the loop has no other move, and the agents go on. -/
theorem test_loop_stalled :
    let x : LoopState := ⟨0, 2, .send [0x41] [], [], waiting (ring 0 2 0) 7⟩
    loopEnabled (.poll .half0) x = false ∧ loopEnabled .clear x = false ∧ loopEnabled (.read 0) x = false ∧
    loopEnabled (.other .xfer) x = true ∧ loopEnabled (.other (.wrTeEn 0)) x = false := by decide
theorem test_assembler_text :
    readLine "WR TG_PSC, #99".toList = some ⟨some (.wr .tgPsc 99), none⟩ ∧
    readLine "RD CF_SR -> OK 0x0003 ; both pending".toList = some ⟨some (.rd .cfSr), some ⟨.ok, some 3⟩⟩ ∧
    readLine "; nothing".toList = some ⟨none, none⟩ ∧ readLine "WR TG_PSC, #65536".toList = none := by decide
theorem test_assembler_words :
    assemble (.sample 100) = some [0xE0020064, 0xE0030000] ∧
    assemble (.ring 0x100 4) = some [0x20210007, 0x20220011, 0x20230100, 0x20240004] ∧
    assemble (.period 99 99) = some [0x20010063, 0x20020063] ∧ assemble (.tick 65536) = none := by decide

/-! ### Witnesses: states and operands that meet the hypotheses of each obligation -/

/-- A state with one word to take, on a channel. -/
def arriving (c : Channel) (w : Word) : State := { State.reset with inbox := [⟨c, w⟩] }

theorem witness_AtReset : AtReset State.reset := ⟨rfl, rfl, rfl, rfl, rfl, fun _ => rfl, rfl⟩

theorem witness_ResetValuesAtPowerOnAndAfterReset :
    AtReset State.reset ∧ enabled .rdTgCr State.reset = true ∧ enabled (.tick 1) State.reset = true ∧
    enabled .xfer State.reset = false := ⟨witness_AtReset, rfl, rfl, rfl⟩

/-- One of the agents' steps, and one of the host's, that take a next state at reset. -/
theorem witness_OnlyHostAndEnvironmentChangeAResetState :
    AtReset State.reset ∧ exec .xfer State.reset = .next (State.reset.withRsp (some 0x70000000)) ∧
    exec (.wrTgCr 1) State.reset = .next { State.reset with tg := ⟨0, 0, true, 0, 0⟩, rsp := some 0 } :=
  ⟨witness_AtReset, rfl, rfl⟩

theorem witness_StepExecutesTheDecodedWord :
    ((arriving .trace 0xE00F0000).inbox = [⟨.trace, 0xE00F0000⟩] ∧ decode .trace 0xE00F0000 = .ok .reset) ∧
    ((arriving .cmd 0xE00F0000).inbox = [⟨.cmd, 0xE00F0000⟩] ∧ decode .cmd 0xE00F0000 = .error .reservedOp) ∧
    State.reset.inbox = [] := by decide

theorem witness_DecodeEncodeRoundTrip :
    (Instr.wrTeN 65535).wellFormed .cmd = true ∧ Instr.reset.wellFormed .trace = true ∧
    Instr.reset.wellFormed .cmd = false := by decide

/-- One word whose DATA is an operand, one whose DATA is ignored. -/
theorem witness_EncodeOfDecodedWordIsTheWord :
    decode .cmd 0x2024FFFF = .ok (.wrTeN 65535) ∧ decode .cmd 0x1024FFFF = .ok .rdTeN ∧
    encode (.wrTeN 65535) = 0x2024FFFF ∧ encode .rdTeN = 0x10240000 := by decide

/-- The next state of a step from reset with one word: what it leaves in `rsp`. -/
def answer (c : Channel) (w : Word) : Option Word :=
  match step (arriving c w) with
  | .next t => t.rsp
  | .fault _ => none
  | .refused _ => none

/-- Each test of R88 on both sides of its bound: OP 0, 4, 0xE on `cmd`, 0xF; addresses beside the map; ids beside R87. -/
theorem witness_EveryWordHasADefinedOutcome :
    ([(Channel.cmd, (0x00000000 : Word)), (.cmd, 0x40000000), (.cmd, 0xE0010001), (.trace, 0xD0010000),
      (.trace, 0xFFFFFFFF)].map (fun p => answer p.1 p.2)).all (fun r => r == some 0x10000000) = true ∧
    ([(Channel.cmd, (0x10030000 : Word)), (.cmd, 0x100F0000), (.cmd, 0x10120000), (.cmd, 0x20250000), (.cmd, 0x20310001),
      (.cmd, 0x1FFF0000), (.cmd, 0x30010000), (.cmd, 0x3FFF0000), (.trace, 0xE0000000), (.trace, 0xE00C0000),
      (.trace, 0xE00E0000), (.trace, 0xE0100000)].map (fun p => answer p.1 p.2)).all (fun r => r == some 0x20000000) = true ∧
    answer .cmd 0x2011FFFF = some 0x30000000 ∧ answer .cmd 0x1000BEEF = some 0x00000000 := by decide

theorem witness_ExactlyOneTableRowCoversADecodedWord :
    decode .cmd 0x3000FFFF = .ok (.rds 65535) ∧ decode .trace 0xE00F0000 = .ok .reset := by decide

theorem witness_PeriodWritesOnlyWhileStopped : State.reset.tg.run = false ∧ (booted 1 2 0 2).tg.run = true := by decide

/-- Stopped; prescaler at 0 of 1; prescaler full, counter at 1 of 2; both full. -/
theorem witness_TickCountsAndEmits :
    State.reset.tg.run = false ∧
    (let s := booted 1 2 0 2
     s.tg.run = true ∧ s.tg.pcnt.toNat < s.tg.psc.toNat) ∧
    (let s := { booted 1 2 0 2 with tg := ⟨1, 2, true, 1, 1⟩ }
     s.tg.run = true ∧ s.tg.psc.toNat ≤ s.tg.pcnt.toNat ∧ s.tg.cnt.toNat < s.tg.arr.toNat) ∧
    (let s := { booted 1 2 0 2 with tg := ⟨1, 2, true, 1, 2⟩ }
     s.tg.run = true ∧ s.tg.psc.toNat ≤ s.tg.pcnt.toNat ∧ s.tg.arr.toNat ≤ s.tg.cnt.toNat) := by decide

theorem witness_TriggerReception :
    ((booted 0 0 0 2).se.arm = true ∧ (booted 0 0 0 2).se.busy = false) ∧
    ((converting State.reset).se.arm = true ∧ (converting State.reset).se.busy = true) ∧
    State.reset.se.arm = false := by decide

/-- V-T2c in two TICK steps: 13 ticks of a period of 6 from phase 0, and a count that starts inside a period. -/
theorem witness_PeriodLaw :
    (let s := booted 1 2 0 2
     s.tg.run = true ∧ s.tg.pcnt ≤ s.tg.psc ∧ s.tg.cnt ≤ s.tg.arr ∧ phase s.tg = 0 ∧ period s.tg = 6) ∧
    (match runInstrs ([5, 8].map .tick) (booted 1 2 0 2) with
      | .next t => t.trigOut = 2 ∧ phase t.tg = 1
      | .fault _ => False
      | .refused _ => False) ∧
    (let s := { booted 1 2 0 2 with tg := ⟨1, 2, true, 1, 2⟩ }
     s.tg.run = true ∧ s.tg.pcnt ≤ s.tg.psc ∧ s.tg.cnt ≤ s.tg.arr ∧ phase s.tg = 5) := by
  refine ⟨by decide, ⟨rfl, rfl⟩, by decide⟩

theorem witness_OnlyARunningTickEmitsATrigger :
    ∃ t, exec (.tick 1) (booted 0 0 0 2) = .next t ∧ t.trigOut ≠ (booted 0 0 0 2).trigOut ∧
      (booted 0 0 0 2).se.busy = false ∧ t.se.busy = true := ⟨_, rfl, by decide⟩

theorem witness_ConversionCompletes :
    (converting State.reset).se.busy = true ∧ State.reset.se.busy = false := by decide

/-- Two states that differ in the inert settings only, on a step other than RD SE_CR. -/
theorem witness_InertSettingsHaveNoEffect :
    let s₂ := { State.reset with se := { State.reset.se with edge := true, ch := 3, smp := 2 } }
    eraseInert State.reset = eraseInert s₂ ∧ State.reset ≠ s₂ ∧ Instr.tick 1 ≠ .rdSeCr := by decide

/-- The five tests at their bounds (V-E1 to V-E11). -/
theorem witness_ConfigurationValidity :
    [engine true true true 0x11 0 2, engine true true true 0x11 2 65534, engine false false true 0x11 65534 2].all cfgValid = true ∧
    [engine true true true 0x11 0 0, engine true true true 0x11 0 1, engine true true true 0x11 0 3,
      engine true true true 0x11 3 65534, engine true true true 0x11 65535 2, engine true true true 0x10 0 2,
      engine true true true 0x12 0 2, engine true true false 0x11 0 2].any cfgValid = false := by decide

theorem witness_EngineEnableAndDisable :
    (0 : Data).toNat % 2 = 0 ∧ (65534 : Data).toNat % 2 = 0 ∧ (1 : Data).toNat % 2 = 1 ∧ (ring 0 2 1).te.en = true ∧
    (State.reset.te.en = false ∧ cfgValid State.reset.te = false) ∧
    ((engine true true true 0x11 2 65534).en = false ∧ cfgValid (engine true true true 0x11 2 65534) = true) := by decide

theorem witness_ConfigurationWritesOnlyWhileDisabled :
    State.reset.te.en = false ∧ (ring 0 2 0).te.en = true ∧ Instr.wrTeN 4 ∈ [Instr.wrTeCr 4, .wrTeSrc 4, .wrTeDst 4, .wrTeN 4] := by
  decide

/-- The invariant of an enabled ring, the cursor anywhere in it. -/
theorem inv_ring {dst n cur : Data} (hv : cfgValid (ring dst n cur).te = true) (hc : cur < n) : Inv (ring dst n cur) where
  pcnt_le := BitVec.le_refl _
  cnt_le := BitVec.le_refl _
  valid := fun _ => hv
  cur_lt := fun _ => hc
  mem := Memory.wf_nil

/-- A waiting sample keeps the invariant. -/
theorem inv_waiting {s : State} (v : Sample) (h : Inv s) : Inv (waiting s v) := ⟨h.1, h.2, h.3, h.4, h.5⟩

/-- First transfer, the last of the largest ring, and both reasons why XFER is not enabled. -/
theorem witness_TransferCopiesOneSample :
    State.reset.te.en = false ∧ (ring 0 2 0).drq = false ∧
    (Inv (waiting (ring 0 2 0) 7) ∧ (ring 0 2 0).te.en = true ∧ (waiting (ring 0 2 0) 7).drq = true) ∧
    (Inv (waiting (ring 2 65534 65533) 7) ∧ (ring 2 65534 65533).te.en = true) :=
  ⟨rfl, rfl, ⟨inv_waiting 7 (inv_ring (by decide) (by decide)), rfl, rfl⟩,
    inv_waiting 7 (inv_ring (by decide) (by decide)), rfl⟩

/-- A transfer with a host command and a conversion around it. -/
theorem witness_CursorCountsTransfersModuloN :
    let s := waiting (ring 0 2 1) 7
    Inv s ∧ s.te.en = true ∧ s.te.circ = true ∧ (∀ i ∈ [Instr.wrTeN 9, .xfer, .conv 3], keepsLap i = true) ∧
    (∃ t, runInstrs [.wrTeN 9, .xfer, .conv 3] s = .next t) ∧ transfersMade [.wrTeN 9, .xfer, .conv 3] s = 1 :=
  ⟨inv_waiting 7 (inv_ring (by decide) (by decide)), rfl, rfl, by decide, ⟨_, rfl⟩, by decide⟩

/-- At the midpoint and at the wrap of a ring of two, with one transfer = N/2. -/
theorem witness_ReportedHalfStaysForHalfALap :
    (let s := waiting (ring 0 2 1) 7
     Inv s ∧ s.te.en = true ∧ s.te.circ = true ∧ s.te.dinc = true ∧ keepsLap .xfer = true ∧
     (∃ t, runInstrs [.xfer] s = .next t) ∧ transfersMade [.xfer] s = s.te.n.toNat / 2 ∧
     s.te.cur.toNat = s.te.n.toNat / 2 ∧ 0 ∈ halfSlots .half0 s.te.dst.toNat s.te.n.toNat) ∧
    (let s := waiting (ring 0 2 0) 7
     Inv s ∧ (∃ t, runInstrs [.xfer] s = .next t) ∧ transfersMade [.xfer] s = s.te.n.toNat / 2 ∧
     s.te.cur.toNat = 0 ∧ 1 ∈ halfSlots .half1 s.te.dst.toNat s.te.n.toNat) :=
  ⟨⟨inv_waiting 7 (inv_ring (by decide) (by decide)), rfl, rfl, rfl, rfl, ⟨_, rfl⟩, by decide, by decide, by decide⟩,
    inv_waiting 7 (inv_ring (by decide) (by decide)), ⟨_, rfl⟩, by decide, by decide, by decide⟩

theorem witness_NotificationFollowsItsTransfer :
    (∃ t, runInstrs [.xfer, .ackHt] (waiting (ring 0 2 0) 7) = .next t ∧ t.cf.halfReady = true) ∧
    (∃ t, runInstrs [.xfer, .ackTc] (waiting (ring 0 2 1) 7) = .next t ∧ t.cf.fullReady = true) ∧
    (ring 0 2 0).te.htif = false ∧ (ring 0 2 0).cf.halfReady = false ∧ (ring 0 2 1).te.tcif = false ∧
    (ring 0 2 1).cf.fullReady = false := ⟨⟨_, rfl, rfl⟩, ⟨_, rfl, rfl⟩, rfl, rfl, rfl, rfl⟩

/-- Two states that differ in the error conditions only, on a step other than their acknowledges. -/
theorem witness_ErrorConditionsDisturbNothing :
    let s₂ := pending State.reset false false true false false
    eraseErrors State.reset = eraseErrors s₂ ∧ State.reset ≠ s₂ ∧ Instr.xfer ≠ .ackTe ∧ Instr.xfer ≠ .ackFe ∧
    Instr.xfer ≠ .ackDme := by decide

theorem witness_AcknowledgeLatchesTheFlag :
    let s := pending State.reset true true false false false
    s.te.htif = true ∧ s.te.tcif = true ∧ State.reset.te.htif = false ∧ State.reset.te.tcif = false := by decide

theorem witness_AcknowledgeAbsorbsTheError :
    let s := pending State.reset false false true false false
    s.te.teif = true ∧ s.te.feif = true ∧ s.te.dmeif = true ∧ State.reset.te.teif = false ∧
    State.reset.te.feif = false ∧ State.reset.te.dmeif = false := by decide

theorem witness_FlagOperationsAreIdempotent :
    State.reset.cf = ⟨false, false⟩ ∧
    (∃ t, exec (.wrCfSr 3) (pending State.reset false false false true true) = .next t) ∧
    (∃ t, exec .ackHt (pending State.reset true false false true false) = .next t) ∧
    (∃ t, exec .ackTc (pending State.reset false true false false true) = .next t) :=
  ⟨rfl, ⟨_, rfl⟩, ⟨_, rfl⟩, ⟨_, rfl⟩⟩

/-- Each direction of each flag, by the step that makes it. -/
theorem witness_SingleWriterPerDirection :
    (∃ t, exec .ackHt (pending State.reset true false false false false) = .next t ∧ t.cf.halfReady = true) ∧
    (∃ t, exec (.wrCfSr 1) (pending State.reset false false false true true) = .next t ∧ t.cf.halfReady = false) ∧
    (∃ t, exec .ackTc (pending State.reset false true false false false) = .next t ∧ t.cf.fullReady = true) ∧
    (∃ t, exec .reset (pending State.reset false false false true true) = .next t ∧ t.cf.fullReady = false) :=
  ⟨⟨_, rfl, rfl⟩, ⟨_, rfl, rfl⟩, ⟨_, rfl, rfl⟩, ⟨_, rfl, rfl⟩⟩

/-- A run: half filled and a conversion pending, then ACK_HT, then CONV, and from then on reads of TG_CR. -/
def runInstr : Nat → Instr
  | 0 => .ackHt
  | 1 => .conv 5
  | _ => .rdTgCr

/-- The states of that run. -/
def runState : Nat → State
  | 0 => pending (converting State.reset) true false false false false
  | 1 => { pending (converting State.reset) false false false true false with rsp := some 0 }
  | _ => { waiting { State.reset with se := { State.reset.se with arm := true } } 5 with cf := ⟨true, false⟩, rsp := some 0 }

theorem witness_PendingConditionsAreEventuallyAcknowledged :
    IsRun runState runInstr ∧ WeaklyFair runState runInstr ∧ enabled .ackHt (runState 0) = true ∧
    (runState 0).se.busy = true := by
  refine ⟨fun k => ?_, ⟨fun k h => ?_, fun i hi k h => ?_⟩, rfl, rfl⟩
  · match k with
    | 0 => exact ⟨rfl, rfl⟩
    | 1 => exact ⟨rfl, rfl⟩
    | _ + 2 =>
      have h : exec .rdTgCr (runState 2) = .next (runState 2) := rfl
      exact ⟨rfl, h⟩
  · have h2 := h (k + 2) (by omega)
    cases h2
  · have h2 := h (k + 2) (by omega)
    fin_cases hi <;> cases h2

theorem witness_SlotRead :
    Memory.read [(65535, 9)] (65535 : Data).toNat = some 9 ∧ Memory.read [] (0 : Data).toNat = none ∧
    (arriving .cmd 0x30010000).inbox = [⟨.cmd, 0x30010000⟩] ∧ (0x30010000 : Word).toNat / 2 ^ 28 = 3 ∧
    (0x30010000 : Word).toNat / 2 ^ 16 % 2 ^ 12 ≠ 0 ∧ (0x3FFF0000 : Word).toNat / 2 ^ 16 % 2 ^ 12 ≠ 0 := by decide

/-- Each status by a step that answers it. -/
theorem witness_StatusCauses :
    response .rdTgCr State.reset = some 0x00000000 ∧ response (.wrSeDr 5) State.reset = some 0x30000000 ∧
    response (.wrTgArr 1) (booted 0 0 0 2) = some 0x40000000 ∧ response (.wrTeCr 7) (ring 0 2 0) = some 0x40000000 ∧
    response (.wrTeEn 1) State.reset = some 0x50000000 ∧ response .ackDme State.reset = some 0x70000000 := by decide

theorem witness_RefusedCommandsHaveNoEffect :
    exec (.wrTeN 4) (ring 0 2 0) = .next ((ring 0 2 0).withRsp (some 0x40000000)) ∧ (0x40000000 : Word).toNat / 2 ^ 28 ≠ 0 :=
  ⟨rfl, by decide⟩

/-- A step of each kind of writer: the host, an agent. -/
theorem witness_StateIsWrittenOnlyByItsOwner :
    (∃ t, exec (.wrTgPsc 9) State.reset = .next t ∧ t.tg.psc ≠ State.reset.tg.psc) ∧
    (∃ t, exec .xfer (waiting (ring 0 2 0) 7) = .next t ∧ t.buf.read 0 ≠ (ring 0 2 0).buf.read 0) ∧
    Instr.xfer ≠ .reset := ⟨⟨_, rfl, by decide⟩, ⟨_, rfl, by decide⟩, by decide⟩

/-- Each marker set by each of its steps, and one that stays set. -/
theorem witness_GhostMarkersRecordTheirHazard :
    (∃ t, exec (.tick 2) (booted 0 0 0 2) = .next t ∧ t.ghost.trigLost = true) ∧
    (∃ t, exec (.conv 2) (converting (waiting (ring 0 2 0) 1)) = .next t ∧ t.ghost.sampleLost = true) ∧
    (∃ t, exec .xfer (waiting (pending (ring 0 2 0) true true false false false) 1) = .next t ∧ t.ghost.halfLost = true) ∧
    (∃ t, exec .ackHt (pending State.reset true false false true false) = .next t ∧ t.ghost.halfLost = true) ∧
    (∃ t, exec .xfer (waiting (pending (ring 0 2 1) true true false false false) 1) = .next t ∧ t.ghost.fullLost = true) ∧
    (∃ t, exec .ackTc (pending State.reset false true false false true) = .next t ∧ t.ghost.fullLost = true) ∧
    (∃ t, exec .rdTgCr { State.reset with ghost := ⟨true, true, true, true⟩ } = .next t ∧ t.ghost = ⟨true, true, true, true⟩) :=
  ⟨⟨_, rfl, rfl⟩, ⟨_, rfl, rfl⟩, ⟨_, rfl, rfl⟩, ⟨_, rfl, rfl⟩, ⟨_, rfl, rfl⟩, ⟨_, rfl, rfl⟩, ⟨_, rfl, rfl⟩⟩

theorem witness_GhostMarkersAreInvisible :
    let s₂ := { State.reset with ghost := ⟨true, true, true, true⟩ }
    eraseGhost State.reset = eraseGhost s₂ ∧ State.reset ≠ s₂ := by decide

/-- The invariant of a ring with a word to take, and its step. -/
theorem witness_EveryStepKeepsTheInvariant :
    let s := (waiting (ring 0 2 1) 7).withFetchWord 32 0xE0030000
    Inv s ∧ ∃ t, step s = .next t ∧ t.te.cur = 0 ∧ t.buf.read 1 = some 7 := by
  have h := inv_waiting 7 (inv_ring (dst := 0) (n := 2) (cur := 1) (by decide) (by decide))
  exact ⟨⟨h.1, h.2, h.3, h.4, h.5⟩, _, rfl, rfl, rfl⟩

/-- Both cases: a step that is taken, and the read of a slot that holds no value. -/
theorem witness_OnlyAnUnwrittenReadStopsTheMachine :
    let s := (ring 0 2 0).withFetchWord 32 0x3000FFFF
    Inv (ring 0 2 0) ∧ (∃ t, step (ring 0 2 0) = .next t) ∧ Inv s ∧ decode .trace 0x3000FFFF = .ok (.rds 0xFFFF) ∧
    s.buf.read (0xFFFF : Data).toNat = none ∧ step s = .fault (.unwrittenSlot 65535) := by
  have h := inv_ring (dst := 0) (n := 2) (cur := 0) (by decide) (by decide)
  exact ⟨h, ⟨_, rfl⟩, ⟨h.1, h.2, h.3, h.4, h.5⟩, rfl, rfl, rfl⟩

/-- The smallest ring, the largest ring, and the last two slots. -/
theorem witness_BootSequenceStartsThePipeline :
    AtReset State.reset ∧ State.reset.buf = [] ∧
    ([(0, 2), (2, 65534), (65534, 2)] : List (Data × Data)).all
      (fun p => p.2.toNat % 2 == 0 && decide (2 ≤ p.2.toNat) && decide (p.1.toNat + p.2.toNat ≤ 65536)) = true ∧
    (0x0231 : Data).toNat % 2 = 1 ∧ 1 ≤ 1 ∧ 9 ≤ 9 ∧
    ∃ t, runInstrs (bootCommands 0x0100 4 0x0231 1 2) State.reset = .next t ∧ t.te.en = true :=
  ⟨witness_AtReset, rfl, by decide, by decide, by decide, by decide, _, rfl, rfl⟩

/-- The state after boot is booted, here with PSC = 1, ARR = 2 and a ring of two. -/
theorem booted_example : Booted (booted 1 2 0 2) where
  inv := ⟨by decide, by decide, fun _ => by decide, fun _ => by decide, Memory.wf_nil⟩
  run := rfl
  phase := by decide
  arm := rfl
  en := rfl
  circ := rfl
  dinc := rfl
  cur := rfl
  settled := by decide

/-- Both cases: a TICK, and the read of a slot that holds no value. -/
theorem witness_EagerScheduleLosesNothing :
    Inv (booted 1 2 0 2) ∧ settled (booted 1 2 0 2) = true ∧
    (∃ r', EagerRun.step (fun _ => 7) ⟨0, 0, booted 1 2 0 2⟩ (.tick 6) = .next r' ∧ r'.st.buf = [(0, 7)]) ∧
    (booted 1 2 0 2).buf.read (0 : Data).toNat = none :=
  ⟨booted_example.inv, booted_example.settled, ⟨_, rfl, rfl⟩, rfl⟩

/-- What a run under the eager schedule gives: values drawn, notices, slots 0 and 1. -/
def eagerSummary (o : Host.Outcome EagerRun Fault Refusal) : Option (Nat × Nat × Option Sample × Option Sample) :=
  match o with
  | .next r => some (r.drawn, r.notices, r.st.buf.read 0, r.st.buf.read 1)
  | .fault _ => none
  | .refused _ => none

/-- V-T6 with N = 2 and P = 2: by tick 4 two triggers, two conversions, two notices; by tick 3 one of each. -/
theorem witness_TimingLawUnderTheEagerSchedule :
    Booted (booted 1 0 0 2) ∧
    eagerSummary (EagerRun.ticks (fun k => BitVec.ofNat 16 (k + 5)) ⟨0, 0, booted 1 0 0 2⟩ 3) = some (1, 1, some 5, none) ∧
    eagerSummary (EagerRun.ticks (fun k => BitVec.ofNat 16 (k + 5)) ⟨0, 0, booted 1 0 0 2⟩ 4) =
      some (2, 2, some 5, some 6) :=
  ⟨⟨⟨by decide, by decide, fun _ => by decide, fun _ => by decide, Memory.wf_nil⟩, rfl, by decide, rfl, rfl, rfl, rfl, rfl,
    by decide⟩, by decide, by decide⟩

/-- The smallest capacity, and the largest, with the largest samples. -/
theorem witness_MeanIsExact :
    (2 % 2 = 0 ∧ 2 ≤ 2 ∧ ([65535] : List Sample).length = 2 / 2 ∧ ∀ y ∈ ([65535] : List Sample), y = 65535) ∧
    (65534 % 2 = 0 ∧ 65534 ≤ 65534 ∧ (List.replicate 32767 (65535 : Sample)).length = 65534 / 2) := by
  refine ⟨⟨rfl, Nat.le_refl _, rfl, fun y hy => List.mem_singleton.mp hy⟩, rfl, Nat.le_refl _, ?_⟩
  rw [List.length_replicate]

theorem witness_ReportLineIsTheDecimalMean : 0 < 1 ∧ 0 < 65535 ∧ 65535 ≤ 65535 ∧ (7 ∈ decimalDigits 7) := by decide

/-- Half 1 of the last two slots, written. -/
theorem witness_ServiceReportsTheMeanOfItsHalf :
    let s := { State.reset with buf := [(65534, 3), (65535, 9)], cf := ⟨true, true⟩ }
    65534 + 2 ≤ 65536 ∧ 2 ≤ 2 ∧ 2 % 2 = 0 ∧
    ([9] : List Sample).map some = (halfSlots .half1 65534 2).map s.buf.read ∧
    ([3] : List Sample).map some = (halfSlots .half0 65534 2).map s.buf.read := by decide

theorem witness_ConstantHalfIsReportedExactly :
    Booted (booted 1 2 0 2) ∧ (booted 1 2 0 2).cf = ⟨false, false⟩ := ⟨booted_example, rfl⟩

/-- A service of a ring of two whose one slot of half 0 is about to be read, with a sample waiting, and the boot. -/
theorem witness_ConsumerLoopRunsForever :
    Booted (booted 1 2 0 2) ∧ (booted 1 2 0 2).cf = ⟨false, false⟩ ∧
    let x : LoopState := ⟨0, 2, .read .half0 [0] 0 [.half1], [],
      { pending (waiting (ring 0 2 1) 7) false true false true true with buf := [(0, 3), (1, 4)] }⟩
    LoopInv x ∧ loopEnabled (.read 0) x = true ∧ loopEnabled (.other .xfer) x = true ∧
    LoopMove.other .xfer ≠ .other .reset := by
  refine ⟨booted_example, rfl, ⟨⟨BitVec.le_refl _, BitVec.le_refl _, fun _ => rfl, fun _ => by decide, by decide⟩, rfl, rfl,
    ⟨rfl, rfl⟩, by decide, fun _ => by decide, fun _ => by decide, by decide, by decide, by decide, by decide, by decide⟩,
    rfl, rfl, by decide⟩

/-- Both flags set, half 1 first. -/
theorem witness_IterationIsTheLoopUninterrupted :
    ∃ t, consumerIteration .half1 65534 2 { State.reset with buf := [(65534, 3), (65535, 9)], cf := ⟨true, true⟩ } =
      .next ([reportLine .half1 9, reportLine .half0 3], t) := ⟨_, rfl⟩

/-- A loop with HalfReady set: it polls, clears, reads, sends ten bytes, and polls from then on. -/
def loopMoveAt (k : Nat) : LoopMove :=
  ([LoopMove.poll .half0, .clear, .read 0] ++ List.replicate 10 LoopMove.accept).getD k (.poll .half0)

/-- The states of that run. -/
def loopStateAt : Nat → LoopState
  | 0 => ⟨0, 2, .poll, [], { ring 0 2 1 with buf := [(0, 5)], cf := ⟨true, false⟩ }⟩
  | k + 1 =>
    match loopStep (loopMoveAt k) (loopStateAt k) with
    | .next y => y
    | .fault _ => loopStateAt k
    | .refused _ => loopStateAt k

theorem witness_EveryFlagIsServiced :
    IsLoopRun loopStateAt loopMoveAt ∧ (∀ k, ∃ j, k ≤ j ∧ (loopMoveAt j).isOwn = true) ∧
    (∀ k, loopMoveAt k ≠ .other .reset) ∧ Half.half0.flag (loopStateAt 0).st = true := by
  have late : ∀ k, loopMoveAt (k + 13) = .poll .half0 := fun k => by simp [loopMoveAt]
  have next : ∀ {k y}, loopStep (loopMoveAt k) (loopStateAt k) = .next y → loopStateAt (k + 1) = y := fun h => by
    rw [loopStateAt, h]
  have polls : ∀ k, (loopStateAt (k + 13)).phase = .poll ∧ (loopStateAt (k + 13)).st.cf = ⟨false, false⟩ := by
    intro k
    induction k with
    | zero => decide
    | succ k ih =>
      rw [show k + 1 + 13 = k + 13 + 1 from rfl, next (late k ▸ loopStep_poll ih.1)]
      refine ⟨?_, ih.2⟩
      simp [readReg, ih.2]
      decide
  have early : ∀ k < 13, (loopMoveAt k).isOwn = true ∧ loopEnabled (loopMoveAt k) (loopStateAt k) = true ∧
      loopStep (loopMoveAt k) (loopStateAt k) = .next (loopStateAt (k + 1)) := by
    intro k hk
    interval_cases k <;> exact ⟨rfl, rfl, rfl⟩
  have own : ∀ k, (loopMoveAt k).isOwn = true := fun k => by
    by_cases h : k < 13
    · exact (early k h).1
    · obtain ⟨j, rfl⟩ := Nat.exists_eq_add_of_le' (Nat.le_of_not_lt h)
      rw [late]
      rfl
  refine ⟨fun k => ?_, fun k => ⟨k, Nat.le_refl k, own k⟩, fun k h => ?_, rfl⟩
  · by_cases h : k < 13
    · exact (early k h).2
    · obtain ⟨j, rfl⟩ := Nat.exists_eq_add_of_le' (Nat.le_of_not_lt h)
      have hs : loopStep (loopMoveAt (j + 13)) (loopStateAt (j + 13)) = _ := late j ▸ loopStep_poll (polls j).1
      exact ⟨by simp [late, loopEnabled, (polls j).1], by rw [hs, next hs]⟩
  · have := own k
    rw [h] at this
    cases this

/-- Each half with the last transfer its deadline allows between its clear and its read. -/
theorem witness_InterleavedServiceReportsItsHalf :
    let ms := [LoopMove.clear, .other .xfer, .read 0]
    let x : LoopState := ⟨0, 2, .clear .half0 [.half1], [], { waiting (ring 0 2 1) 7 with buf := [(0, 5)] }⟩
    let ms₁ := [LoopMove.clear, .other .xfer, .read 1]
    let x₁ : LoopState := ⟨0, 2, .clear .half1 [], [], { waiting (ring 0 2 0) 7 with buf := [(0, 5), (1, 6)] }⟩
    Inv x.st ∧ Inv x₁.st ∧ x.st.te.en = true ∧ x.st.te.circ = true ∧ x.st.te.dinc = true ∧
    [(5 : Sample)].map some = (halfSlots .half0 x.d x.n).map x.st.buf.read ∧
    [(6 : Sample)].map some = (halfSlots .half1 x₁.d x₁.n).map x₁.st.buf.read ∧
    LoopMove.accept ∉ ms ∧ LoopMove.other .reset ∉ ms ∧ LoopMove.accept ∉ ms₁ ∧ LoopMove.other .reset ∉ ms₁ ∧
    loopTransfers ms x = 1 ∧ transfersLeft .half0 x.st.te.cur.toNat x.n = 1 ∧
    loopTransfers ms₁ x₁ = 1 ∧ transfersLeft .half1 x₁.st.te.cur.toNat x₁.n = 1 ∧
    (∃ y, runLoop ms x = .next y ∧ y.phase = .send (reportLine .half0 5) [.half1] ∧ y.st.buf.read 1 = some 7) ∧
    ∃ y, runLoop ms₁ x₁ = .next y ∧ y.phase = .send (reportLine .half1 6) [] ∧ y.st.buf.read 0 = some 7 :=
  ⟨⟨BitVec.le_refl _, BitVec.le_refl _, fun _ => rfl, fun _ => by decide, by decide⟩,
    ⟨BitVec.le_refl _, BitVec.le_refl _, fun _ => rfl, fun _ => by decide, by decide⟩, rfl, rfl, rfl, by decide, by decide,
    by decide, by decide, by decide, by decide, rfl, rfl, rfl, rfl, ⟨_, rfl, rfl, rfl⟩, ⟨_, rfl, rfl, rfl⟩⟩

theorem witness_AssemblerReadsWhatItWrites :
    (AsmStmt.ring 65535 65535).wellFormed = true ∧ (AsmStmt.ring 65536 2).wellFormed = false := by decide

end Sys2Proof.Tests
end

section
/-! PROOFS. The invariant at reset and over every step (R23, R27, R161), and the reset state (R47, R260). -/

namespace Sys2Proof.Machine

/-! ### One step of the inbox -/

/-- Everything `step` can do when it answers a next state: nothing, the decoded instruction, or a refused word. -/
theorem step_cases {s t : State} (h : step s = .next t) :
    (s.inbox = [] ∧ t = s) ∨
    ∃ a rest, s.inbox = a :: rest ∧
      ((∃ i, decode a.channel a.word = .ok i ∧ exec i { s with inbox := rest } = .next t) ∨
       ∃ e, decode a.channel a.word = .error e ∧ t = State.rejectWord { s with inbox := rest } e) := by
  unfold step State.takeWord at h
  cases hs : s.inbox with
  | nil =>
    simp only [hs] at h
    exact .inl ⟨rfl, (Host.Outcome.next.inj h).symm⟩
  | cons a rest =>
    simp only [hs] at h
    refine .inr ⟨a, rest, rfl, ?_⟩
    cases hd : decode a.channel a.word with
    | ok i =>
      rw [hd] at h
      exact .inl ⟨i, rfl, h⟩
    | error e =>
      rw [hd] at h
      exact .inr ⟨e, rfl, (Host.Outcome.next.inj h).symm⟩

/-! ### The invariant -/

/-- The invariant reads nothing of the block but the Trigger Generator, four things of the Transfer Engine, and the
sample memory: a step that keeps them keeps the invariant. -/
theorem Inv.of_frame {s t : State} (hi : Inv s) (tg : t.tg = s.tg) (en : t.te.en = s.te.en)
    (valid : cfgValid t.te = cfgValid s.te) (cur : t.te.cur = s.te.cur) (n : t.te.n = s.te.n) (buf : t.buf = s.buf) :
    Inv t where
  pcnt_le := tg ▸ hi.pcnt_le
  cnt_le := tg ▸ hi.cnt_le
  valid := fun h => valid.trans (hi.valid (en.symm.trans h))
  cur_lt := fun h => by rw [cur, n]; exact hi.cur_lt (en.symm.trans h)
  mem := buf ▸ hi.mem

/-- A disabled engine may hold any configuration and any cursor (R153 to R159). -/
theorem Inv.of_disabled {s t : State} (hi : Inv s) (tg : t.tg = s.tg) (en : t.te.en = false) (buf : t.buf = s.buf) :
    Inv t where
  pcnt_le := tg ▸ hi.pcnt_le
  cnt_le := tg ▸ hi.cnt_le
  valid := fun h => by simp [en] at h
  cur_lt := fun h => by simp [en] at h
  mem := buf ▸ hi.mem

/-- A step of the Trigger Generator that leaves the counters within their configuration keeps the invariant. -/
theorem Inv.of_counters {s t : State} (hi : Inv s) (hp : t.tg.pcnt ≤ t.tg.psc) (hc : t.tg.cnt ≤ t.tg.arr)
    (te : t.te = s.te) (buf : t.buf = s.buf) : Inv t where
  pcnt_le := hp
  cnt_le := hc
  valid := te ▸ hi.valid
  cur_lt := te ▸ hi.cur_lt
  mem := buf ▸ hi.mem

theorem inv_reset : Inv State.reset where
  pcnt_le := BitVec.le_refl _
  cnt_le := BitVec.le_refl _
  valid := fun h => by cases h
  cur_lt := fun h => by cases h
  mem := Memory.wf_nil

/-- Settles O44: every counter is 0, the engine is disabled, no slot holds a value. -/
theorem invariantHoldsAtReset : Obligations.InvariantHoldsAtReset := inv_reset

/-- A successful enable: the configuration has passed the check, and the new cursor 0 is below the capacity, which is at
least 2 (R151, R161). -/
theorem Inv.enableEngine {s : State} (hi : Inv s) (hv : cfgValid s.te = true) : Inv s.enableEngine where
  pcnt_le := hi.pcnt_le
  cnt_le := hi.cnt_le
  valid := fun _ => hv
  cur_lt := fun _ => by
    obtain ⟨_, hn, _⟩ := cfgValid_bounds hv
    rw [BitVec.lt_def]
    exact Nat.lt_of_lt_of_le Nat.zero_lt_two hn
  mem := hi.mem

/-- A transfer keeps the configuration. -/
theorem Transferred.cfgValid_eq {s t : State} (f : Transferred s t) : cfgValid t.te = cfgValid s.te := by
  simp only [cfgValid, f.n, f.dst, f.src, f.sfix]

/-- A transfer writes inside the memory and moves the cursor inside the ring: it wraps to 0 exactly when the next index
is the capacity (R61, R162). -/
theorem Inv.transferred {s t : State} (hi : Inv s) (f : Transferred s t) (he : s.te.en = true) : Inv t where
  pcnt_le := f.tg ▸ hi.pcnt_le
  cnt_le := f.tg ▸ hi.cnt_le
  valid := fun _ => f.cfgValid_eq.trans (hi.valid he)
  cur_lt := fun _ => by
    have hlt := hi.cur_lt he
    obtain ⟨_, hn, _⟩ := cfgValid_bounds (hi.valid he)
    rw [BitVec.lt_def, f.cur_toNat hlt, f.n]
    rw [BitVec.lt_def] at hlt
    split <;> omega
  mem := f.buf ▸ Memory.write_wf _ hi.mem (xferSlot_lt hi he)

/-- Every next state of every instruction keeps the invariant. -/
theorem Effect.keeps_inv {i : Instr} {s t : State} (h : Effect i s t) (hi : Inv s) : Inv t := by
  cases h with
  | psc d _ hr => exact hi.of_counters (Nat.zero_le _) (Nat.zero_le _) rfl rfl
  | arr d _ hr => exact hi.of_counters (Nat.zero_le _) (Nat.zero_le _) rfl rfl
  | start d => exact hi.of_counters hi.pcnt_le hi.cnt_le rfl rfl
  | tick n =>
    have f := tickMany_frame s n.toNat
    obtain ⟨hp, hc⟩ := tickMany_counters n.toNat hi.pcnt_le hi.cnt_le
    exact hi.of_counters hp hc f.te f.buf
  | disable d _ hd => exact hi.of_disabled rfl rfl rfl
  | mode d _ he => exact hi.of_disabled rfl he rfl
  | src d _ he => exact hi.of_disabled rfl he rfl
  | dst d _ he => exact hi.of_disabled rfl he rfl
  | capacity d _ he => exact hi.of_disabled rfl he rfl
  | enable d _ hd he hv => exact (hi.enableEngine hv).of_frame rfl rfl rfl rfl rfl rfl
  | xfer _ hx hs =>
    have he : s.te.en = true := by
      rw [xferEnabled, Bool.and_eq_true] at hx
      exact hx.1
    exact hi.transferred (transfer_spec s) he
  | reset => exact inv_reset.of_frame rfl rfl rfl rfl rfl rfl
  | _ => exact hi.of_frame rfl rfl rfl rfl rfl rfl

/-- Settles O45: a word taken or refused touches nothing the invariant reads, and every effect of an instruction keeps
it. -/
theorem everyStepKeepsTheInvariant : Obligations.EveryStepKeepsTheInvariant := by
  intro s t hi h
  rcases step_cases h with ⟨_, rfl⟩ | ⟨a, rest, _, ⟨i, _, hx⟩ | ⟨e, _, rfl⟩⟩
  · exact hi
  · exact (exec_effect hx).keeps_inv (hi.of_frame rfl rfl rfl rfl rfl rfl)
  · exact hi.of_frame rfl rfl rfl rfl rfl rfl

/-! ### Reset -/

/-- The word of an event: 0xE, the event's id, any DATA; no event is a command (R86, R87). -/
theorem hasWord_event (e : Event) : HasWord (0xE#4 ++ e.id) (eventOf e) := fun d =>
  ⟨decode_event e d, fun hc => by simp [Instr.isCommand] at hc⟩

/-- The elements and markers after RESET, with whatever response (R260). -/
theorem atReset_resetBlock_respond (s : State) (st : Status) (d : Data) : AtReset (s.resetBlock.respond st d) :=
  ⟨rfl, rfl, rfl, rfl, rfl, fun _ => rfl, rfl⟩

theorem atReset_reset : AtReset State.reset := ⟨rfl, rfl, rfl, rfl, rfl, fun _ => rfl, rfl⟩

/-- Nothing is in flight at reset (R261, R275). -/
theorem AtReset.settled {s : State} (h : AtReset s) : settled s = true := by
  simp [settled_iff, h.se, h.te]

/-- In a settled state only the host, TICK and the environment have a step (R261). -/
theorem enabled_of_settled {s : State} (h : settled s = true) {i : Instr} (hi : enabled i s = true) :
    agentOf i = .host ∨ (∃ n, i = .tick n) ∨ i = .errTe ∨ i = .errFe ∨ i = .errDme ∨ i = .reset := by
  obtain ⟨hbusy, hdrq, hht, htc, hte, hfe, hdme⟩ := (settled_iff s).mp h
  cases i <;> simp_all [agentOf, enabled, convEnabled, xferEnabled]

/-- TICK with a stopped counter changes the response word only (R117). -/
theorem exec_tick_stopped {s : State} (h : s.tg.run = false) (n : Data) : exec (.tick n) s = .next s.done := by
  rw [exec, execTick, tickMany_eq_iterate, Function.iterate_fixed (tickOnce_stopped h)]

/-- Settles O1: the table of R47 is the state at power-on and after RESET; such a state is settled, and its counter is
stopped. -/
theorem resetValuesAtPowerOnAndAfterReset : Obligations.ResetValuesAtPowerOnAndAfterReset := by
  refine ⟨hasWord_event .reset, atReset_reset, fun s => ⟨rfl, s.resetBlock.done, rfl, ?_, ?_, rfl, rfl⟩,
    fun s h => ⟨fun i => enabled_of_settled h.settled, fun n => ?_⟩⟩
  · exact atReset_resetBlock_respond s .ok 0
  · simp
  · simp [exec_tick_stopped, h.tg, done_eq]

end Sys2Proof.Machine
end

section
/-! PROOFS. What no step reads: the ghost markers (R48, R270) and, but for RD SE_CR, the inert settings CH, SMP and EDGE
(R137).

An erasure `e` forgets a part of the state. A function ignores that part if, up to `e`, it gives the same with the part
erased before. Three erasures matter: the markers (R48, R270), the inert settings (R137) and the error conditions (R167).
Every step guards its branches by something that none of them touches, so one case analysis over the instructions serves
all three. -/

namespace Sys2Proof.Machine

/-- Up to the erasure `e`, the function `f` does not read what `e` erases. -/
def Ignores (e f : State → State) : Prop := ∀ s, e (f (e s)) = e (f s)

theorem Ignores.comp {e f g : State → State} (hg : Ignores e g) (hf : Ignores e f) : Ignores e (g ∘ f) := fun s =>
  calc e (g (f (e s))) = e (g (e (f (e s)))) := (hg _).symm
    _ = e (g (e (f s))) := by rw [hf s]
    _ = e (g (f s)) := hg _

theorem Ignores.iterate {e f : State → State} (h : Ignores e f) (he : Ignores e id) (n : Nat) : Ignores e f^[n] := by
  induction n with
  | zero => exact he
  | succ n ih => exact ih.comp h

/-- Two answers behind one guard agree under `f` if they agree branch by branch. Used with an erasure for `f`, where the
two guards are equal by unfolding. -/
theorem map_ite_congr {α β : Type} (f : α → β) {c : Prop} [Decidable c] {a a' b b' : α} (ha : f a = f a')
    (hb : f b = f b') : f (if c then a else b) = f (if c then a' else b') := by
  split
  · exact ha
  · exact hb

theorem mapNext_mapNext (f g : State → State) (o : Host.Outcome State Fault Refusal) :
    mapNext f (mapNext g o) = mapNext (fun s => f (g s)) o := by
  cases o <;> rfl

/-- What is forgotten. -/
inductive Erasure where
  | ghost | inert | errors

def Erasure.erase : Erasure → State → State
  | .ghost => eraseGhost
  | .inert => eraseInert
  | .errors => eraseErrors

/-- The instructions that read what is forgotten: no one reads a marker, RD SE_CR the settings (R132), and each error's
ACK its condition (R183 to R185). -/
def Erasure.ReadBy : Erasure → Instr → Prop
  | .ghost, _ => False
  | .inert, i => i = .rdSeCr
  | .errors, i => i = .ackTe ∨ i = .ackFe ∨ i = .ackDme

theorem receiveTrigger_ignores (x : Erasure) : Ignores x.erase State.receiveTrigger := fun _ => by
  cases x <;> exact map_ite_congr _ (map_ite_congr _ rfl rfl) rfl

/-- The three guards of a tick read PCNT, CNT and their bounds only (R117); the wrap ends in a trigger. -/
theorem tickOnce_ignores (x : Erasure) : Ignores x.erase State.tickOnce := fun s => by
  have wrap := receiveTrigger_ignores x
    { s with tg := { s.tg with pcnt := 0, cnt := 0 }, trigOut := s.trigOut + 1 }
  cases x <;> exact map_ite_congr _ (map_ite_congr _ rfl (map_ite_congr _ rfl wrap)) rfl

theorem tickMany_ignores (x : Erasure) (n : Nat) : Ignores x.erase (State.tickMany · n) := fun s => by
  have h := (tickOnce_ignores x).iterate (fun _ => by cases x <;> rfl) n s
  simpa only [tickMany_eq_iterate] using h

theorem done_ignores (x : Erasure) : Ignores x.erase State.done := fun _ => by cases x <;> rfl

theorem storeSample_ignores (x : Erasure) : Ignores x.erase State.storeSample := fun _ => by cases x <;> rfl

theorem crossMidpoint_ignores (x : Erasure) (c : Nat) : Ignores x.erase (State.crossMidpoint · c) := fun _ => by
  cases x <;> exact map_ite_congr _ rfl rfl

theorem wrapCursor_ignores (x : Erasure) : Ignores x.erase State.wrapCursor := fun _ => by cases x <;> rfl

/-- Both ways the cursor moves come after the midpoint test, and its guard reads TE.CUR and TE.N only (R162). -/
theorem advanceCursor_ignores (x : Erasure) : Ignores x.erase State.advanceCursor := fun s => by
  have mid := crossMidpoint_ignores x (s.te.cur.toNat + 1)
  have wrap := (wrapCursor_ignores x).comp mid s
  have next := Ignores.comp (g := fun m => { m with te := { m.te with cur := BitVec.ofNat 16 (s.te.cur.toNat + 1) } })
    (fun _ => by cases x <;> rfl) mid s
  cases x <;> exact map_ite_congr _ wrap next

/-- An instruction that does not read what is forgotten takes its step alike without it, with the same response. -/
theorem exec_ignores (x : Erasure) {i : Instr} (h : ¬ x.ReadBy i) (s : State) :
    mapNext x.erase (exec i (x.erase s)) = mapNext x.erase (exec i s) := by
  cases i with
  | tick n => exact congrArg Host.Outcome.next ((done_ignores x).comp (tickMany_ignores x n.toNat) s)
  | xfer =>
    have move := (done_ignores x).comp ((advanceCursor_ignores x).comp (storeSample_ignores x)) s
    cases x <;> exact map_ite_congr _ (map_ite_congr _ (congrArg Host.Outcome.next move) rfl) rfl
  | rds a =>
    have hb : (x.erase s).buf = s.buf := by cases x <;> rfl
    simp only [exec, execRds, hb]
    cases s.buf.read a.toNat with
    | none => rfl
    | some v => cases x <;> rfl
  | wrTeEn d => cases x <;> exact map_ite_congr _ (map_ite_congr _ rfl (map_ite_congr _ rfl rfl)) rfl
  | wrTeCr d | wrTeSrc d | wrTeDst d | wrTeN d =>
    cases x <;> exact congrArg Host.Outcome.next (map_ite_congr _ rfl rfl)
  | wrTgPsc d | wrTgArr d | conv v | ackHt | ackTc => cases x <;> exact map_ite_congr _ rfl rfl
  | ackTe | ackFe | ackDme =>
    cases x with
    | ghost | inert => exact map_ite_congr _ rfl rfl
    | errors => simp [Erasure.ReadBy] at h
  | rdSeCr =>
    cases x with
    | ghost | errors => rfl
    | inert => exact absurd rfl h
  | _ => cases x <;> rfl

/-- Every instruction, those that read what is forgotten included, takes its step alike up to the response. -/
theorem exec_ignores_but_rsp (x : Erasure) (i : Instr) (s : State) :
    mapNext (fun t => (x.erase t).withRsp none) (exec i (x.erase s)) =
      mapNext (fun t => (x.erase t).withRsp none) (exec i s) := by
  by_cases h : x.ReadBy i
  · cases x with
    | ghost => cases h
    | inert =>
      cases h
      rfl
    | errors =>
      rcases h with rfl | rfl | rfl
      · cases hb : s.te.teif <;> simp [exec, execAckTe, hb] <;> rfl
      · cases hb : s.te.feif <;> simp [exec, execAckFe, hb] <;> rfl
      · cases hb : s.te.dmeif <;> simp [exec, execAckDme, hb] <;> rfl
  · simpa only [mapNext_mapNext] using congrArg (mapNext (State.withRsp · none)) (exec_ignores x h s)

/-- Two states that differ only in what is forgotten take an instruction that does not read it alike. -/
theorem exec_congr (x : Erasure) {i : Instr} (h : ¬ x.ReadBy i) {s₁ s₂ : State} (hs : x.erase s₁ = x.erase s₂) :
    mapNext x.erase (exec i s₁) = mapNext x.erase (exec i s₂) := by
  rw [← exec_ignores x h s₁, hs, exec_ignores x h s₂]

/-- Two states that differ only in what is forgotten take every instruction alike up to the response. -/
theorem exec_congr_but_rsp (x : Erasure) (i : Instr) {s₁ s₂ : State} (hs : x.erase s₁ = x.erase s₂) :
    mapNext (fun t => (x.erase t).withRsp none) (exec i s₁) =
      mapNext (fun t => (x.erase t).withRsp none) (exec i s₂) := by
  rw [← exec_ignores_but_rsp x i s₁, hs, exec_ignores_but_rsp x i s₂]

/-- Settles O43: no instruction reads a marker. -/
theorem ghostMarkersAreInvisible : Obligations.GhostMarkersAreInvisible := fun _ _ _ hs =>
  exec_congr .ghost (fun h => h) hs

/-- Settles O22: RD SE_CR alone reads the inert settings, and only into its response. -/
theorem inertSettingsHaveNoEffect : Obligations.InertSettingsHaveNoEffect := fun i _ _ hs =>
  ⟨fun h => exec_congr .inert h hs, exec_congr_but_rsp .inert i hs⟩

end Sys2Proof.Machine
end

section
/-! PROOFS. A stored trace, byte by byte (R62, R95). -/

namespace Sys2Proof

/-- The value of four stored bytes, least significant first (R62, R95): each byte is put above those before it. -/
theorem wordOfBytes_toNat (b0 b1 b2 b3 : Byte) :
    (wordOfBytes b0 b1 b2 b3).toNat = b0.toNat + 2 ^ 8 * b1.toNat + 2 ^ 16 * b2.toNat + 2 ^ 24 * b3.toNat := by
  have put {k : Nat} (hi : BitVec k) (lo : Byte) : (hi ++ lo).toNat = 2 ^ 8 * hi.toNat + lo.toNat := by
    rw [BitVec.toNat_append, ← Nat.shiftLeft_add_eq_or_of_lt lo.isLt, Nat.shiftLeft_eq, Nat.mul_comm]
  simp only [wordOfBytes, put]
  omega

/-- A word is put together from its own bytes (R95). -/
theorem wordOfBytes_bytes (w : Word) :
    wordOfBytes (w.extractLsb' 0 8) (w.extractLsb' 8 8) (w.extractLsb' 16 8) (w.extractLsb' 24 8) = w := by
  apply BitVec.eq_of_toNat_eq
  simp only [wordOfBytes_toNat, BitVec.extractLsb'_toNat, Nat.shiftRight_eq_div_pow]
  omega

/-- A stored trace is read back word for word (R95). -/
theorem wordsOfBytes_bytesOfWords (ws : List Word) : wordsOfBytes (bytesOfWords ws) = some ws := by
  induction ws with
  | nil => rfl
  | cons w ws ih => simp [bytesOfWords, bytesOfWord, wordsOfBytes, ih, wordOfBytes_bytes]

/-- Settles O9: a word is the sum of its bytes, each at its place, so a trace is read back by induction on its words. -/
theorem storedTraceIsLittleEndian : Obligations.StoredTraceIsLittleEndian :=
  ⟨wordsOfBytes_bytesOfWords, wordOfBytes_toNat⟩

end Sys2Proof
end

section
/-! PROOFS. Progress: which states stop the machine (R61, R88, R162, R200). -/

namespace Sys2Proof.Machine

/-- With no word to take the state stays. -/
theorem step_of_no_word {s : State} (h : s.inbox = []) : step s = .next s := by
  simp [step, State.takeWord, h]

/-- A word that decodes is taken from the inbox and executed (R93, R94). -/
theorem step_of_decode_ok {s : State} {a : Arrival} {rest : List Arrival} {i : Instr} (h : s.inbox = a :: rest)
    (hd : decode a.channel a.word = .ok i) : step s = exec i { s with inbox := rest } := by
  simp [step, State.takeWord, h, hd]

/-- A word that does not decode is taken from the inbox and refused (R88). -/
theorem step_of_decode_error {s : State} {a : Arrival} {rest : List Arrival} {e : DecodeError} (h : s.inbox = a :: rest)
    (hd : decode a.channel a.word = .error e) : step s = .next (State.rejectWord { s with inbox := rest } e) := by
  simp [step, State.takeWord, h, hd]

/-- RDS of a slot that holds no value is a fault (R200 (d), U1). -/
theorem exec_rds_of_unwritten {s : State} {a : Data} (h : s.buf.read a.toNat = none) :
    exec (.rds a) s = .fault (.unwrittenSlot a.toNat) := by
  simp [exec, execRds, h]

/-- A guard between two next states leads to a next state. -/
theorem exists_next_ite {c : Prop} [Decidable c] (x y : State) :
    ∃ t, (if c then .next x else .next y : Host.Outcome State Fault Refusal) = .next t :=
  ⟨if c then x else y, by split <;> rfl⟩

/-- XFER completes, enabled or not, from every state that meets the invariant (R61, R162). -/
theorem exec_xfer_completes {s : State} (hi : Inv s) : ∃ t, exec .xfer s = .next t := by
  cases hx : xferEnabled s with
  | false => exact ⟨_, exec_of_not_enabled hx⟩
  | true =>
    obtain ⟨he, hd⟩ := Bool.and_eq_true_iff.mp hx
    exact ⟨_, execXfer_eq hi he hd⟩

/-- Every instruction completes from every state that meets the invariant, but RDS of a slot that holds no value. -/
theorem exec_completes_or_unwritten {s : State} (hi : Inv s) (i : Instr) :
    (∃ t, exec i s = .next t) ∨ ∃ a, i = .rds a ∧ s.buf.read a.toNat = none := by
  cases i with
  | rds a =>
    cases hv : s.buf.read a.toNat with
    | some v => exact .inl ⟨s.respond .ok v, by simp [exec, execRds, hv]⟩
    | none => exact .inr ⟨a, rfl, hv⟩
  | xfer => exact .inl (exec_xfer_completes hi)
  | wrTgPsc | wrTgArr | conv | ackHt | ackTc | ackTe | ackFe | ackDme => exact .inl (exists_next_ite _ _)
  | wrTeEn d =>
    left
    simp only [exec, execWrTeEn]
    split
    · split
      · exact ⟨_, rfl⟩
      · exact exists_next_ite _ _
    · exact ⟨_, rfl⟩
  | _ => exact .inl ⟨_, rfl⟩

/-- Settles O46: a word is missing, refused or decoded, and a decoded instruction completes unless it reads a slot that
holds no value. -/
theorem onlyAnUnwrittenReadStopsTheMachine : Obligations.OnlyAnUnwrittenReadStopsTheMachine := by
  intro s hi
  cases hs : s.inbox with
  | nil => exact .inl ⟨s, step_of_no_word hs⟩
  | cons a rest =>
    cases hd : decode a.channel a.word with
    | error e => exact .inl ⟨_, step_of_decode_error hs hd⟩
    | ok i =>
      have hi' : Inv { s with inbox := rest } := hi.of_frame rfl rfl rfl rfl rfl rfl
      rw [step_of_decode_ok hs hd]
      rcases exec_completes_or_unwritten hi' i with ht | ⟨slot, rfl, hv⟩
      · exact .inl ht
      · exact .inr ⟨a.channel, a.word, rest, slot, rfl, hd, hv, exec_rds_of_unwritten hv⟩

end Sys2Proof.Machine
end

section
/-! PROOFS. The flags follow the transfers (R69, R235). A condition rises in a transfer that reaches the end of its half,
a flag rises in the ACK step that finds its condition pending, and whatever a run finds risen has risen in one of its
steps. -/

namespace Sys2Proof.Machine

/-! ### One half's condition, acknowledge and end -/

/-- The condition of a half: half filled for half 0, full for half 1 (R28). -/
def Half.pending (h : Half) (s : State) : Bool :=
  match h with
  | .half0 => s.te.htif
  | .half1 => s.te.tcif

/-- The step that acknowledges the condition of a half (R181, R182). -/
def Half.ack : Half → Instr
  | .half0 => .ackHt
  | .half1 => .ackTc

/-- The ring index just behind a half: N/2 for half 0, N for half 1 (R31). -/
def Half.stop (h : Half) (n : Nat) : Nat :=
  match h with
  | .half0 => n / 2
  | .half1 => n

/-! ### Where a bit rises -/

/-- The condition of a half is raised only by a transfer that brings the cursor to the end of the half (R69, R162). -/
theorem pending_or_transfer {h : Half} {i : Instr} {s t : State} (e : exec i s = .next t) (ht : h.pending t = true) :
    h.pending s = true ∨ i = .xfer ∧ xferEnabled s = true ∧ s.te.cur.toNat + 1 = h.stop s.te.n.toNat := by
  cases exec_effect e with
  | xfer _ hx _ =>
    have f := transfer_spec s
    have hr : h.pending s = true ∨ s.te.cur.toNat + 1 = h.stop s.te.n.toNat := by
      cases h with
      | half0 => simpa only [Half.pending, Half.stop, f.htif, Bool.or_eq_true, decide_eq_true_eq] using ht
      | half1 => simpa only [Half.pending, Half.stop, f.tcif, Bool.or_eq_true, decide_eq_true_eq] using ht
    exact hr.imp_right fun hc => ⟨rfl, hx, hc⟩
  | tick n =>
    left
    have f := tickMany_frame s n.toNat
    cases h <;> simpa only [Half.pending, State.done_te, f.te] using ht
  | ackHt =>
    cases h with
    | half0 => cases ht
    | half1 => exact .inl ht
  | ackTc =>
    cases h with
    | half0 => exact .inl ht
    | half1 => cases ht
  | reset => cases h <;> cases ht
  | _ => exact .inl (by cases h <;> exact ht)

/-- The flag of a half is latched only by the ACK step that finds its condition pending (R181, R182, R189). -/
theorem flag_or_ack {h : Half} {i : Instr} {s t : State} (e : exec i s = .next t) (ht : h.flag t = true) :
    h.flag s = true ∨ i = h.ack ∧ h.pending s = true := by
  cases exec_effect e with
  | xfer =>
    left
    have f := transfer_spec s
    cases h <;> simpa only [Half.flag, f.cf] using ht
  | tick n =>
    left
    have f := tickMany_frame s n.toNat
    cases h <;> simpa only [Half.flag, State.done_cf, f.cf] using ht
  | ackHt _ hp =>
    cases h with
    | half0 => exact .inr ⟨rfl, hp⟩
    | half1 => exact .inl ht
  | ackTc _ hp =>
    cases h with
    | half0 => exact .inl ht
    | half1 => exact .inr ⟨rfl, hp⟩
  | clear d => exact .inl (by cases h <;> exact (Bool.and_eq_true_iff.mp ht).1)
  | reset => cases h <;> cases ht
  | _ => exact .inl (by cases h <;> exact ht)

/-- A bit that is clear before a run and set after it has risen in one of its steps. -/
theorem run_rises {f : State → Bool} {is : List Instr} {s t : State} (e : runInstrs is s = .next t) (hs : f s = false)
    (ht : f t = true) :
    ∃ p i q u v, is = p ++ i :: q ∧ runInstrs p s = .next u ∧ exec i u = .next v ∧ f u = false ∧ f v = true := by
  induction is generalizing s with
  | nil =>
    cases e
    simp [hs] at ht
  | cons i is ih =>
    obtain ⟨v, hi, e⟩ := runInstrs_cons e
    cases hv : f v with
    | true => exact ⟨[], i, is, s, v, rfl, rfl, hi, hs, hv⟩
    | false =>
      obtain ⟨p, j, q, u, w, rfl, hp, hrise⟩ := ih e hv
      exact ⟨i :: p, j, q, u, w, rfl, by rw [runInstrs, hi, andThen_next, hp], hrise⟩

/-- A flag that a run finds set was latched by an ACK step of the run, whose condition was raised by a transfer of the run
before it that reached the end of the half (R69, R235). -/
theorem flag_follows_transfer (h : Half) {is : List Instr} {s t : State} (e : runInstrs is s = .next t)
    (hp : h.pending s = false) (hs : h.flag s = false) (ht : h.flag t = true) :
    ∃ p₁ p₂ p₃ u v, is = p₁ ++ .xfer :: (p₂ ++ h.ack :: p₃) ∧
      runInstrs p₁ s = .next u ∧ xferEnabled u = true ∧ u.te.cur.toNat + 1 = h.stop u.te.n.toNat ∧
      runInstrs (p₁ ++ .xfer :: p₂) s = .next v ∧ h.pending v = true := by
  obtain ⟨p, i, p₃, v, _, rfl, hv, hack, hv0, hv1⟩ := run_rises e hs ht
  obtain ⟨rfl, hpv⟩ := (flag_or_ack hack hv1).resolve_left (by simp [hv0])
  obtain ⟨p₁, j, p₂, u, _, rfl, hu, hxfer, hu0, hu1⟩ := run_rises hv hp hpv
  obtain ⟨rfl, hen, hcur⟩ := (pending_or_transfer hxfer hu1).resolve_left (by simp [hu0])
  exact ⟨p₁, p₂, p₃, u, v, by simp, hu, hen, hcur, hv, hpv⟩

/-- Settles O29: the same argument for either half. -/
theorem notificationFollowsItsTransfer : Obligations.NotificationFollowsItsTransfer := fun _ _ _ e =>
  ⟨flag_follows_transfer .half0 e, flag_follows_transfer .half1 e⟩

end Sys2Proof.Machine
end

section
/-! PROOFS. A lap of a circular ring: what its steps keep, and that a reported half stays unchanged until the cursor
reaches it again (R70, R163). -/

namespace Sys2Proof.Machine

/-- The enable and the configuration of the ring are as they were (R168). -/
structure SameRing (s t : State) : Prop where
  en   : t.te.en = s.te.en
  circ : t.te.circ = s.te.circ
  dinc : t.te.dinc = s.te.dinc
  sfix : t.te.sfix = s.te.sfix
  src  : t.te.src = s.te.src
  dst  : t.te.dst = s.te.dst
  n    : t.te.n = s.te.n

theorem SameRing.of_te {s t : State} (h : t.te = s.te) : SameRing s t := by
  constructor <;> rw [h]

/-- A transfer in circular mode does not stop the engine (R162). -/
theorem Transferred.sameRing {s t : State} (f : Transferred s t) (hc : s.te.circ = true) : SameRing s t :=
  ⟨by simp [f.en, hc], f.circ, f.dinc, f.sfix, f.src, f.dst, f.n⟩

/-- What a step of a lap does to an enabled circular ring: the ring stays, and the step is a transfer or leaves cursor and
samples alone (R168). -/
theorem lap_step {i : Instr} {s t : State} (e : exec i s = .next t) (hk : keepsLap i = true) (he : s.te.en = true)
    (hc : s.te.circ = true) :
    SameRing s t ∧
      ((i = .xfer ∧ xferEnabled s = true) ∧ Transferred s t ∨
        ¬(i = .xfer ∧ xferEnabled s = true) ∧ t.te.cur = s.te.cur ∧ t.buf = s.buf) := by
  cases exec_effect e with
  | xfer _ hx _ => exact ⟨(transfer_spec s).sameRing hc, .inl ⟨⟨rfl, hx⟩, transfer_spec s⟩⟩
  | tick n =>
    have f := tickMany_frame s n.toNat
    exact ⟨.of_te f.te, .inr ⟨by simp, congrArg TransferEngine.cur f.te, f.buf⟩⟩
  | refused _ st _ hi =>
    refine ⟨.of_te rfl, .inr ⟨?_, rfl, rfl⟩⟩
    rintro ⟨rfl, hx⟩
    simp [enabled, hx] at hi
  | read _ r _ hi =>
    refine ⟨.of_te rfl, .inr ⟨?_, rfl, rfl⟩⟩
    rintro ⟨rfl, _⟩
    cases r <;> cases hi
  | mode _ _ hd | src _ _ hd | dst _ _ hd | capacity _ _ hd => simp [he] at hd
  | disable | stays | enable | reset => cases hk
  | _ => exact ⟨⟨rfl, rfl, rfl, rfl, rfl, rfl, rfl⟩, .inr ⟨by simp, rfl, rfl⟩⟩

/-- The transfers of a run are that of its first step, if it is one, and those of the rest. -/
theorem transfersMade_cons {i : Instr} {s u : State} (is : List Instr) (h : exec i s = .next u) :
    transfersMade (i :: is) s = (if i = .xfer ∧ xferEnabled s = true then 1 else 0) + transfersMade is u := by
  simp only [transfersMade, h]

/-- While a transfer is left to a half, the cursor stands outside the half (R70, R264). -/
theorem cursor_outside_of_transfersLeft {h : Half} {cur n : Nat} (hl : 0 < transfersLeft h cur n) :
    cur < h.first n ∨ h.first n + n / 2 ≤ cur := by
  cases h with
  | half0 =>
    right
    rw [transfersLeft] at hl
    split at hl
    · rwa [Half.first, Nat.zero_add]
    · cases hl
  | half1 => exact .inl (Nat.lt_of_sub_pos hl)

/-- The advance of the cursor takes one from the transfers left to a half; at the wrap none is left to half 0. -/
theorem transfersLeft_advance {h : Half} {cur n : Nat} (hn : 2 ≤ n) (hl : 0 < transfersLeft h cur n) :
    transfersLeft h cur n = transfersLeft h (if cur + 1 = n then 0 else cur + 1) n + 1 := by
  cases h with
  | half0 =>
    simp only [transfersLeft] at hl ⊢
    split_ifs at hl ⊢ <;> omega
  | half1 =>
    simp only [transfersLeft] at hl ⊢
    split_ifs <;> omega

/-- While a transfer is left to a half, the next one writes outside the half and takes one from those left (R70, R264). -/
theorem transfer_spares_half (h : Half) {s t : State} (hi : Inv s) (he : s.te.en = true) (hd : s.te.dinc = true)
    (f : Transferred s t) (hl : 0 < transfersLeft h s.te.cur.toNat s.te.n.toNat) :
    (∀ a ∈ halfSlots h s.te.dst.toNat s.te.n.toNat, t.buf.read a = s.buf.read a) ∧
      transfersLeft h s.te.cur.toNat s.te.n.toNat = transfersLeft h t.te.cur.toNat s.te.n.toNat + 1 := by
  obtain ⟨_, htwo, _⟩ := cfgValid_bounds (hi.valid he)
  refine ⟨fun a ha => ?_, ?_⟩
  · have hout := cursor_outside_of_transfersLeft hl
    rw [mem_halfSlots] at ha
    rw [f.buf, xferSlot, if_pos hd]
    exact Memory.read_write_other _ _ (by omega)
  · rw [f.cur_toNat (hi.cur_lt he)]
    exact transfersLeft_advance htwo hl

/-- Over a lap that makes no more transfers than are left to a half, the slots of the half keep their content
(R70, R264). -/
theorem half_stays {h : Half} {is : List Instr} {s t : State} (hi : Inv s) (he : s.te.en = true)
    (hc : s.te.circ = true) (hd : s.te.dinc = true) (hk : ∀ i ∈ is, keepsLap i = true) (e : runInstrs is s = .next t)
    (hl : transfersMade is s ≤ transfersLeft h s.te.cur.toNat s.te.n.toNat) :
    ∀ a ∈ halfSlots h s.te.dst.toNat s.te.n.toNat, t.buf.read a = s.buf.read a := by
  induction is generalizing s with
  | nil =>
    cases e
    exact fun _ _ => rfl
  | cons i is ih =>
    obtain ⟨u, hu, e⟩ := runInstrs_cons e
    obtain ⟨hki, hk⟩ := List.forall_mem_cons.mp hk
    obtain ⟨ring, step⟩ := lap_step hu hki he hc
    have rest := ih ((exec_effect hu).keeps_inv hi) (ring.en.trans he) (ring.circ.trans hc) (ring.dinc.trans hd) hk e
    rw [ring.dst, ring.n] at rest
    rw [transfersMade_cons is hu] at hl
    rcases step with ⟨hx, f⟩ | ⟨hx, hcur, hbuf⟩
    · rw [if_pos hx] at hl
      obtain ⟨spared, left⟩ := transfer_spares_half h hi he hd f (by omega)
      exact fun a ha => (rest (by omega) a ha).trans (spared a ha)
    · rw [if_neg hx, Nat.zero_add, ← hcur] at hl
      exact fun a ha => (rest hl a ha).trans (by rw [hbuf])

/-- Settles O28: at the midpoint N/2 transfers are left to half 0, at the wrap N/2 to half 1. -/
theorem reportedHalfStaysForHalfALap : Obligations.ReportedHalfStaysForHalfALap := by
  intro is s t hi he hc hd hk e hm
  obtain ⟨heven, _, _⟩ := cfgValid_bounds (hi.valid he)
  constructor
  · intro hcur
    refine half_stays hi he hc hd hk e ?_
    rw [transfersLeft, hcur, if_pos (Nat.le_refl _)]
    omega
  · intro hcur
    refine half_stays hi he hc hd hk e ?_
    rw [transfersLeft, hcur]
    exact hm

end Sys2Proof.Machine
end

section
/-! PROOFS. Decode and encode, and the rows of the opcode table (R80 to R87, R93). Every instruction is an RD, a WR, an RDS
or an event (`instr_cases`), and every word that decodes is the word of one (`decode_cases`), so each statement here has
these four cases. -/

namespace Sys2Proof

/-! ### The four forms -/

/-- Decoding of a word written from its fields, OP 0x3 (R85). -/
theorem decode_rds (c : Channel) (a : Data) : decode c (mkWord 0x3 0 a) = .ok (.rds a) := by
  simp [decode]

/-- On the `cmd` port OP 0xE is reserved (R86, R88). -/
theorem decode_event_on_cmd (a : RegAddr) (d : Data) : decode .cmd (mkWord 0xE a d) = .error .reservedOp := by
  simp [decode]

/-- A stimulus word may stand in a trace only (R86). -/
theorem wellFormed_eventOf (c : Channel) (e : Event) (d : Data) :
    (eventOf e d).wellFormed c = decide (c = .trace) := by
  cases c <;> simp [Instr.wellFormed, Instr.isCommand]

/-- A command may stand on both channels (R86). -/
theorem wellFormed_of_isCommand {i : Instr} (h : i.isCommand = true) (c : Channel) : i.wellFormed c = true := by
  cases c
  · exact h
  · rfl

@[simp] theorem isCommand_rdOf (r : Reg) : (rdOf r).isCommand = true := by simp [Instr.isCommand]

@[simp] theorem isCommand_wrOf (r : Reg) (d : Data) : (wrOf r d).isCommand = true := by simp [Instr.isCommand]

@[simp] theorem isCommand_rds (a : Data) : (Instr.rds a).isCommand = true := rfl

/-- An event whose DATA is no operand is the same step with DATA = 0 (R87). -/
theorem eventOf_ignored_data (e : Event) (d : Data) :
    eventOf e (if e = .tick ∨ e = .conv then d else 0) = eventOf e d := by cases e <;> rfl

@[simp] theorem takesData_rdOf (r : Reg) : (rdOf r).takesData = false := by cases r <;> rfl

@[simp] theorem takesData_wrOf (r : Reg) (d : Data) : (wrOf r d).takesData = true := by cases r <;> rfl

@[simp] theorem takesData_eventOf (e : Event) (d : Data) :
    (eventOf e d).takesData = decide (e = .tick ∨ e = .conv) := by cases e <;> rfl

/-! ### Round trips -/

/-- The word of a command decodes to it on both channels. -/
theorem decode_encode_of_isCommand {i : Instr} (h : i.isCommand = true) (c : Channel) : decode c (encode i) = .ok i := by
  rcases instr_cases i with ⟨r, rfl⟩ | ⟨r, d, rfl⟩ | ⟨a, rfl⟩ | ⟨e, d, rfl⟩
  · rw [encode_rdOf, decode_rd]
  · rw [encode_wrOf, decode_wr]
  · exact decode_rds c a
  · simp [Instr.isCommand] at h

/-- The word of an event decodes to it in a trace (R87). -/
theorem decode_encode_eventOf (e : Event) (d : Data) : decode .trace (encode (eventOf e d)) = .ok (eventOf e d) := by
  rw [encode_eventOf, decode_event, eventOf_ignored_data]

/-- The word of an event is refused on the `cmd` port (R86). -/
theorem decode_cmd_encode_eventOf (e : Event) (d : Data) :
    decode .cmd (encode (eventOf e d)) = .error .reservedOp := by
  rw [encode_eventOf, decode_event_on_cmd]

/-- What is no command is an event (R86). -/
theorem eventOf_of_not_isCommand {i : Instr} (h : i.isCommand = false) : ∃ e d, i = eventOf e d := by
  rcases instr_cases i with ⟨r, rfl⟩ | ⟨r, d, rfl⟩ | ⟨a, rfl⟩ | he
  · simp at h
  · simp at h
  · simp at h
  · exact he

/-- Settles O4: a command decodes from its word on both channels; an event does in a trace, and on `cmd` its OP is
reserved. -/
theorem decodeEncodeRoundTrip : Obligations.DecodeEncodeRoundTrip := by
  intro c i
  cases hc : i.isCommand with
  | true => simp [wellFormed_of_isCommand hc, decode_encode_of_isCommand hc]
  | false =>
    obtain ⟨e, d, rfl⟩ := eventOf_of_not_isCommand hc
    cases c with
    | cmd => simp [wellFormed_eventOf, decode_cmd_encode_eventOf]
    | trace => simp [wellFormed_eventOf, decode_encode_eventOf]

/-- The row mask keeps OP and ADDR of a word and makes its DATA 0 (R93). -/
theorem mask_eq_mkWord (w : Word) : w &&& 0xFFFF0000 = mkWord w.op w.addr 0 := by
  conv_lhs => rw [← mkWord_fields w]
  exact mkWord_mask _ _ _

/-- Settles O5: the register, the zero ADDR or the event found at ADDR leads back to ADDR, and OP and DATA are the
word's. -/
theorem encodeOfDecodedWordIsTheWord : Obligations.EncodeOfDecodedWordIsTheWord := by
  intro c w i h
  rw [mask_eq_mkWord]
  rcases decode_cases h with ⟨ho, r, hr, rfl⟩ | ⟨ho, r, hr, rfl⟩ | ⟨ho, ha, rfl⟩ | ⟨ho, _, e, he, rfl⟩
  · simp [encode_rdOf, addr_of_regAt hr, ho]
  · simp [encode_wrOf, addr_of_regAt hr, ← ho, mkWord_fields]
  · show mkWord 0x3 0 w.data = w
    rw [← ho, ← ha, mkWord_fields]
  · rw [encode_eventOf, id_of_eventAt he, ← ho, takesData_eventOf]
    by_cases hd : e = .tick ∨ e = .conv
    · simp [hd, mkWord_fields]
    · simp [hd]

/-- Settles O8: each word is a literal, and the decoder is run on it. -/
theorem wordsOfTheOpcodeMapDecode : Obligations.WordsOfTheOpcodeMapDecode := by
  unfold Obligations.WordsOfTheOpcodeMapDecode
  decide

/-! ### The rows of the opcode table -/

/-- The family of `TableWord` as one fact (R93). -/
theorem rows_of_encode : ∀ i : Instr, Laws.TableWord.Statement i
  | .rdTgCr => Laws.TableWord.rdTgCr
  | .wrTgCr d => Laws.TableWord.wrTgCr d
  | .rdTgPsc => Laws.TableWord.rdTgPsc
  | .wrTgPsc d => Laws.TableWord.wrTgPsc d
  | .rdTgArr => Laws.TableWord.rdTgArr
  | .wrTgArr d => Laws.TableWord.wrTgArr d
  | .rdSeCr => Laws.TableWord.rdSeCr
  | .wrSeCr d => Laws.TableWord.wrSeCr d
  | .rdSeDr => Laws.TableWord.rdSeDr
  | .wrSeDr d => Laws.TableWord.wrSeDr d
  | .rdTeEn => Laws.TableWord.rdTeEn
  | .wrTeEn d => Laws.TableWord.wrTeEn d
  | .rdTeCr => Laws.TableWord.rdTeCr
  | .wrTeCr d => Laws.TableWord.wrTeCr d
  | .rdTeSrc => Laws.TableWord.rdTeSrc
  | .wrTeSrc d => Laws.TableWord.wrTeSrc d
  | .rdTeDst => Laws.TableWord.rdTeDst
  | .wrTeDst d => Laws.TableWord.wrTeDst d
  | .rdTeN => Laws.TableWord.rdTeN
  | .wrTeN d => Laws.TableWord.wrTeN d
  | .rdCfSr => Laws.TableWord.rdCfSr
  | .wrCfSr d => Laws.TableWord.wrCfSr d
  | .rds a => Laws.TableWord.rds a
  | .tick n => Laws.TableWord.tick n
  | .conv v => Laws.TableWord.conv v
  | .xfer => Laws.TableWord.xfer
  | .ackHt => Laws.TableWord.ackHt
  | .ackTc => Laws.TableWord.ackTc
  | .ackTe => Laws.TableWord.ackTe
  | .ackFe => Laws.TableWord.ackFe
  | .ackDme => Laws.TableWord.ackDme
  | .errTe => Laws.TableWord.errTe
  | .errFe => Laws.TableWord.errFe
  | .errDme => Laws.TableWord.errDme
  | .reset => Laws.TableWord.reset

/-- A row covers a word that decodes exactly if it is the row of the instruction: no row tests a bit of DATA. -/
theorem covers_iff_of_decode {c : Channel} {w : Word} {i : Instr} (h : decode c w = .ok i) {r : OpcodeRow}
    (hr : r ∈ opcodeTable) : r.covers w = true ↔ r.mnemonic = i.mnemonic := by
  have same : w &&& 0xFFFF0000 = encode i &&& 0xFFFF0000 := by
    rw [encodeOfDecodedWordIsTheWord c w i h]
    split
    · rfl
    · rw [BitVec.and_assoc, BitVec.and_self]
  rw [← rows_of_encode i r hr, OpcodeRow.covers, OpcodeRow.covers, Laws.TableWord.all_masks r hr, same]

/-- Every instruction has a row, every command a row of the commands (R93). -/
theorem mnemonic_mem (i : Instr) :
    i.mnemonic ∈ opcodeTable.map OpcodeRow.mnemonic ∧
      (i.isCommand = true → i.mnemonic ∈ commandRows.map OpcodeRow.mnemonic) := by
  cases i <;> simp [Instr.mnemonic, Instr.isCommand, Instr.format, opcodeTable, commandRows, eventRows]

/-- Among rows of the table with different mnemonics, one of them the instruction's, exactly that one covers the word. -/
theorem covering_rows_of_decode {c : Channel} {w : Word} {i : Instr} (h : decode c w = .ok i) {rows : List OpcodeRow}
    (hsub : rows ⊆ opcodeTable) (hnodup : (rows.map OpcodeRow.mnemonic).Nodup)
    (hmem : i.mnemonic ∈ rows.map OpcodeRow.mnemonic) :
    (rows.filter (fun r => r.covers w)).map OpcodeRow.mnemonic = [i.mnemonic] := by
  have hrow : ∀ r ∈ rows, r.covers w = (r.mnemonic == i.mnemonic) := fun r hr => by
    rw [Bool.eq_iff_iff, covers_iff_of_decode h (hsub hr), beq_iff_eq]
  calc (rows.filter (fun r => r.covers w)).map OpcodeRow.mnemonic
      = (rows.filter (fun r => r.mnemonic == i.mnemonic)).map OpcodeRow.mnemonic := by rw [List.filter_congr hrow]
    _ = (rows.map OpcodeRow.mnemonic).filter (· == i.mnemonic) := by rw [List.filter_map]; rfl
    _ = [i.mnemonic] := by rw [List.filter_beq, List.count_eq_one_of_mem hnodup hmem, List.replicate_one]

/-- What decodes on the `cmd` port is a command (R86). -/
theorem isCommand_of_decode_cmd {w : Word} {i : Instr} (h : decode .cmd w = .ok i) : i.isCommand = true := by
  rcases decode_cases h with ⟨_, r, _, rfl⟩ | ⟨_, r, _, rfl⟩ | ⟨_, _, rfl⟩ | ⟨_, hc, _⟩
  · simp
  · simp
  · rfl
  · cases hc

/-- Settles O7: the mnemonics of the table are all different, those of the commands included. -/
theorem exactlyOneTableRowCoversADecodedWord : Obligations.ExactlyOneTableRowCoversADecodedWord := by
  intro c w i h
  refine ⟨covering_rows_of_decode h (List.Subset.refl _) (by decide) (mnemonic_mem i).1, ?_⟩
  rintro rfl
  exact covering_rows_of_decode h (List.subset_append_left _ _) (by decide)
    ((mnemonic_mem i).2 (isCommand_of_decode_cmd h))

end Sys2Proof
end

section
/-! PROOFS. What a step does with the word that comes next: the tests of R88 in their order, and the status of each
refusal (R88, R90, R231). -/

namespace Sys2Proof

/-! ### Fields as numbers -/

/-- The mapped addresses as numbers (R32). -/
theorem exists_reg_iff (a : RegAddr) :
    (∃ r : Reg, r.addr = a) ↔
      a.toNat ∈ [0x000, 0x001, 0x002, 0x010, 0x011, 0x020, 0x021, 0x022, 0x023, 0x024, 0x030] := by
  have hall : ∀ r : Reg, r ∈ Reg.all := fun r => by cases r <;> decide
  rw [show [0x000, 0x001, 0x002, 0x010, 0x011, 0x020, 0x021, 0x022, 0x023, 0x024, 0x030] =
    Reg.all.map (fun r => r.addr.toNat) from rfl]
  simp [hall, BitVec.toNat_inj]

/-- The event ids as numbers (R87). -/
theorem exists_event_iff (a : RegAddr) :
    (∃ e : Event, e.id = a) ↔ a.toNat ∈ [1, 2, 3, 4, 5, 6, 7, 8, 9, 10, 11, 15] := by
  have hall : ∀ e : Event, e ∈ Event.all := fun e => by cases e <;> decide
  rw [show [1, 2, 3, 4, 5, 6, 7, 8, 9, 10, 11, 15] = Event.all.map (fun e => e.id.toNat) from rfl]
  simp [hall, BitVec.toNat_inj]

/-- At an address that is no register's there is no register (R66). -/
theorem regAt_eq_none {a : RegAddr} (h : ¬ ∃ r : Reg, r.addr = a) : regAt a = none := by
  cases hr : regAt a with
  | none => rfl
  | some r => exact absurd ⟨r, addr_of_regAt hr⟩ h

/-- An id that is no event's is reserved (R87). -/
theorem eventAt_eq_none {a : RegAddr} (h : ¬ ∃ e : Event, e.id = a) : eventAt a = none := by
  cases he : eventAt a with
  | none => rfl
  | some e => exact absurd ⟨e, id_of_eventAt he⟩ h

/-! ### The tests of R88 -/

/-- The first test: OP is none of those in use on the channel. -/
theorem decode_of_reserved_op {c : Channel} {w : Word} (h : ¬(w.op = 0x1 ∨ w.op = 0x2 ∨ w.op = 0x3))
    (he : ¬(w.op = 0xE ∧ c = .trace)) : decode c w = .error .reservedOp := by
  obtain ⟨h1, h2, h3⟩ : w.op ≠ 0x1 ∧ w.op ≠ 0x2 ∧ w.op ≠ 0x3 := by simpa only [not_or] using h
  rw [decode, if_neg h1, if_neg h2, if_neg h3, if_neg he]

/-- RD or WR of an address that is not mapped. -/
theorem decode_of_unmapped (c : Channel) {w : Word} (h : w.op = 0x1 ∨ w.op = 0x2) (ha : ¬ ∃ r : Reg, r.addr = w.addr) :
    decode c w = .error (.unmappedRegister w.addr) := by
  rcases h with h | h <;> simp [decode, h, regAt_eq_none ha]

/-- RDS with a nonzero ADDR field. -/
theorem decode_of_slot_addr (c : Channel) {w : Word} (h : w.op = 0x3) (ha : w.addr ≠ 0#12) :
    decode c w = .error (.slotAddrField w.addr) := by
  simp [decode, h, ha]

/-- A stimulus word with an unknown id. -/
theorem decode_of_unknown_event {w : Word} (h : w.op = 0xE) (ha : ¬ ∃ e : Event, e.id = w.addr) :
    decode .trace w = .error (.unknownEvent w.addr) := by
  simp [decode, h, eventAt_eq_none ha]

/-- A WR of a mapped address. -/
theorem decode_of_wr (c : Channel) {w : Word} {r : Reg} (h : w.op = 0x2) (ha : r.addr = w.addr) :
    decode c w = .ok (wrOf r w.data) := by
  rw [← mkWord_fields w, h, ← ha, decode_wr, data_mkWord]

/-- Every word that no test refuses is an instruction (R88). -/
theorem exists_decode {c : Channel} {w : Word}
    (h : ((w.op = 0x1 ∨ w.op = 0x2) ∧ ∃ r : Reg, r.addr = w.addr) ∨ (w.op = 0x3 ∧ w.addr = 0) ∨
      (w.op = 0xE ∧ c = .trace ∧ ∃ e : Event, e.id = w.addr)) : ∃ i, decode c w = .ok i := by
  rcases h with ⟨ho | ho, r, hr⟩ | ⟨ho, ha⟩ | ⟨ho, rfl, e, he⟩
  · exact ⟨rdOf r, by rw [← mkWord_fields w, ho, ← hr, decode_rd]⟩
  · exact ⟨_, decode_of_wr c ho hr⟩
  · exact ⟨.rds w.data, by rw [← decode_rds c, ← ho, ← ha, mkWord_fields]⟩
  · exact ⟨eventOf e w.data, by rw [← decode_event, ← ho, he, mkWord_fields]⟩

end Sys2Proof

namespace Sys2Proof.Machine

/-! ### The step -/

/-- A word that does not decode changes the response word only, and answers ERR_OP or ERR_ADDR (R88, R231). -/
theorem rejectWord_eq (s : State) (e : DecodeError) :
    s.rejectWord e = s.withRsp (some (if e = .reservedOp ∨ e = .truncated then 0x10000000 else 0x20000000)) := by
  rw [State.rejectWord, refuse_eq]
  cases e <;> simp [statusOf]

/-- What step answers to a word that does not decode (R88). -/
theorem step_of_rejected {s : State} {c : Channel} {w : Word} {rest : List Arrival} {e : DecodeError}
    (hs : s.inbox = ⟨c, w⟩ :: rest) (hd : decode c w = .error e) :
    step s = .next { s with
      inbox := rest
      rsp := some (if e = .reservedOp ∨ e = .truncated then 0x10000000 else 0x20000000) } := by
  rw [step_of_decode_error hs hd, rejectWord_eq]
  rfl

/-- Settles O3: the three cases of the inbox and the decoder. -/
theorem stepExecutesTheDecodedWord : Obligations.StepExecutesTheDecodedWord :=
  ⟨fun _ _ _ _ _ hs hd => step_of_decode_ok hs hd, fun _ _ _ _ _ => step_of_rejected, fun _ => step_of_no_word⟩

/-- Settles O6: OP and ADDR as numbers select the test of R88 that refuses the word, or none, and then it decodes. -/
theorem everyWordHasADefinedOutcome : Obligations.EveryWordHasADefinedOutcome := by
  constructor
  · intro s c w rest hs
    have op1 : w.toNat / 2 ^ 28 = 1 ↔ w.op = 0x1 := (op_eq_iff w 0x1).symm
    have op2 : w.toNat / 2 ^ 28 = 2 ↔ w.op = 0x2 := (op_eq_iff w 0x2).symm
    have op3 : w.toNat / 2 ^ 28 = 3 ↔ w.op = 0x3 := (op_eq_iff w 0x3).symm
    have opE : w.toNat / 2 ^ 28 = 0xE ↔ w.op = 0xE := (op_eq_iff w 0xE).symm
    have addr0 : w.addr.toNat = 0 ↔ w.addr = 0#12 := by rw [← BitVec.toNat_inj]; rfl
    have addrSeDr : w.addr.toNat = 0x011 ↔ Reg.addr .seDr = w.addr := by rw [eq_comm, ← BitVec.toNat_inj]; rfl
    simp only [← addr_toNat, ← exists_reg_iff, ← exists_event_iff]
    simp only [List.mem_cons, List.not_mem_nil, or_false, op1, op2, op3, opE, ne_eq, addr0, addrSeDr]
    refine ⟨fun ⟨h, he⟩ => step_of_rejected hs (decode_of_reserved_op h he),
      fun ⟨h, ha⟩ => step_of_rejected hs (decode_of_unmapped c h ha),
      fun ⟨h, ha⟩ => step_of_rejected hs (decode_of_slot_addr c h ha), ?_,
      fun ⟨h, ha⟩ => step_of_decode_ok hs (decode_of_wr c h ha), fun h => ?_⟩
    · rintro ⟨h, rfl, ha⟩
      exact step_of_rejected hs (decode_of_unknown_event h ha)
    · obtain ⟨i, hd⟩ := exists_decode h
      exact ⟨i, hd, step_of_decode_ok hs hd⟩
  · intro s c rest w hw hs
    have ho : w.op = 0x0 ∨ w.op = 0xF := by rcases hw with rfl | rfl <;> decide
    have hd : decode c w = .error .reservedOp := by
      apply decode_of_reserved_op <;> rcases ho with ho | ho <;> simp [ho]
    exact step_of_rejected hs hd

end Sys2Proof.Machine
end

section
/-! PROOFS. The status of a response: which step answers which (R231), and that a refused one has no other effect (R86,
R233). -/

namespace Sys2Proof.Machine

/-- The status the rule of an enabled step names (R231). -/
def ruleStatus (i : Instr) (s : State) : Status :=
  match i with
  | .wrSeDr _ => .errAccess
  | .wrTgPsc _ | .wrTgArr _ => if s.tg.run then .errBusy else .ok
  | .wrTeCr _ | .wrTeSrc _ | .wrTeDst _ | .wrTeN _ => if s.te.en then .errBusy else .ok
  | .wrTeEn d => if dataBit d 0 && !s.te.en && !cfgValid s.te then .errCfg else .ok
  | _ => .ok

/-- The status a step answers: NOTEN if it is not enabled, else that of its rule (R86, R231). -/
def answerStatus (i : Instr) (s : State) : Status := if enabled i s then ruleStatus i s else .noten

/-- The status field tells the statuses apart (R90). -/
theorem code_toNat_inj {a b : Status} : a.code.toNat = b.code.toNat ↔ a = b := by
  cases a <;> cases b <;> decide

theorem answerStatus_eq_iff {i : Instr} {s : State} {st : Status} :
    answerStatus i s = st ↔ enabled i s = true ∧ ruleStatus i s = st ∨ enabled i s = false ∧ .noten = st := by
  simp [answerStatus, ite_eq_iff]

theorem answerStatus_eq_errAccess_iff {i : Instr} {s : State} :
    answerStatus i s = .errAccess ↔ ∃ d, i = .wrSeDr d := by
  rw [answerStatus_eq_iff]
  cases i <;> simp [ruleStatus, enabled, ite_eq_iff]

theorem answerStatus_eq_errBusy_iff {i : Instr} {s : State} :
    answerStatus i s = .errBusy ↔ (∃ d, i = .wrTgPsc d ∨ i = .wrTgArr d) ∧ s.tg.run = true ∨
      (∃ d, i = .wrTeCr d ∨ i = .wrTeSrc d ∨ i = .wrTeDst d ∨ i = .wrTeN d) ∧ s.te.en = true := by
  rw [answerStatus_eq_iff]
  cases i <;> simp [ruleStatus, enabled, ite_eq_iff]

theorem answerStatus_eq_errCfg_iff {i : Instr} {s : State} :
    answerStatus i s = .errCfg ↔
      (∃ d : Data, i = .wrTeEn d ∧ d.toNat % 2 = 1) ∧ s.te.en = false ∧ cfgValid s.te = false := by
  rw [answerStatus_eq_iff]
  cases i <;> simp [ruleStatus, enabled, ite_eq_iff, dataBit_zero, and_assoc]

theorem answerStatus_eq_noten_iff {i : Instr} {s : State} : answerStatus i s = .noten ↔ enabled i s = false := by
  rw [answerStatus_eq_iff]
  cases i <;> simp [ruleStatus, enabled, ite_eq_iff]

/-- ERR_OP and ERR_ADDR are left to words that do not decode (R231). -/
theorem answerStatus_mem (i : Instr) (s : State) :
    answerStatus i s ∈ [Status.ok, .errAccess, .errBusy, .errCfg, .noten] := by
  unfold answerStatus ruleStatus
  repeat' split
  all_goals decide

/-- A step answers OK, with some data, or refuses with its status. -/
theorem Effect.answer {i : Instr} {s t : State} (h : Effect i s t) :
    (answerStatus i s = .ok ∧ ∃ d, t.rsp = some (responseWord .ok d)) ∨ t = s.refuse (answerStatus i s) := by
  cases h with
  | refused _ st _ hi =>
    have hst : answerStatus i s = st := by
      rcases hi with ⟨rfl, h⟩ | ⟨rfl, h⟩ | ⟨rfl, h⟩ | ⟨rfl, ⟨d, hi, hd⟩, h⟩ | ⟨rfl, h⟩
      · exact answerStatus_eq_errAccess_iff.mpr h
      · exact answerStatus_eq_errBusy_iff.mpr (.inl h)
      · exact answerStatus_eq_errBusy_iff.mpr (.inr h)
      · exact answerStatus_eq_errCfg_iff.mpr ⟨⟨d, hi, by simpa [dataBit_zero] using hd⟩, h⟩
      · exact answerStatus_eq_noten_iff.mpr h
    exact .inr (by rw [hst])
  | read _ r _ hi =>
    subst hi
    exact .inl ⟨by cases r <;> rfl, _, rfl⟩
  | _ => exact .inl ⟨by simp_all [answerStatus, ruleStatus, enabled, convEnabled], _, rfl⟩

/-- The response of a step carries its status, and no data unless the status is OK (R81, R90). -/
theorem exec_rsp {i : Instr} {s t : State} (h : exec i s = .next t) :
    ∃ d, t.rsp = some (responseWord (answerStatus i s) d) ∧ (answerStatus i s ≠ .ok → d = 0) := by
  rcases (exec_effect h).answer with ⟨ok, d, hd⟩ | refused
  · exact ⟨d, by rw [hd, ok], fun hne => absurd ok hne⟩
  · exact ⟨0, by rw [refused]; rfl, fun _ => rfl⟩

/-- Settles O39: the status field holds the code of `answerStatus`, whose cases are those of R231. -/
theorem statusCauses : Obligations.StatusCauses := by
  intro i s t h
  obtain ⟨d, hw, hd⟩ := exec_rsp h
  have code {st : Status} (k : Nat) (hk : st.code.toNat = k) :
      (responseWord (answerStatus i s) d).toNat / 2 ^ 28 = k ↔ answerStatus i s = st := by
    rw [status_responseWord, ← hk, code_toNat_inj]
  refine ⟨_, hw, (code 3 rfl).trans answerStatus_eq_errAccess_iff, (code 4 rfl).trans answerStatus_eq_errBusy_iff,
    (code 5 rfl).trans answerStatus_eq_errCfg_iff, (code 7 rfl).trans answerStatus_eq_noten_iff, ?_, fun hne => ?_, ?_⟩
  · rw [status_responseWord]
    exact List.mem_map_of_mem (f := fun st : Status => st.code.toNat) (answerStatus_mem i s)
  · rw [low_responseWord, hd fun ok => hne ((code 0 rfl).mpr ok)]
    rfl
  · rw [← addr_toNat, responseWord, addr_mkWord]
    rfl

/-- Settles O40: a step whose status is not OK is its refusal, which writes the response word only. -/
theorem refusedCommandsHaveNoEffect : Obligations.RefusedCommandsHaveNoEffect := by
  intro i s t w h hw hne
  rcases (exec_effect h).answer with ⟨_, d, hd⟩ | refused
  · obtain rfl := Option.some.inj (hw.symm.trans hd)
    exact absurd (status_responseWord .ok d) hne
  · obtain rfl := Option.some.inj (hw.symm.trans (congrArg State.rsp refused))
    have low : (responseWord (answerStatus i s) 0).toNat % 2 ^ 28 = 0 := low_responseWord _ _
    exact ⟨refused, by omega⟩

end Sys2Proof.Machine
end

section
/-! PROOFS. The assembler reads what it writes (R91, R92): the tokens of a statement's text are those it was written
from, and they lead back to the statement. -/

namespace Sys2Proof.Machine

/-! ### Tokens -/

/-- A character that stands inside a token: it parts nothing, and begins neither a comment nor an arrow (R91). -/
def tokenChar (c : Char) : Bool := !isBlank c && c != ',' && c != ';' && c != '-'

/-- What can be written as one token: a comma, or some characters that part nothing. -/
def IsToken (t : List Char) : Prop := t = [','] ∨ t ≠ [] ∧ ∀ c ∈ t, tokenChar c = true

/-- Characters that part nothing are gathered (R91). -/
theorem tokensFrom_gather {t : List Char} (h : ∀ c ∈ t, tokenChar c = true) (acc cs : List Char) :
    tokensFrom acc (t ++ cs) = tokensFrom (acc ++ t) cs := by
  induction t generalizing acc with
  | nil => simp
  | cons c t ih =>
    obtain ⟨hc, ht⟩ := List.forall_mem_cons.mp h
    simp only [tokenChar, Bool.and_eq_true, Bool.not_eq_true', bne_iff_ne] at hc
    obtain ⟨⟨⟨hb, hcomma⟩, _⟩, _⟩ := hc
    rw [List.cons_append, tokensFrom, if_neg (by simp [hb]), if_neg hcomma, ih ht, List.append_assoc,
      List.singleton_append]

/-- The text of tokens that follow others. -/
def tokensText (ts : List (List Char)) : List Char :=
  (ts.map (fun u => if u = [','] then u else ' ' :: u)).flatten

theorem tokensText_cons (t : List Char) (ts : List (List Char)) :
    tokensText (t :: ts) = (if t = [','] then t else ' ' :: t) ++ tokensText ts := rfl

theorem flushToken_of_ne_nil {t : List Char} (h : t ≠ []) : flushToken t = [t] := by
  simp [flushToken, h]

/-- Tokens that follow a token are read back after it. -/
theorem tokensFrom_tokensText {ts : List (List Char)} (h : ∀ t ∈ ts, IsToken t) (acc : List Char) :
    tokensFrom acc (tokensText ts) = flushToken acc ++ ts := by
  induction ts generalizing acc with
  | nil => simp [tokensText, tokensFrom]
  | cons t ts ih =>
    obtain ⟨ht, hts⟩ := List.forall_mem_cons.mp h
    rw [tokensText_cons]
    rcases ht with rfl | ⟨hne, hc⟩
    · simp [tokensFrom, isBlank, ih hts, flushToken]
    · have hcomma : t ≠ [','] := by
        rintro rfl
        simp [tokenChar] at hc
      have hblank : isBlank ' ' = true := rfl
      rw [if_neg hcomma, List.cons_append, tokensFrom, if_pos hblank, tokensFrom_gather hc, List.nil_append, ih hts,
        flushToken_of_ne_nil hne, List.singleton_append]

/-! ### The tokens of a statement -/

/-- `#` and digits part nothing. -/
theorem isToken_immText (v : Nat) : IsToken (immText v) := by
  refine .inr ⟨by simp [immText], fun c hc => ?_⟩
  rcases List.mem_cons.mp hc with rfl | hc
  · rfl
  · obtain ⟨d, hd, rfl⟩ := List.mem_map.mp hc
    obtain ⟨_, _, h1, h2, h3, h4⟩ := digitChar_spec ((digitsWithin_spec (Nat.lt_succ_self v)).1 d hd)
    simp [tokenChar, h1, h2, h3, h4]

/-- A name as one token. -/
theorem isToken_of_all {t : List Char} (h : (!t.isEmpty && t.all tokenChar) = true) : IsToken t := by
  simp only [Bool.and_eq_true, Bool.not_eq_true', List.isEmpty_eq_false_iff, List.all_eq_true] at h
  exact .inr h

theorem isToken_regName (r : Reg) : IsToken (regName r).toList := isToken_of_all (by cases r <;> rfl)

theorem isToken_eventName (e : Event) : IsToken (eventName e).toList := isToken_of_all (by cases e <;> rfl)

/-- A statement is written in tokens: names, commas and immediates (R91, R92). -/
theorem isToken_stmtTokens (st : AsmStmt) : ∀ t ∈ stmtTokens st, IsToken t := by
  have comma : IsToken [','] := .inl rfl
  cases st <;> simp only [stmtTokens, List.mem_cons, forall_eq_or_imp, List.not_mem_nil, false_imp_iff, implies_true,
    isToken_immText, isToken_regName, isToken_eventName, comma, and_true]
  all_goals exact isToken_of_all (by rfl)

theorem exists_stmtTokens (st : AsmStmt) : ∃ t ts, stmtTokens st = t :: ts := by
  cases st <;> exact ⟨_, _, rfl⟩

/-- The text of a statement, token by token. -/
theorem stmtText_of_tokens {st : AsmStmt} {t : List Char} {ts : List (List Char)} (h : stmtTokens st = t :: ts) :
    stmtText st = t ++ tokensText ts := by
  rw [stmtText, h]
  rfl

/-- The tokens of the text of a statement are those it was written from (R91). -/
theorem tokensFrom_stmtText (st : AsmStmt) : tokensFrom [] (stmtText st) = stmtTokens st := by
  obtain ⟨t, ts, h⟩ := exists_stmtTokens st
  obtain ⟨ht, hts⟩ := List.forall_mem_cons.mp (h ▸ isToken_stmtTokens st)
  rw [stmtText_of_tokens h, h]
  rcases ht with rfl | ⟨hne, hc⟩
  · simp [tokensFrom, isBlank, tokensFrom_tokensText hts, flushToken]
  · rw [tokensFrom_gather hc, List.nil_append, tokensFrom_tokensText hts, flushToken_of_ne_nil hne,
      List.singleton_append]

theorem regNamed_regName (r : Reg) : regNamed (regName r).toList = some r := by
  cases r <;> decide

/-- The tokens of a well-formed statement lead back to it (R91, R92). -/
theorem stmtOfTokens_stmtTokens {st : AsmStmt} (h : st.wellFormed = true) : stmtOfTokens (stmtTokens st) = some st := by
  cases st with
  | plain e =>
    cases e with
    | tick | conv => cases h
    | _ => rfl
  | start | stop | arm | enable | disable | poll | clrh | clrf => rfl
  | _ => simp [stmtTokens, stmtOfTokens, regNamed_regName, immediate_immText]

/-! ### The line -/

theorem mem_tokensText {ts : List (List Char)} {c : Char} (hc : c ∈ tokensText ts) : c = ' ' ∨ ∃ t ∈ ts, c ∈ t := by
  simp only [tokensText, List.mem_flatten, List.mem_map] at hc
  obtain ⟨_, ⟨t, ht, rfl⟩, hc⟩ := hc
  split at hc
  · exact .inr ⟨t, ht, hc⟩
  · exact (List.mem_cons.mp hc).imp_right fun hc => ⟨t, ht, hc⟩

/-- No token holds the beginning of a comment or of an arrow. -/
theorem IsToken.plain {t : List Char} (h : IsToken t) {c : Char} (hc : c ∈ t) : c ≠ ';' ∧ c ≠ '-' := by
  rcases h with rfl | ⟨_, h⟩
  · obtain rfl := List.mem_singleton.mp hc
    decide
  · have hchar := h c hc
    simp only [tokenChar, Bool.and_eq_true, bne_iff_ne] at hchar
    obtain ⟨⟨_, hcomment⟩, harrow⟩ := hchar
    exact ⟨hcomment, harrow⟩

/-- The text of a statement holds neither a comment nor an arrow (R91). -/
theorem stmtText_plain {st : AsmStmt} {c : Char} (hc : c ∈ stmtText st) : c ≠ ';' ∧ c ≠ '-' := by
  obtain ⟨t, ts, h⟩ := exists_stmtTokens st
  obtain ⟨ht, hts⟩ := List.forall_mem_cons.mp (h ▸ isToken_stmtTokens st)
  rw [stmtText_of_tokens h] at hc
  rcases List.mem_append.mp hc with hc | hc
  · exact ht.plain hc
  · rcases mem_tokensText hc with rfl | ⟨u, hu, hc⟩
    · decide
    · exact (hts u hu).plain hc

theorem splitArrow_of_no_dash {cs : List Char} (h : ∀ c ∈ cs, c ≠ '-') : splitArrow cs = (cs, none) := by
  induction cs with
  | nil => rfl
  | cons c cs ih =>
    obtain ⟨hc, hcs⟩ := List.forall_mem_cons.mp h
    rw [splitArrow, ih hcs]
    exact fun _ hd _ => hc hd

/-- A line that is the text of a well-formed statement is read as that statement (R91). -/
theorem readLine_stmtText {st : AsmStmt} (h : st.wellFormed = true) :
    readLine (stmtText st) = some ⟨some st, none⟩ := by
  have whole : (stmtText st).takeWhile (fun c => c != ';') = stmtText st :=
    List.takeWhile_eq_self_iff.mpr fun c hc => bne_iff_ne.mpr (stmtText_plain hc).1
  obtain ⟨t, ts, ht⟩ := exists_stmtTokens st
  simp only [readLine, whole, splitArrow_of_no_dash fun c hc => (stmtText_plain hc).2, tokensFrom_stmtText, ht]
  rw [← ht, stmtOfTokens_stmtTokens h]
  simp [h]

/-- Settles O54: the text is read back token by token, and `assemble` asks for the immediates' range first. -/
theorem assemblerReadsWhatItWrites : Obligations.AssemblerReadsWhatItWrites :=
  ⟨fun _ h => ⟨readLine_stmtText h, if_pos h⟩, fun st h => if_neg (by simp [h])⟩

/-- Settles O55: the operands are in range, so narrowing them to 16 bits changes nothing. -/
theorem pseudoInstructionExpansions : Obligations.PseudoInstructionExpansions := by
  refine ⟨rfl, rfl, rfl, rfl, rfl, rfl, rfl, rfl, fun x y => ?_⟩
  simp [expand, ringCommands]

end Sys2Proof.Machine
end

section
/-! PROOFS. The Trigger Generator (R110 to R121): its registers, its tick, and the period law. The law is one conserved
quantity: the ticks counted since power-on, P per pulse and then the phase, grow by one with each tick. -/

namespace Sys2Proof.Machine

/-! ### The period law -/

/-- A running counter within its configuration (R23). -/
structure Counting (s : State) : Prop where
  run     : s.tg.run = true
  pcnt_le : s.tg.pcnt ≤ s.tg.psc
  cnt_le  : s.tg.cnt ≤ s.tg.arr

/-- The ticks of a counter of constant period: P for each pulse given, and the phase (R118). -/
def ticksCounted (s : State) : Nat := period s.tg * s.trigOut + phase s.tg

theorem Counting.tickOnce {s : State} (h : Counting s) : Counting s.tickOnce :=
  have ⟨hp, hc⟩ := tickOnce_counters h.pcnt_le h.cnt_le
  ⟨(tickOnce_frame s).run.trans h.run, hp, hc⟩

/-- Ticks write neither PSC nor ARR. -/
theorem TickFrame.period_eq {s t : State} (f : TickFrame s t) : period t.tg = period s.tg := by
  rw [period, period, f.psc, f.arr]

/-- The wrap gives up a phase of P − 1 for one pulse. -/
theorem ticksCounted_tickOnce {s : State} (h : Counting s) : ticksCounted s.tickOnce = ticksCounted s + 1 := by
  rw [ticksCounted, ticksCounted, (tickOnce_frame s).period_eq]
  rcases tickOnce_phase h.run h.pcnt_le h.cnt_le with ⟨_, hphase, hpulse⟩ | ⟨hlast, hphase, hpulse⟩
  · rw [hphase, hpulse, Nat.add_assoc]
  · rw [hphase, hpulse, Nat.mul_add_one, Nat.add_assoc _ _ 1, hlast, Nat.add_zero]

theorem counting_tickMany {s : State} (h : Counting s) (n : Nat) :
    Counting (s.tickMany n) ∧ ticksCounted (s.tickMany n) = ticksCounted s + n := by
  induction n generalizing s with
  | zero => exact ⟨h, rfl⟩
  | succ n ih =>
    rw [State.tickMany, if_pos h.run]
    obtain ⟨hk, hn⟩ := ih h.tickOnce
    exact ⟨hk, by rw [hn, ticksCounted_tickOnce h]; omega⟩

/-- A run of TICK steps: the counter runs on with its period, and every tick is counted. -/
theorem counting_run {ns : List Data} {s t : State} (h : Counting s) (e : runInstrs (ns.map .tick) s = .next t) :
    Counting t ∧ period t.tg = period s.tg ∧ ticksCounted t = ticksCounted s + (ns.map BitVec.toNat).sum := by
  induction ns generalizing s with
  | nil =>
    cases e
    exact ⟨h, rfl, rfl⟩
  | cons n ns ih =>
    obtain ⟨u, hu, hrest⟩ := runInstrs_cons e
    cases hu
    obtain ⟨hk, hn⟩ := counting_tickMany h n.toNat
    obtain ⟨ht, hperiod, hticks⟩ := ih (s := (s.tickMany n.toNat).done) ⟨hk.run, hk.pcnt_le, hk.cnt_le⟩ hrest
    refine ⟨ht, hperiod.trans (tickMany_frame s n.toNat).period_eq, hticks.trans ?_⟩
    rw [List.map_cons, List.sum_cons, ← Nat.add_assoc, ← hn]
    rfl

theorem period_pos (tg : TriggerGen) : 0 < period tg := Nat.mul_pos (Nat.succ_pos _) (Nat.succ_pos _)

theorem period_le (tg : TriggerGen) : period tg ≤ 2 ^ 32 :=
  Nat.le_trans (Nat.mul_le_mul tg.psc.isLt tg.arr.isLt) (by decide)

/-- Settles O18: divided by P, the ticks counted leave the phase, and their quotient is the number of pulses. -/
theorem periodLaw : Obligations.PeriodLaw := by
  refine ⟨fun s t ns hr hp hc e => ?_, fun tg => ⟨rfl, period_pos tg, period_le tg, rfl, fun _ => rfl⟩⟩
  obtain ⟨ht, hperiod, hticks⟩ := counting_run ⟨hr, hp, hc⟩ e
  have hlt := phase_lt_period ht.pcnt_le ht.cnt_le
  rw [ticksCounted, ticksCounted, Nat.add_assoc, hperiod] at hticks
  rw [hperiod] at hlt
  refine ⟨phase_lt_period hp hc, hperiod, ?_, ?_⟩
  · have hmod := congrArg (· % period s.tg) hticks
    simpa [Nat.mul_add_mod, Nat.mod_eq_of_lt hlt] using hmod
  · have hdiv := congrArg (· / period s.tg) hticks
    simpa [Nat.mul_add_div (period_pos s.tg), Nat.div_eq_of_lt hlt] using hdiv

/-! ### The tick -/

/-- A counter below its bound counts without wrapping. -/
theorem toNat_add_one_of_lt {a b : Data} (h : a.toNat < b.toNat) : (a + 1).toNat = a.toNat + 1 := by
  have := b.isLt
  rw [BitVec.toNat_add]
  simp
  omega

/-- Settles O16: the early end of `tickMany` changes nothing, and the four cases are those of `tickOnce_cases`. -/
theorem tickCountsAndEmits : Obligations.TickCountsAndEmits := by
  refine ⟨hasWord_event .tick, fun s n => by rw [← tickMany_eq_iterate]; rfl,
    fun s => ⟨tickOnce_stopped, ?_, ?_, ?_⟩⟩
  · intro hr hp
    refine ⟨_, toNat_add_one_of_lt hp, ?_⟩
    simp [State.tickOnce, hr, BitVec.lt_def, hp]
  · intro hr hp hc
    refine ⟨_, toNat_add_one_of_lt hc, ?_⟩
    simp [State.tickOnce, hr, BitVec.lt_def, Nat.not_lt.mpr hp, hc]
  · intro hr hp hc
    simp [State.tickOnce, hr, BitVec.lt_def, Nat.not_lt.mpr hp, Nat.not_lt.mpr hc]

/-- Settles O19: of all effects only a tick's can add a pulse or start a conversion, and its frame says when. -/
theorem onlyARunningTickEmitsATrigger : Obligations.OnlyARunningTickEmitsATrigger := by
  intro i s t h
  cases exec_effect h with
  | tick n =>
    have f := tickMany_frame s n.toNat
    refine ⟨fun hne => ⟨n, rfl, f.pulse hne, Nat.lt_of_le_of_ne f.pulses (Ne.symm hne)⟩, fun hidle hbusy => ?_⟩
    obtain ⟨harm, hrun⟩ := f.starts hidle hbusy
    exact ⟨n, rfl, hrun, harm⟩
  | xfer =>
    have f := transfer_spec s
    refine ⟨fun hne => absurd f.pulse hne, fun hidle hbusy => ?_⟩
    rw [f.se, hidle] at hbusy
    cases hbusy
  | reset => exact ⟨fun hne => absurd rfl hne, fun _ hbusy => by cases hbusy⟩
  | _ => exact ⟨fun hne => absurd rfl hne, fun hidle hbusy => by simp [hidle] at hbusy⟩

/-! ### The registers -/

/-- The word of an RD: 0x1, the register's address, any DATA (R80, R83). -/
theorem hasWord_rd (r : Reg) : HasWord (0x1#4 ++ r.addr) (fun _ => rdOf r) := fun d =>
  ⟨decode_rd .trace r d, fun _ => decode_rd .cmd r d⟩

/-- The word of a WR: 0x2, the register's address, the value as DATA (R80, R83). -/
theorem hasWord_wr (r : Reg) : HasWord (0x2#4 ++ r.addr) (wrOf r) := fun d =>
  ⟨decode_wr .trace r d, fun _ => decode_wr .cmd r d⟩

/-- What every RD does (R65). -/
theorem exec_rdOf (r : Reg) (s : State) : exec (rdOf r) s = .next (s.withRsp (some ((readReg s r).setWidth 32))) := by
  rw [← answerReg_eq]
  cases r <;> rfl

/-- Settles O10: each is the RD of its register, and the run bit is the number 0 or 1. -/
theorem triggerRegisterReads : Obligations.TriggerRegisterReads := by
  refine ⟨hasWord_rd .tgCr, hasWord_rd .tgPsc, hasWord_rd .tgArr,
    fun s => ⟨(exec_rdOf .tgCr s).trans ?_, exec_rdOf .tgPsc s, exec_rdOf .tgArr s⟩⟩
  cases hr : s.tg.run <;> simp [readReg, bit, hr]

/-- Settles O14: DATA[0] is the parity of DATA. -/
theorem triggerStartStop : Obligations.TriggerStartStop := by
  refine ⟨hasWord_wr .tgCr, fun s d => ?_⟩
  simp [exec, execWrTgCr, dataBit_zero, done_eq, State.withRsp]

/-- Settles O15: both writes test the run bit and nothing else. -/
theorem periodWritesOnlyWhileStopped : Obligations.PeriodWritesOnlyWhileStopped := by
  refine ⟨hasWord_wr .tgPsc, hasWord_wr .tgArr, fun s d => ⟨fun hr => ⟨?_, ?_⟩, fun hr => ⟨?_, ?_⟩⟩⟩
  · simp [exec, execWrTgPsc, hr, done_eq, State.withRsp]
  · simp [exec, execWrTgArr, hr, done_eq, State.withRsp]
  · simp [exec, execWrTgPsc, hr, refuse_eq]
  · simp [exec, execWrTgArr, hr, refuse_eq]

end Sys2Proof.Machine
end

section
/-! PROOFS. The Sampling Engine boundary stub (R130 to R137): its registers, the trigger it receives, and CONV. -/

namespace Sys2Proof.Machine

/-! ### The registers -/

/-- Appending shifts the upper field past the lower one. -/
theorem toNat_append_eq_mul_add {m n : Nat} (x : BitVec m) (y : BitVec n) :
    (x ++ y).toNat = x.toNat * 2 ^ n + y.toNat := by
  rw [BitVec.toNat_append, ← Nat.shiftLeft_add_eq_or_of_lt y.isLt, Nat.shiftLeft_eq]

/-- SE_CR as a number: its fields at bits 10:8, 7:4, 1 and 0 (R36). -/
theorem toNat_readReg_seCr (s : State) :
    (readReg s .seCr).toNat =
      2 ^ 8 * s.se.smp.toNat + 2 ^ 4 * s.se.ch.toNat + 2 * s.se.edge.toNat + s.se.arm.toNat := by
  simp only [readReg, bit, toNat_append_eq_mul_add, BitVec.toNat_ofBool, BitVec.toNat_ofNat]
  omega

/-- CH is DATA[7:4] (R36). -/
theorem toNat_dataCh (d : Data) : (dataCh d).toNat = d.toNat / 2 ^ 4 % 2 ^ 4 := by
  rw [dataCh, BitVec.extractLsb'_toNat, Nat.shiftRight_eq_div_pow]

/-- SMP is DATA[10:8] (R36). -/
theorem toNat_dataSmp (d : Data) : (dataSmp d).toNat = d.toNat / 2 ^ 8 % 2 ^ 3 := by
  rw [dataSmp, BitVec.extractLsb'_toNat, Nat.shiftRight_eq_div_pow]

/-- Settles O11: each is the RD of its register, and the halfword of SE_CR stays the same number in the response. -/
theorem samplingRegisterReads : Obligations.SamplingRegisterReads := by
  refine ⟨hasWord_rd .seCr, hasWord_rd .seDr, fun s => ⟨_, exec_rdOf .seCr s, ?_⟩, exec_rdOf .seDr⟩
  rw [BitVec.toNat_setWidth_of_le (by decide), toNat_readReg_seCr]

/-- Settles O20: WR SE_CR has one effect in every state, the bits of DATA as numbers; WR SE_DR is refused at once. -/
theorem samplingRegisterWrites : Obligations.SamplingRegisterWrites := by
  refine ⟨hasWord_wr .seCr, hasWord_wr .seDr, fun s d =>
    ⟨⟨dataCh d, dataSmp d, toNat_dataCh d, toNat_dataSmp d, ?_⟩, ?_⟩⟩
  · simp [exec, execWrSeCr, dataBit_eq, done_eq, State.withRsp]
  · simp [exec, execWrSeDr, refuse_eq]

/-! ### The trigger and the conversion -/

/-- Settles O17: the pulse comes first, and the three clauses are the three cases of the reception after it. -/
theorem triggerReception : Obligations.TriggerReception := by
  intro s
  rcases receiveTrigger_cases { s with trigOut := s.trigOut + 1 } with
    ⟨(ha : s.se.arm = false), e⟩ | ⟨(ha : s.se.arm = true), (hb : s.se.busy = false), e⟩ |
    ⟨(ha : s.se.arm = true), (hb : s.se.busy = true), e⟩
  · exact ⟨by simp [ha], by simp [ha], fun _ => e⟩
  · exact ⟨fun _ _ => e, by simp [hb], by simp [ha]⟩
  · exact ⟨by simp [hb], fun _ _ => e, by simp [ha]⟩

/-- Settles O21: CONV is enabled exactly while a conversion is in progress. -/
theorem conversionCompletes : Obligations.ConversionCompletes := by
  refine ⟨hasWord_event .conv, fun s v => ⟨fun hb => ?_, fun hb => ?_⟩⟩
  · simp [exec, execConv, convEnabled, hb, State.completeConversion, done_eq, State.withRsp]
  · simp [exec_of_not_enabled (i := .conv v) hb, notEnabled_eq]

end Sys2Proof.Machine
end

section
/-! PROOFS. The Transfer Engine (R150 to R168): the cursor law, the transfer, its registers, and the error events. -/

namespace Sys2Proof.Machine

/-! ### The cursor law -/

theorem SameRing.trans {s t u : State} (h : SameRing s t) (k : SameRing t u) : SameRing s u :=
  ⟨k.en.trans h.en, k.circ.trans h.circ, k.dinc.trans h.dinc, k.sfix.trans h.sfix, k.src.trans h.src,
    k.dst.trans h.dst, k.n.trans h.n⟩

/-- The wrap is the remainder: a cursor inside the ring advances modulo the capacity (R162). -/
theorem Transferred.cur_mod {s t : State} (f : Transferred s t) (hc : s.te.cur < s.te.n) :
    t.te.cur.toNat = (s.te.cur.toNat + 1) % s.te.n.toNat := by
  rw [f.cur_toNat hc]
  rw [BitVec.lt_def] at hc
  split
  · next hwrap => rw [hwrap, Nat.mod_self]
  · rw [Nat.mod_eq_of_lt (by omega)]

/-- Over a lap of an enabled circular ring, the ring stays and the cursor counts the transfers modulo N (R163). -/
theorem cursor_lap {is : List Instr} {s t : State} (hi : Inv s) (he : s.te.en = true) (hc : s.te.circ = true)
    (hk : ∀ i ∈ is, keepsLap i = true) (e : runInstrs is s = .next t) :
    SameRing s t ∧ t.te.cur.toNat = (s.te.cur.toNat + transfersMade is s) % s.te.n.toNat := by
  induction is generalizing s with
  | nil =>
    cases e
    exact ⟨.of_te rfl, (Nat.mod_eq_of_lt (hi.cur_lt he)).symm⟩
  | cons i is ih =>
    obtain ⟨u, hu, e⟩ := runInstrs_cons e
    obtain ⟨hki, hk⟩ := List.forall_mem_cons.mp hk
    obtain ⟨ring, step⟩ := lap_step hu hki he hc
    obtain ⟨rest, count⟩ := ih ((exec_effect hu).keeps_inv hi) (ring.en.trans he) (ring.circ.trans hc) hk e
    refine ⟨ring.trans rest, ?_⟩
    rw [count, ring.n, transfersMade_cons is hu]
    rcases step with ⟨hx, f⟩ | ⟨hx, hcur, _⟩
    · rw [if_pos hx, f.cur_mod (hi.cur_lt he), Nat.mod_add_mod, Nat.add_assoc]
    · rw [if_neg hx, hcur, Nat.zero_add]

/-- Settles O27: `cursor_lap`, with the ring's fields named. -/
theorem cursorCountsTransfersModuloN : Obligations.CursorCountsTransfersModuloN := by
  intro is s t hi he hc hk e
  obtain ⟨ring, count⟩ := cursor_lap hi he hc hk e
  refine ⟨count, ring.en.trans he, ?_⟩
  rw [ring.circ, ring.dinc, ring.sfix, ring.src, ring.dst, ring.n]

/-! ### The transfer -/

/-- Of the Transfer Engine a transfer writes the cursor, the enable and the two ring conditions only (R162). -/
theorem Transferred.te_frame {s t : State} (f : Transferred s t) :
    { t.te with cur := s.te.cur, en := s.te.en, htif := s.te.htif, tcif := s.te.tcif } = s.te := by
  simp only [f.circ, f.dinc, f.sfix, f.src, f.dst, f.n, f.teif, f.feif, f.dmeif]

/-- Of the markers a transfer writes those of a merged condition only (R162, R270). -/
theorem Transferred.ghost_eq {s t : State} (f : Transferred s t) :
    t.ghost = { s.ghost with
      halfLost := s.ghost.halfLost || (s.te.htif && decide (s.te.cur.toNat + 1 = s.te.n.toNat / 2))
      fullLost := s.ghost.fullLost || (s.te.tcif && decide (s.te.cur.toNat + 1 = s.te.n.toNat)) } := by
  simp only [← f.trig, ← f.smpl, ← f.half, ← f.full]

/-- Settles O26: from a state of the invariant XFER completes, and what it does is `Transferred`. -/
theorem transferCopiesOneSample : Obligations.TransferCopiesOneSample := by
  refine ⟨hasWord_event .xfer, fun s hoff => ?_, fun s hi he hd => ?_⟩
  · have hx : enabled .xfer s = false := by simpa only [enabled, xferEnabled, Bool.and_eq_false_iff] using hoff
    simp [exec_of_not_enabled hx, notEnabled_eq]
  · have f := transfer_spec s
    refine ⟨_, execXfer_eq hi he hd, rfl, xferSlot_lt hi he, ?_, fun a ha => ?_, f.cur_toNat (hi.cur_lt he), ?_,
      f.htif, f.tcif, f.ghost_eq, f.te_frame, f.drq, f.rsp, f.tg, f.se, f.cf, f.inbox, f.pulse⟩
    · rw [f.buf, Memory.read_write_same]
    · rw [f.buf, Memory.read_write_other _ _ ha]
    · rw [f.en, he, Bool.true_and]

/-! ### The registers -/

/-- TE_CR as a number: SFIX, DINC and CIRC at bits 2, 1 and 0 (R39). -/
theorem toNat_readReg_teCr (s : State) :
    (readReg s .teCr).toNat = 4 * s.te.sfix.toNat + 2 * s.te.dinc.toNat + s.te.circ.toNat := by
  rw [readReg, BitVec.toNat_setWidth_of_le (by decide)]
  simp only [bit, toNat_append_eq_mul_add, BitVec.toNat_ofBool]
  omega

/-- Settles O12: each is the RD of its register. -/
theorem transferRegisterReads : Obligations.TransferRegisterReads := by
  refine ⟨hasWord_rd .teEn, hasWord_rd .teCr, hasWord_rd .teSrc, hasWord_rd .teDst, hasWord_rd .teN, fun s =>
    ⟨(exec_rdOf .teEn s).trans ?_, ⟨_, exec_rdOf .teCr s, ?_⟩, exec_rdOf .teSrc s, exec_rdOf .teDst s,
      exec_rdOf .teN s⟩⟩
  · cases he : s.te.en <;> simp [readReg, bit, he]
  · rw [BitVec.toNat_setWidth_of_le (by decide), toNat_readReg_teCr]

/-- Settles O23: the five tests of `cfgValid`, its constants as numbers. -/
theorem configurationValidity : Obligations.ConfigurationValidity := by
  intro te
  have hsrc : sourceAddr = 0x0011 := by decide
  simp only [cfgValid, Bool.and_eq_true, beq_iff_eq, decide_eq_true_eq, hsrc, and_assoc]
  exact Iff.rfl

/-- Settles O24: DATA[0], EN and the validity check select one of four effects. -/
theorem engineEnableAndDisable : Obligations.EngineEnableAndDisable := by
  refine ⟨hasWord_wr .teEn, fun s d => ⟨fun hd => ?_, fun hd he => ?_, fun hd he hv => ?_, fun hd he hv => ?_⟩⟩
  · simp [exec, execWrTeEn, dataBit_zero, hd, done_eq, State.withRsp]
  · simp [exec, execWrTeEn, dataBit_zero, hd, he, done_eq]
  · simp [exec, execWrTeEn, dataBit_zero, hd, he, hv, refuse_eq]
  · simp [exec, execWrTeEn, dataBit_zero, hd, he, hv, State.enableEngine, done_eq, State.withRsp]

/-- A configuration write to a disabled engine is accepted (R168). -/
theorem configure_of_disabled {s : State} (he : s.te.en = false) (te : TransferEngine) :
    s.configure te = { s with te := te, rsp := some 0x00000000 } := by
  simp [State.configure, he, done_eq, State.withRsp]

/-- A configuration write to an enabled engine is refused, whatever it would store (R168). -/
theorem configure_of_enabled {s : State} (he : s.te.en = true) (te : TransferEngine) :
    s.configure te = s.withRsp (some 0x40000000) := by
  simp [State.configure, he, refuse_eq]

/-- Settles O25: the four writes are `configure` with their fields, the bits of DATA as numbers. -/
theorem configurationWritesOnlyWhileDisabled : Obligations.ConfigurationWritesOnlyWhileDisabled := by
  refine ⟨hasWord_wr .teCr, hasWord_wr .teSrc, hasWord_wr .teDst, hasWord_wr .teN,
    fun s d => ⟨fun he => ?_, fun he => ?_⟩⟩
  · simp [exec, execWrTeCr, execWrTeSrc, execWrTeDst, execWrTeN, configure_of_disabled he, dataBit_eq]
  · simp [exec, execWrTeCr, execWrTeSrc, execWrTeDst, execWrTeN, configure_of_enabled he]

/-! ### The error events -/

/-- Settles O30: an error event has no guard. -/
theorem errorEventsSetTheirBit : Obligations.ErrorEventsSetTheirBit :=
  ⟨hasWord_event .errTe, hasWord_event .errFe, hasWord_event .errDme, fun _ =>
    ⟨⟨rfl, rfl⟩, ⟨rfl, rfl⟩, ⟨rfl, rfl⟩⟩⟩

/-- Settles O31: an error's ACK alone reads its condition, and only into its response. -/
theorem errorConditionsDisturbNothing : Obligations.ErrorConditionsDisturbNothing := fun i _ _ hs =>
  ⟨fun hte hfe hdme => exec_congr .errors (by simp [Erasure.ReadBy, hte, hfe, hdme]) hs,
    exec_congr_but_rsp .errors i hs⟩

end Sys2Proof.Machine
end

section
/-! PROOFS. The Notification Interface and the completion flags (R180 to R192): who latches and who clears a flag, the
flag register, and the acknowledges. -/

namespace Sys2Proof.Machine

/-! ### Who clears a flag -/

/-- WR CF_SR clears the flag of each bit that it writes 1 to, and no other (R187). -/
theorem flag_clearFlags (h : Half) (s : State) (d : Data) :
    h.flag { s with cf := clearFlags s.cf d }.done = (h.flag s && !dataBit d h.flagBit) := by
  cases h <;> rfl

/-- A flag is cleared only by a WR CF_SR that writes 1 to its bit, and by RESET (R187, R189). -/
theorem flag_or_clear {h : Half} {i : Instr} {s t : State} (e : exec i s = .next t) (hs : h.flag s = true) :
    h.flag t = true ∨ (∃ d, i = .wrCfSr d ∧ dataBit d h.flagBit = true) ∨ i = .reset := by
  cases exec_effect e with
  | clear d =>
    cases hd : dataBit d h.flagBit with
    | true => exact .inr (.inl ⟨d, rfl, hd⟩)
    | false => exact .inl (by rw [flag_clearFlags, hs, hd]; rfl)
  | reset => exact .inr (.inr rfl)
  | xfer =>
    left
    have f := transfer_spec s
    cases h <;> simpa only [Half.flag, f.cf] using hs
  | tick n =>
    left
    have f := tickMany_frame s n.toNat
    cases h <;> simpa only [Half.flag, State.done_cf, f.cf] using hs
  | ackHt =>
    cases h with
    | half0 => exact .inl rfl
    | half1 => exact .inl hs
  | ackTc =>
    cases h with
    | half0 => exact .inl hs
    | half1 => exact .inl rfl
  | _ => exact .inl (by cases h <;> exact hs)

/-- Settles O36: a flag that rises was latched by its ACK, a flag that falls was cleared by its WR CF_SR or by RESET. -/
theorem singleWriterPerDirection : Obligations.SingleWriterPerDirection := by
  intro i s t e
  have rises (h : Half) (hs : h.flag s = false) (ht : h.flag t = true) : i = h.ack :=
    ((flag_or_ack e ht).resolve_left (by simp [hs])).1
  have falls (h : Half) (hs : h.flag s = true) (ht : h.flag t = false) :
      (∃ d : Data, i = .wrCfSr d ∧ d.toNat / 2 ^ h.flagBit % 2 = 1) ∨ i = .reset := by
    simpa only [dataBit_eq, beq_iff_eq] using (flag_or_clear e hs).resolve_left (by simp [ht])
  exact ⟨⟨rfl, rfl⟩, rises .half0, by simpa [Half.flag, Half.flagBit] using falls .half0,
    rises .half1, falls .half1⟩

/-! ### The flag register -/

/-- Settles O13: it is the RD of CF_SR, and the two flags are the number 0, 1, 2 or 3. -/
theorem flagRegisterRead : Obligations.FlagRegisterRead := by
  refine ⟨hasWord_rd .cfSr, fun s => (exec_rdOf .cfSr s).trans ?_⟩
  cases hf : s.cf.fullReady <;> cases hh : s.cf.halfReady <;> simp [readReg, bit, hf, hh]

/-- The bits of DATA as numbers, and the two flags one by one (R187). -/
theorem clearFlags_eq (cf : CompletionFlags) (d : Data) :
    clearFlags cf d = ⟨if d.toNat % 2 = 1 then false else cf.halfReady,
      if d.toNat / 2 % 2 = 1 then false else cf.fullReady⟩ := by
  have masked (b : Bool) (n : Nat) : (b && !(n == 1)) = if n = 1 then false else b := by
    by_cases h : n = 1 <;> simp [h]
  simp only [clearFlags, dataBit_zero, dataBit_eq d 1, Nat.pow_one, masked]

/-- Clearing a flag that is cleared is no change (R192). -/
theorem clearFlags_clearFlags (cf : CompletionFlags) (d : Data) :
    clearFlags (clearFlags cf d) d = clearFlags cf d := by
  simp only [clearFlags, Bool.and_assoc, Bool.and_self]

/-- Settles O34: WR CF_SR has one effect in every state, `clearFlags`. -/
theorem flagWriteOneToClear : Obligations.FlagWriteOneToClear :=
  ⟨hasWord_wr .cfSr, fun s d => by rw [← clearFlags_eq]; rfl⟩

/-! ### The acknowledges -/

/-- The response word of a step that is not enabled is NOTEN without data, and it is all that changes (R86). -/
theorem exec_noten {i : Instr} {s : State} (h : enabled i s = false) :
    exec i s = .next (s.withRsp (some 0x70000000)) := exec_of_not_enabled h

/-- Settles O32: each is the latch of its flag while its condition is pending, and not enabled otherwise. -/
theorem acknowledgeLatchesTheFlag : Obligations.AcknowledgeLatchesTheFlag :=
  ⟨hasWord_event .ackHt, hasWord_event .ackTc, fun s =>
    ⟨fun h => ⟨s.latchHalf.done, if_pos h, rfl, rfl⟩, exec_noten (i := .ackHt),
      fun h => ⟨s.latchFull.done, if_pos h, rfl, rfl⟩, exec_noten (i := .ackTc)⟩⟩

/-- Settles O33: each clears its condition while it is pending, and is not enabled otherwise. -/
theorem acknowledgeAbsorbsTheError : Obligations.AcknowledgeAbsorbsTheError :=
  ⟨hasWord_event .ackTe, hasWord_event .ackFe, hasWord_event .ackDme, fun _ =>
    ⟨fun h => if_pos h, exec_noten (i := .ackTe), fun h => if_pos h, exec_noten (i := .ackFe),
      fun h => if_pos h, exec_noten (i := .ackDme)⟩⟩

/-- Settles O35: `clearFlags` is idempotent, and only a WR CF_SR or RESET clears a flag, so no acknowledge does. -/
theorem flagOperationsAreIdempotent : Obligations.FlagOperationsAreIdempotent := by
  refine ⟨fun s d hs => ?_, fun s t d e => ?_, fun s t e hs => ?_, fun s t e hs => ?_,
    fun _ => ⟨rfl, rfl, rfl, rfl, rfl⟩⟩
  · have hcf : clearFlags s.cf d = s.cf := by rw [hs]; rfl
    rw [exec, execWrCfSr, hcf]
    rfl
  · cases e
    rw [exec, execWrCfSr, State.done_cf, clearFlags_clearFlags]
    rfl
  · exact (flag_or_clear (h := .half0) e hs).resolve_right (by simp)
  · exact (flag_or_clear (h := .half1) e hs).resolve_right (by simp)

end Sys2Proof.Machine
end

section
/-! PROOFS. What the host reads and what it reports: RDS (R200), the mean (R205, R206) and the report line (R207,
R208). -/

namespace Sys2Proof.Machine

/-! ### RDS -/

/-- The word of RDS: 0x3, ADDR 0, the slot as DATA (R85). -/
theorem hasWord_rds : HasWord (0x3#4 ++ 0#12) .rds := fun a =>
  ⟨decode_rds .trace a, fun _ => decode_rds .cmd a⟩

/-- RDS of a slot that holds a value answers it, and changes the response word only (R200). -/
theorem exec_rds_of_written {s : State} {a : Data} {v : Sample} (h : s.buf.read a.toNat = some v) :
    exec (.rds a) s = .next (s.respond .ok v) := by
  simp [exec, execRds, h]

/-- Settles O38: the slot holds a value or not, and a nonzero ADDR is the decoder's to refuse. -/
theorem slotRead : Obligations.SlotRead := by
  refine ⟨hasWord_rds, fun s a v hv => ?_, fun _ _ => exec_rds_of_unwritten, fun s c w rest hs hop haddr => ?_⟩
  · rw [exec_rds_of_written hv, State.respond, responseWord_ok]
    rfl
  · have hne : w.addr ≠ 0#12 := fun h => haddr (by rw [← addr_toNat, h]; rfl)
    exact step_of_rejected hs (decode_of_slot_addr c ((op_eq_iff w 0x3).mpr hop) hne)

/-! ### The mean -/

/-- Each sample is at most 65535 (R31). -/
theorem sampleSum_le (vs : List Sample) : sampleSum vs ≤ vs.length * 65535 := by
  refine (List.sum_le_card_nsmul (vs.map BitVec.toNat) 65535 fun k hk => ?_).trans_eq (by simp)
  obtain ⟨v, _, rfl⟩ := List.mem_map.mp hk
  exact Nat.le_of_lt_succ v.isLt

/-- The mean of N/2 copies of a sample is that sample (R206). -/
theorem mean_replicate {n : Nat} (hn : 2 ≤ n) (x : Sample) : mean n (List.replicate (n / 2) x) = x.toNat := by
  rw [mean, sampleSum, List.map_replicate, List.sum_replicate, smul_eq_mul, Nat.mul_div_cancel_left _ (by omega)]

/-- Settles O50: N/2 samples of at most 65535 each, and the floor of their quotient. -/
theorem meanIsExact : Obligations.MeanIsExact := by
  intro n vs heven hmin hmax hlen
  have hpos : 0 < n / 2 := by omega
  have hsum : sampleSum vs ≤ n / 2 * 65535 := hlen ▸ sampleSum_le vs
  refine ⟨by omega, Nat.div_mul_le_self _ _, Nat.lt_mul_of_div_lt (Nat.lt_succ_self _) hpos,
    Nat.div_le_of_le_mul hsum, fun x hx => ?_⟩
  rw [List.eq_replicate_of_mem hx, hlen, mean_replicate hmin]

/-! ### The report line -/

/-- The digits of a positive number are those of the library, which gives the least significant first. -/
theorem digitsWithin_eq_digits {fuel v : Nat} (hv : 0 < v) (h : v < fuel) :
    digitsWithin fuel v = (Nat.digits 10 v).reverse := by
  induction fuel generalizing v with
  | zero => omega
  | succ fuel ih =>
    rw [digitsWithin]
    split
    · next hlt => rw [Nat.digits_of_lt 10 v (by omega) hlt, List.reverse_singleton]
    · rw [ih (by omega) (by omega), Nat.digits_def' (by decide) hv, List.reverse_cons]

/-- dec of a positive number (R208). -/
theorem decimalDigits_of_pos {v : Nat} (hv : 0 < v) : decimalDigits v = (Nat.digits 10 v).reverse :=
  digitsWithin_eq_digits hv (Nat.lt_succ_self v)

/-- dec(0) = "0" (R208). -/
theorem decimalDigits_zero : decimalDigits 0 = [0] := rfl

/-- The digits, most significant first, have the value of the number (R208). -/
theorem foldl_decimalDigits (v : Nat) : (decimalDigits v).foldl (fun acc d => 10 * acc + d) 0 = v := by
  rcases Nat.eq_zero_or_pos v with rfl | hv
  · rfl
  · rw [decimalDigits_of_pos hv, List.foldl_reverse]
    conv_rhs => rw [← Nat.ofDigits_digits 10 v, Nat.ofDigits_eq_foldr]
    simp only [Nat.cast_id, Nat.add_comm]

/-- No leading zeros (R208). -/
theorem head_decimalDigits_ne_zero {v : Nat} (hv : 0 < v) : (decimalDigits v).head? ≠ some 0 := by
  rw [decimalDigits_of_pos hv, List.head?_reverse]
  intro h
  exact Nat.getLast_digit_ne_zero 10 hv.ne' (List.getLast_of_getLast?_eq_some h)

/-- At most five digits for a 16-bit mean (R206, R208). -/
theorem length_decimalDigits_le {v : Nat} (h : v ≤ 65535) : (decimalDigits v).length ≤ 5 := by
  rcases Nat.eq_zero_or_pos v with rfl | hv
  · decide
  · rw [decimalDigits_of_pos hv, List.length_reverse, Nat.digits_length_le_iff (by decide)]
    omega

/-- Settles O51: the line is the layout of R207, and the digits are those of the library. -/
theorem reportLineIsTheDecimalMean : Obligations.ReportLineIsTheDecimalMean := by
  intro v
  obtain ⟨hlt, hne, _⟩ := digitsWithin_spec (Nat.lt_succ_self v)
  exact ⟨rfl, rfl, foldl_decimalDigits v, hlt, head_decimalDigits_ne_zero, decimalDigits_zero,
    fun h => ⟨List.length_pos_of_ne_nil hne, length_decimalDigits_le h⟩⟩

end Sys2Proof.Machine
end

section
/-! PROOFS. One service and one iteration of the consumer (R201 to R205): what they report, and that they are the loop
run without other steps between its commands. -/

namespace Sys2Proof.Machine

/-! ### One service -/

/-- Every service reads inside the ring, so inside the memory (R61). -/
theorem bounds_of_mem_halfSlots {h : Half} {d n a : Nat} (ha : a ∈ halfSlots h d n) : d ≤ a ∧ a < d + n := by
  rw [mem_halfSlots] at ha
  cases h <;> simp only [Half.first] at ha <;> omega

/-- What a list of reads did, when it completes: each found a value, and the response word holds the last one. -/
theorem readSlots_cons {a : Nat} {as : List Nat} {s u : State} {vs : List Sample}
    (e : readSlots (a :: as) s = .next (vs, u)) :
    ∃ v vs', s.buf.read (a % 65536) = some v ∧ vs = v :: vs' ∧ readSlots as (s.respond .ok v) = .next (vs', u) := by
  obtain ⟨t, ht, e⟩ := andThen_eq_next e
  cases exec_effect ht with
  | slot _ v _ hv =>
    obtain ⟨⟨vs', w⟩, hrest, e⟩ := andThen_eq_next e
    cases e
    exact ⟨v, vs', by simpa using hv, by simp, hrest⟩
  | read _ r _ hi => cases r <;> cases hi
  | refused _ st _ hi => simp [enabled] at hi

/-- The reads leave a response word where there was one. -/
theorem readSlots_answered {as : List Nat} {s u : State} {vs : List Sample} (e : readSlots as s = .next (vs, u))
    (hs : s.rsp ≠ none) : u.rsp ≠ none := by
  induction as generalizing s vs with
  | nil =>
    cases e
    exact hs
  | cons a as ih =>
    obtain ⟨v, vs', _, _, e⟩ := readSlots_cons e
    exact ih e (by simp)

/-- WR CF_SR of a service clears the flag of its half and no other (R187, R202, R203). -/
theorem clearFlags_clearData (h : Half) (cf : CompletionFlags) :
    clearFlags cf h.clearData = match h with
      | .half0 => { cf with halfReady := false }
      | .half1 => { cf with fullReady := false } := by
  cases h <;> simp [clearFlags, Half.clearData, dataBit]

/-- Settles O52: the clear, the reads of N/2 written slots, and the line of their mean. -/
theorem serviceReportsTheMeanOfItsHalf : Obligations.ServiceReportsTheMeanOfItsHalf := by
  intro h d n s vs hmem _ _ hvs
  obtain ⟨r, hr⟩ := readSlots_spec (halfSlots h d n) { s with cf := clearFlags s.cf h.clearData }.done vs
    (fun a ha => by have := bounds_of_mem_halfSlots ha; omega) hvs
  obtain ⟨w, rfl⟩ := Option.ne_none_iff_exists'.mp (readSlots_answered hr (by simp))
  refine ⟨w, ?_⟩
  rw [serviceHalf, exec, execWrCfSr, andThen_next, hr, andThen_next, clearFlags_clearData]
  rfl

/-! ### One iteration as a run of the loop -/

/-- A run of the loop's own moves leads from `x` to `y`. -/
def OwnRun (x y : LoopState) : Prop := ∃ ms, (∀ m ∈ ms, m.isOwn = true) ∧ runLoop ms x = .next y

theorem OwnRun.refl (x : LoopState) : OwnRun x x := ⟨[], by simp, rfl⟩

theorem OwnRun.trans {x y z : LoopState} : OwnRun x y → OwnRun y z → OwnRun x z
  | ⟨p, hp, ep⟩, ⟨q, hq, eq⟩ =>
    ⟨p ++ q, fun m hm => (List.mem_append.mp hm).elim (hp m) (hq m), (runLoop_append ep).trans eq⟩

/-- One own move and then others. -/
theorem OwnRun.step {m : LoopMove} {x y z : LoopState} (hm : m.isOwn = true) (e : loopStep m x = .next y)
    (h : OwnRun y z) : OwnRun x z :=
  OwnRun.trans ⟨[m], by simpa using hm, by rw [runLoop, e]; rfl⟩ h

/-- The loop reads the slots in the order of `readSlots`, and its sum grows by their values (R202, R205). -/
theorem ownRun_reads {as : List Nat} {s u : State} {vs : List Sample} (e : readSlots as s = .next (vs, u)) (d n : Nat)
    (h : Half) (sum : Nat) (rest : List Half) (sent : List Byte) :
    OwnRun ⟨d, n, afterRead h n as sum rest, sent, s⟩ ⟨d, n, afterRead h n [] (sum + sampleSum vs) rest, sent, u⟩ := by
  induction as generalizing s vs sum with
  | nil =>
    cases e
    exact OwnRun.refl _
  | cons a as ih =>
    obtain ⟨v, vs', hv, rfl, hrest⟩ := readSlots_cons e
    have hsum : sum + sampleSum (v :: vs') = sum + v.toNat + sampleSum vs' := by simp [sampleSum, Nat.add_assoc]
    rw [hsum]
    refine .step (m := .read a) rfl (loopStep_read rfl (by simp) hv) ?_
    rw [List.erase_cons_head]
    exact ih hrest _

/-- The transport takes a line byte by byte, and the service is over (R207, R211). -/
theorem ownRun_accepts (bs : List Byte) (d n : Nat) (rest : List Half) (sent : List Byte) (s : State) :
    OwnRun ⟨d, n, afterAccept bs rest, sent, s⟩ ⟨d, n, nextService rest, sent ++ bs, s⟩ := by
  induction bs generalizing sent with
  | nil =>
    rw [List.append_nil]
    exact OwnRun.refl _
  | cons b bs ih =>
    rw [List.append_cons]
    exact .step rfl (loopStep_accept rfl) (ih _)

/-- A service is the loop from its clear to the last byte of its line (R202, R203). -/
theorem ownRun_service {h : Half} {d n : Nat} {s t : State} {line : List Byte}
    (e : serviceHalf h d n s = .next (line, t)) (rest : List Half) (sent : List Byte) :
    OwnRun ⟨d, n, .clear h rest, sent, s⟩ ⟨d, n, nextService rest, sent ++ line, t⟩ := by
  obtain ⟨u, hu, e⟩ := andThen_eq_next e
  cases hu
  obtain ⟨⟨vs, w⟩, hreads, e⟩ := andThen_eq_next e
  cases e
  refine .step (m := .clear) rfl (loopStep_clear rfl) ((ownRun_reads hreads d n h 0 rest sent).trans ?_)
  rw [afterRead_nil, Nat.zero_add]
  exact ownRun_accepts _ d n rest sent _

/-- A half whose flag was not found set is passed over, by the iteration and by the loop (R201). -/
theorem ownRun_serviceIf {flags : Data} {h : Half} {d n : Nat} {s t : State} {lines : List (List Byte)}
    (e : serviceIf flags h d n s = .next (lines, t)) (rest : List Half) (sent : List Byte) :
    OwnRun ⟨d, n, nextService ([h].filter (fun g => dataBit flags g.flagBit) ++ rest), sent, s⟩
      ⟨d, n, nextService rest, sent ++ lines.flatten, t⟩ := by
  rw [serviceIf] at e
  split at e
  · next hset =>
    obtain ⟨⟨line, u⟩, hservice, e⟩ := andThen_eq_next e
    cases e
    simpa [hset, nextService] using ownRun_service hservice rest sent
  · next hclear =>
    cases e
    simpa [hclear] using OwnRun.refl _

/-- Settles O57: the poll, and then the two services one after the other. -/
theorem iterationIsTheLoopUninterrupted : Obligations.IterationIsTheLoopUninterrupted := by
  intro first d n s t lines sent e
  obtain ⟨u, hu, e⟩ := andThen_eq_next e
  cases hu
  simp only [State.answerReg_rsp, data_responseWord] at e
  obtain ⟨⟨l₁, v⟩, h₁, e⟩ := andThen_eq_next e
  obtain ⟨⟨l₂, w⟩, h₂, e⟩ := andThen_eq_next e
  cases e
  have poll := loopStep_poll (first := first) (x := ⟨d, n, .poll, sent, s⟩) rfl
  have second := ownRun_serviceIf h₂ [] (sent ++ l₁.flatten)
  rw [List.append_nil, List.append_assoc, ← List.flatten_append] at second
  have services := (ownRun_serviceIf h₁ _ sent).trans second
  rw [← List.filter_append] at services
  exact OwnRun.step rfl poll services

end Sys2Proof.Machine
end

section
/-! PROOFS. The round trip under the eager schedule (R272, R273): what one tick does, the half that N/2 periods fill,
and the consumer's report of it. -/

namespace Sys2Proof.Machine

/-! ### One tick under the eager schedule -/

/-- A tick without a pulse touches the Trigger Generator only (R117). -/
theorem tickOnce_of_no_pulse {s : State} (h : s.tickOnce.trigOut = s.trigOut) :
    s.tickOnce = { s with tg := s.tickOnce.tg } := by
  rcases tickOnce_cases s with ⟨_, e⟩ | ⟨_, _, e⟩ | ⟨_, _, _, e⟩ | ⟨_, _, _, e⟩
  · rw [e]
  · rw [e]
  · rw [e]
  · rw [e, emitTrigger_trigOut] at h
    simp at h

/-- After a tick with a pulse an armed Sampling Engine is converting (R117, R135). -/
theorem busy_of_pulse {s : State} (harm : s.se.arm = true) (h : s.tickOnce.trigOut ≠ s.trigOut) :
    s.tickOnce.se.busy = true := by
  rcases tickOnce_cases s with ⟨_, e⟩ | ⟨_, _, e⟩ | ⟨_, _, _, e⟩ | ⟨_, _, _, e⟩
  · exact absurd (by rw [e]) h
  · exact absurd (by rw [e]) h
  · exact absurd (by rw [e]) h
  · rw [e, State.emitTrigger, State.receiveTrigger, if_pos harm]
    split
    · assumption
    · rfl

/-- A tick that emits no trigger brings no other step with it (R272). -/
theorem tick_of_no_pulse (v : Nat → Sample) {r : EagerRun} (h : r.st.tickOnce.trigOut = r.st.trigOut) :
    r.tick v = .next ⟨r.drawn, r.notices, r.st.tickOnce.done⟩ := by
  rw [EagerRun.tick, exec_tick_one, andThen_next, State.done_trigOut, h, if_neg (by simp)]

/-- Both ring conditions are acknowledged, each if it was pending (R181, R182). -/
structure Noticed (s t : State) : Prop where
  te    : t.te = { s.te with htif := false, tcif := false }
  cf    : t.cf = ⟨s.cf.halfReady || s.te.htif, s.cf.fullReady || s.te.tcif⟩
  tg    : t.tg = s.tg
  se    : t.se = s.se
  drq   : t.drq = s.drq
  buf   : t.buf = s.buf
  pulse : t.trigOut = s.trigOut

/-- The five ACK steps of the eager schedule: a notice for each pending ring condition (R272, R273). -/
theorem fireAll_acks {r : EagerRun} (hte : r.st.te.teif = false) (hfe : r.st.te.feif = false)
    (hdme : r.st.te.dmeif = false) :
    ∃ t, r.fireAll [.ackHt, .ackTc, .ackTe, .ackFe, .ackDme] =
        .next ⟨r.drawn, r.notices + r.st.te.htif.toNat + r.st.te.tcif.toNat, t⟩ ∧ Noticed r.st t := by
  cases hht : r.st.te.htif <;> cases htc : r.st.te.tcif
  · have same : r.st.te = { r.st.te with htif := r.st.te.htif, tcif := r.st.te.tcif } := rfl
    refine ⟨r.st, ?_, ⟨by rw [hht, htc] at same; exact same, by simp [hht, htc], rfl, rfl, rfl, rfl, rfl⟩⟩
    simp [EagerRun.fireAll, EagerRun.fire, enabled, hht, htc, hte, hfe, hdme]
  · refine ⟨r.st.latchFull.done, ?_, ⟨by simp [hht], by simp [hht, htc], rfl, rfl, rfl, rfl, rfl⟩⟩
    simp [EagerRun.fireAll, EagerRun.fire, enabled, exec, execAckTc, setsFlag, hht, htc, hte, hfe, hdme]
  · refine ⟨r.st.latchHalf.done, ?_, ⟨by simp [htc], by simp [hht, htc], rfl, rfl, rfl, rfl, rfl⟩⟩
    simp [EagerRun.fireAll, EagerRun.fire, enabled, exec, execAckHt, setsFlag, hht, htc, hte, hfe, hdme]
  · refine ⟨r.st.latchHalf.done.latchFull.done, ?_, ⟨rfl, by simp [hht, htc], rfl, rfl, rfl, rfl, rfl⟩⟩
    simp [EagerRun.fireAll, EagerRun.fire, enabled, exec, execAckHt, execAckTc, setsFlag, hht, htc, hte, hfe, hdme]

/-- What follows a trigger under the eager schedule, from the state with the conversion in progress: a sample is drawn,
copied, and reported at the end of a half. -/
structure Sampled (x : Sample) (s t : State) : Prop where
  inv     : Inv t
  settled : settled t = true
  tg      : t.tg = s.tg
  pulse   : t.trigOut = s.trigOut
  arm     : t.se.arm = s.se.arm
  ring    : SameRing s t
  cur     : t.te.cur.toNat = (s.te.cur.toNat + 1) % s.te.n.toNat
  cf      : t.cf = ⟨s.cf.halfReady || decide (s.te.cur.toNat + 1 = s.te.n.toNat / 2),
    s.cf.fullReady || decide (s.te.cur.toNat + 1 = s.te.n.toNat)⟩
  buf     : t.buf = s.buf.write (xferSlot s.te) x

theorem Inv.noticed {s t : State} (hi : Inv s) (f : Noticed s t) : Inv t :=
  hi.of_frame f.tg (by rw [f.te]) (by rw [f.te]; rfl) (by rw [f.te]) (by rw [f.te]) f.buf

/-- None of the five conditions is pending (R28). -/
structure NonePending (te : TransferEngine) : Prop where
  htif  : te.htif = false
  tcif  : te.tcif = false
  teif  : te.teif = false
  feif  : te.feif = false
  dmeif : te.dmeif = false

theorem NonePending.of_settled {s : State} (h : settled s = true) : NonePending s.te :=
  have ⟨_, _, hht, htc, hte, hfe, hdme⟩ := (settled_iff s).mp h
  ⟨hht, htc, hte, hfe, hdme⟩

/-- With nothing pending, a ring condition after a transfer is the one this transfer raised (R162). -/
theorem Transferred.raised {s t : State} (f : Transferred s t) (h : NonePending s.te) :
    t.te.htif = decide (s.te.cur.toNat + 1 = s.te.n.toNat / 2) ∧
      t.te.tcif = decide (s.te.cur.toNat + 1 = s.te.n.toNat) := by
  rw [f.htif, f.tcif, h.htif, h.tcif, Bool.false_or, Bool.false_or]
  exact ⟨rfl, rfl⟩

/-- CONV and what follows it (R272), in circular mode with nothing pending: every step that is enabled completes, and
there is one notice for each end of a half that the cursor reaches. -/
theorem sampled_of_busy (x : Sample) {r : EagerRun} (hi : Inv r.st) (hbusy : r.st.se.busy = true)
    (he : r.st.te.en = true) (hc : r.st.te.circ = true) (hquiet : NonePending r.st.te) :
    ∃ t, andThen (r.fire (.conv x) true) (fun r' => r'.fireAll eagerRest) = .next ⟨r.drawn + 1,
        r.notices + (decide (r.st.te.cur.toNat + 1 = r.st.te.n.toNat / 2)).toNat
          + (decide (r.st.te.cur.toNat + 1 = r.st.te.n.toNat)).toNat, t⟩ ∧
      Sampled x r.st t := by
  have hconv : exec (.conv x) r.st = .next (r.st.completeConversion x).done := if_pos hbusy
  have hi₁ := (exec_effect hconv).keeps_inv hi
  have hxfer : exec .xfer (r.st.completeConversion x).done = _ := execXfer_eq hi₁ he rfl
  have hi₂ := (exec_effect hxfer).keeps_inv hi₁
  have f := transfer_spec (r.st.completeConversion x).done
  obtain ⟨half, full⟩ := f.raised hquiet
  obtain ⟨t, hacks, g⟩ := fireAll_acks
    (r := ⟨r.drawn + 1, r.notices, (r.st.completeConversion x).done.storeSample.advanceCursor.done⟩)
    (f.teif.trans hquiet.teif) (f.feif.trans hquiet.feif) (f.dmeif.trans hquiet.dmeif)
  have ring : SameRing r.st t := by
    have hring := f.sameRing hc
    constructor <;> rw [g.te]
    exacts [hring.en, hring.circ, hring.dinc, hring.sfix, hring.src, hring.dst, hring.n]
  refine ⟨t, ?_, hi₂.noticed g, ?_, g.tg.trans f.tg, g.pulse.trans f.pulse, ?_, ring, ?_, ?_, g.buf.trans f.buf⟩
  · rw [fire_of_enabled (i := .conv x) true hbusy hconv, andThen_next, eagerRest, EagerRun.fireAll,
      fire_of_enabled (i := .xfer) false (by simp [enabled, xferEnabled, he]) hxfer, andThen_next]
    rw [half, full] at hacks
    exact hacks
  · rw [settled_iff, g.te, g.se, g.drq, f.se, f.drq]
    exact ⟨rfl, fun _ => rfl, rfl, rfl, f.teif.trans hquiet.teif, f.feif.trans hquiet.feif,
      f.dmeif.trans hquiet.dmeif⟩
  · rw [g.se, f.se]
    rfl
  · rw [g.te]
    exact f.cur_mod (hi₁.cur_lt he)
  · rw [g.cf, half, full, f.cf]
    rfl

/-- A tick that emits a trigger, from a settled state with the engine enabled in circular mode (R272). -/
theorem tick_of_pulse (v : Nat → Sample) {r : EagerRun} (hi : Inv r.st) (hs : settled r.st = true)
    (he : r.st.te.en = true) (hc : r.st.te.circ = true) (harm : r.st.se.arm = true)
    (hp : r.st.trigOut < r.st.tickOnce.trigOut) :
    ∃ t, r.tick v = .next ⟨r.drawn + 1,
        r.notices + (decide (r.st.te.cur.toNat + 1 = r.st.te.n.toNat / 2)).toNat
          + (decide (r.st.te.cur.toNat + 1 = r.st.te.n.toNat)).toNat, t⟩ ∧
      Sampled (v r.drawn) r.st.tickOnce.done t := by
  have f := tickOnce_frame r.st
  have hi₁ : Inv r.st.tickOnce.done := (exec_effect (exec_tick_one r.st)).keeps_inv hi
  obtain ⟨t, e, sampled⟩ := sampled_of_busy (v r.drawn) (r := ⟨r.drawn, r.notices, r.st.tickOnce.done⟩) hi₁
    (busy_of_pulse harm hp.ne') (f.te ▸ he) (f.te ▸ hc) (f.te ▸ .of_settled hs)
  simp only [State.done_te, f.te] at e
  refine ⟨t, ?_, sampled⟩
  rw [EagerRun.tick, exec_tick_one, andThen_next, if_pos ⟨hp, f.arm.trans harm⟩, e]

/-! ### The half that N/2 periods fill -/

/-- After `t` ticks of a constant input `x` from the booted state `s₀`, `t` at most P × N/2: the cursor counts the
periods, and every slot behind it holds `x`. -/
structure Collecting (s₀ : State) (x : Sample) (t : Nat) (s : State) : Prop where
  inv     : Inv s
  settled : settled s = true
  run     : s.tg.run = true
  arm     : s.se.arm = true
  rate    : period s.tg = period s₀.tg
  ring    : SameRing s₀ s
  time    : period s₀.tg * s.te.cur.toNat + phase s.tg = t
  cf      : s.cf = ⟨decide (s.te.cur.toNat = s₀.te.n.toNat / 2), false⟩
  buf     : ∀ j < s.te.cur.toNat, s.buf.read (s₀.te.dst.toNat + j) = some x

/-- At boot nothing is collected; a half has at least one slot (R161, R262). -/
theorem Booted.collecting {s : State} (h : Booted s) (hcf : s.cf = ⟨false, false⟩) (x : Sample) :
    Collecting s x 0 s := by
  obtain ⟨_, htwo, _⟩ := cfgValid_bounds (h.inv.valid h.en)
  have hcur : s.te.cur.toNat = 0 := by rw [h.cur]; rfl
  have hhalf : ¬ 0 = s.te.n.toNat / 2 := by omega
  exact ⟨h.inv, h.settled, h.run, h.arm, rfl, .of_te rfl, by rw [hcur, h.phase]; rfl, by rw [hcf, hcur]; simp [hhalf],
    by simp [hcur]⟩

/-- The Transfer Engine, the flags and the samples of a tick without a trigger are those before it. -/
theorem Collecting.tick_of_no_pulse {s₀ s : State} {x : Sample} {t : Nat} (h : Collecting s₀ x t s)
    (hphase : phase s.tickOnce.tg = phase s.tg + 1) (hpulse : s.tickOnce.trigOut = s.trigOut) :
    Collecting s₀ x (t + 1) s.tickOnce.done := by
  have f := tickOnce_frame s
  have hi : Inv s.tickOnce.done := (exec_effect (exec_tick_one s)).keeps_inv h.inv
  have hsettled : Machine.settled s.tickOnce.done = true := by
    rw [tickOnce_of_no_pulse hpulse]
    exact h.settled
  refine ⟨hi, hsettled, f.run.trans h.run, f.arm.trans h.arm, f.period_eq.trans h.rate, h.ring.trans (.of_te f.te),
    ?_, ?_, ?_⟩
  · rw [State.done_te, State.done_tg, f.te, hphase, ← Nat.add_assoc, h.time]
  · rw [State.done_cf, State.done_te, f.cf, f.te, h.cf]
  · rw [State.done_buf, State.done_te, f.buf, f.te]
    exact h.buf

/-- The sample of a period goes to the slot at the cursor (R162, R272). -/
theorem Collecting.sampled {s₀ s u : State} {x : Sample} {t : Nat} (hb : Booted s₀) (h : Collecting s₀ x t s)
    (hcur : s.te.cur.toNat < s₀.te.n.toNat / 2) (hlast : phase s.tg + 1 = period s.tg)
    (hphase : phase s.tickOnce.tg = 0) (g : Sampled x s.tickOnce.done u) : Collecting s₀ x (t + 1) u := by
  have f := tickOnce_frame s
  have ring : SameRing s s.tickOnce.done := .of_te f.te
  have hu : u.te.cur.toNat = s.te.cur.toNat + 1 := by
    rw [g.cur, State.done_te, f.te, h.ring.n, Nat.mod_eq_of_lt (by omega)]
  have hslot : xferSlot s.te = s₀.te.dst.toNat + s.te.cur.toNat := by
    rw [xferSlot, if_pos (h.ring.dinc.trans hb.dinc), h.ring.dst]
  refine ⟨g.inv, g.settled, ?_, g.arm.trans (f.arm.trans h.arm), ?_, (h.ring.trans ring).trans g.ring, ?_, ?_,
    fun j hj => ?_⟩
  · rw [g.tg]
    exact f.run.trans h.run
  · rw [g.tg]
    exact f.period_eq.trans h.rate
  · rw [g.tg, hu, State.done_tg, hphase, Nat.mul_add_one, ← h.time, Nat.add_assoc _ _ 1, hlast, h.rate, Nat.add_zero]
  · rw [g.cf, hu, State.done_te, State.done_cf, f.te, f.cf, h.cf, h.ring.n]
    have hmid : s.te.cur.toNat ≠ s₀.te.n.toNat / 2 := by omega
    have hend : s.te.cur.toNat + 1 ≠ s₀.te.n.toNat := by omega
    simp [hmid, hend]
  · rw [g.buf, State.done_te, State.done_buf, f.te, f.buf, hslot, Memory.read_write]
    split
    · rfl
    · exact h.buf j (by omega)

/-- One more tick of the N/2 periods: it counts in the phase, or it ends a period (R117, R118). -/
theorem Collecting.tick {s₀ : State} {x : Sample} {t : Nat} {r : EagerRun} (hb : Booted s₀)
    (h : Collecting s₀ x t r.st) (ht : t < period s₀.tg * (s₀.te.n.toNat / 2)) :
    ∃ r', r.tick (fun _ => x) = .next r' ∧ Collecting s₀ x (t + 1) r'.st := by
  rcases tickOnce_phase h.run h.inv.pcnt_le h.inv.cnt_le with ⟨_, hphase, hpulse⟩ | ⟨hlast, hphase, hpulse⟩
  · exact ⟨_, Machine.tick_of_no_pulse _ hpulse, h.tick_of_no_pulse hphase hpulse⟩
  · have hcur : r.st.te.cur.toNat < s₀.te.n.toNat / 2 := by
      refine Nat.lt_of_mul_lt_mul_left (a := period s₀.tg) (Nat.lt_of_le_of_lt ?_ ht)
      rw [← h.time]
      exact Nat.le_add_right _ _
    obtain ⟨u, e, g⟩ := tick_of_pulse (fun _ => x) h.inv h.settled (h.ring.en.trans hb.en) (h.ring.circ.trans hb.circ)
      h.arm (by omega)
    exact ⟨_, e, h.sampled hb hcur hlast hphase g⟩

/-- Any number of ticks up to P × N/2. -/
theorem Collecting.ticks {s₀ : State} {x : Sample} (hb : Booted s₀) {m t : Nat} {r : EagerRun}
    (h : Collecting s₀ x t r.st) (hm : t + m ≤ period s₀.tg * (s₀.te.n.toNat / 2)) :
    ∃ r', r.ticks (fun _ => x) m = .next r' ∧ Collecting s₀ x (t + m) r'.st := by
  induction m generalizing t r with
  | zero => exact ⟨r, rfl, h⟩
  | succ m ih =>
    obtain ⟨r₁, e₁, h₁⟩ := h.tick hb (by omega)
    obtain ⟨r₂, e₂, h₂⟩ := ih h₁ (by omega)
    refine ⟨r₂, by rw [EagerRun.ticks, e₁, andThen_next, e₂], ?_⟩
    rwa [show t + (m + 1) = t + 1 + m by omega]

/-- After all of them the cursor stands at N/2 and the phase is 0 (R118). -/
theorem Collecting.cur_eq {s₀ s : State} {x : Sample} (h : Collecting s₀ x (period s₀.tg * (s₀.te.n.toNat / 2)) s) :
    s.te.cur.toNat = s₀.te.n.toNat / 2 := by
  have hlt := phase_lt_period h.inv.pcnt_le h.inv.cnt_le
  rw [h.rate] at hlt
  have hdiv := congrArg (· / period s₀.tg) h.time
  simpa [Nat.mul_add_div (period_pos s₀.tg), Nat.div_eq_of_lt hlt, period_pos s₀.tg] using hdiv

theorem length_halfSlots (h : Half) (d n : Nat) : (halfSlots h d n).length = n / 2 := by simp [halfSlots]

/-- Then half 0 holds N/2 copies of the input. -/
theorem Collecting.half_written {s₀ s : State} {x : Sample}
    (h : Collecting s₀ x (period s₀.tg * (s₀.te.n.toNat / 2)) s) :
    (List.replicate (s₀.te.n.toNat / 2) x).map some =
      (halfSlots .half0 s₀.te.dst.toNat s₀.te.n.toNat).map s.buf.read := by
  rw [List.map_replicate, eq_comm, List.eq_replicate_iff, List.length_map, length_halfSlots]
  refine ⟨rfl, fun v hv => ?_⟩
  obtain ⟨a, ha, rfl⟩ := List.mem_map.mp hv
  obtain ⟨hge, hlt⟩ := mem_halfSlots.mp ha
  simp only [Half.first, Nat.add_zero] at hge hlt
  obtain ⟨j, rfl⟩ := Nat.exists_eq_add_of_le hge
  exact h.buf j (by rw [h.cur_eq]; omega)

/-! ### The consumer's report -/

@[simp] theorem Half.other_other (h : Half) : h.other.other = h := by cases h <;> rfl

theorem Half.eq_or_eq_other (g h : Half) : g = h ∨ g = h.other := by cases g <;> cases h <;> simp [Half.other]

/-- RD CF_SR, and then the services of the flags found set (R201, R204). -/
theorem consumerIteration_eq (first : Half) (d n : Nat) (s : State) :
    consumerIteration first d n s =
      andThen (serviceIf (readReg s .cfSr) first d n (s.answerReg .cfSr)) fun (l₁, u) =>
        andThen (serviceIf (readReg s .cfSr) first.other d n u) fun (l₂, x) => .next (l₁ ++ l₂, x) := by
  simp only [consumerIteration, exec, execRdCfSr, andThen_next, State.answerReg_rsp, data_responseWord]

/-- With one flag set, one iteration is its service, in either order (R201, R204). -/
theorem consumerIteration_of_one_flag {h first : Half} {d n : Nat} {s u : State} {line : List Byte}
    (hset : h.flag s = true) (hclear : h.other.flag s = false)
    (e : serviceHalf h d n (s.answerReg .cfSr) = .next (line, u)) :
    consumerIteration first d n s = .next ([line], u) := by
  have served : serviceIf (readReg s .cfSr) h d n (s.answerReg .cfSr) = .next ([line], u) := by
    rw [serviceIf, dataBit_flagBit, if_pos hset, e, andThen_next]
  have skipped (t : State) : serviceIf (readReg s .cfSr) h.other d n t = .next ([], t) := by
    rw [serviceIf, dataBit_flagBit, if_neg (by simp [hclear])]
  rw [consumerIteration_eq]
  rcases first.eq_or_eq_other h with rfl | rfl
  · simp [served, skipped]
  · simp [served, skipped]

/-- Settles O53: P × N/2 ticks fill half 0 with `x` and set its flag alone; the mean of N/2 copies of `x` is `x`. -/
theorem constantHalfIsReportedExactly : Obligations.ConstantHalfIsReportedExactly := by
  intro r x first hb hcf
  obtain ⟨heven, htwo, hmem⟩ := cfgValid_bounds (hb.inv.valid hb.en)
  obtain ⟨r', e, h⟩ := (hb.collecting hcf x).ticks hb (m := period r.st.tg * (r.st.te.n.toNat / 2)) (by omega)
  rw [Nat.zero_add] at h
  have hflags : r'.st.cf = ⟨true, false⟩ := by rw [h.cf, h.cur_eq]; simp
  obtain ⟨w, hservice⟩ := serviceReportsTheMeanOfItsHalf .half0 r.st.te.dst.toNat r.st.te.n.toNat
    (r'.st.answerReg .cfSr) _ hmem htwo heven h.half_written
  rw [mean_replicate htwo] at hservice
  refine ⟨r', _, e, hflags, consumerIteration_of_one_flag (h := .half0) ?_ ?_ hservice, ?_⟩
  · simp [Half.flag, hflags]
  · simp [Half.flag, Half.other, hflags]
  · simp [hflags]

end Sys2Proof.Machine
end

section
/-! PROOFS. A service among the other agents' steps (R68, R202, R264): while no transfer writes into its half, the sum
of the samples read and of those still to read is that of the half as it stood at the clear. -/

namespace Sys2Proof.Machine

/-- A step of an agent other than the host, RESET apart, leaves the lap alone (R20, R163). -/
theorem keepsLap_of_agent {i : Instr} (hh : agentOf i ≠ .host) (hr : i ≠ .reset) : keepsLap i = true := by
  cases i <;> simp_all [agentOf, keepsLap]

/-- The content of a slot as a number, 0 for a slot without a value. -/
def slotValue (s : State) (a : Nat) : Nat := ((s.buf.read a).getD 0).toNat

/-- The sum of a half's samples, slot by slot (R205). -/
theorem sampleSum_eq_slotValues {vs : List Sample} {slots : List Nat} {s : State}
    (h : vs.map some = slots.map s.buf.read) : sampleSum vs = (slots.map (slotValue s)).sum := by
  have hvs : vs = slots.map fun a => (s.buf.read a).getD 0 := by
    have := congrArg (List.map (Option.getD · 0)) h
    simpa [Function.comp_def] using this
  rw [sampleSum, hvs, List.map_map]
  rfl

/-- Where a service of half `h` of a ring of capacity `n` can stand before its line is handed over, `slots` being the
slots of the half and `f` their values at the clear. -/
def ServicePhase (h : Half) (n : Nat) (slots : List Nat) (f : Nat → Nat) (rest : List Half) : LoopPhase → Prop
  | .poll => False
  | .clear g r => g = h ∧ r = rest
  | .read g left sum r => g = h ∧ r = rest ∧ left ⊆ slots ∧ sum + (left.map f).sum = (slots.map f).sum
  | .send bytes r => bytes = reportLine h ((slots.map f).sum / (n / 2)) ∧ r = rest

/-- After the clear, and after each read, what was read and what is left make up the half. -/
theorem servicePhase_afterRead (h : Half) (n : Nat) {slots left : List Nat} {f : Nat → Nat} {sum : Nat}
    (rest : List Half) (hsub : left ⊆ slots) (hsum : sum + (left.map f).sum = (slots.map f).sum) :
    ServicePhase h n slots f rest (afterRead h n left sum rest) := by
  cases left with
  | nil => exact ⟨by rw [← hsum]; rfl, rfl⟩
  | cons a as => exact ⟨rfl, rfl, hsub, hsum⟩

/-- The loop of `x` is servicing `h`: its ring is that of the enabled circular engine, and the half is as it stood in
`s₀`. -/
structure Servicing (h : Half) (rest : List Half) (s₀ : State) (x : LoopState) : Prop where
  inv   : Inv x.st
  en    : x.st.te.en = true
  circ  : x.st.te.circ = true
  dinc  : x.st.te.dinc = true
  d     : x.d = x.st.te.dst.toNat
  n     : x.n = x.st.te.n.toNat
  same  : ∀ a ∈ halfSlots h x.d x.n, x.st.buf.read a = s₀.buf.read a
  phase : ServicePhase h x.n (halfSlots h x.d x.n) (slotValue s₀) rest x.phase

/-- The service stands on while the ring and the samples of its half do. -/
theorem Servicing.move {h : Half} {rest : List Half} {s₀ t : State} {x : LoopState} {p : LoopPhase}
    (k : Servicing h rest s₀ x) (inv : Inv t) (ring : SameRing x.st t)
    (same : ∀ a ∈ halfSlots h x.d x.n, t.buf.read a = x.st.buf.read a)
    (hp : ServicePhase h x.n (halfSlots h x.d x.n) (slotValue s₀) rest p) :
    Servicing h rest s₀ { x with st := t, phase := p } where
  inv := inv
  en := ring.en.trans k.en
  circ := ring.circ.trans k.circ
  dinc := ring.dinc.trans k.dinc
  d := ring.dst ▸ k.d
  n := ring.n ▸ k.n
  same := fun a ha => (same a ha).trans (k.same a ha)
  phase := hp

/-- The slots of the half lie inside the memory (R61). -/
theorem Servicing.slot_lt {h : Half} {rest : List Half} {s₀ : State} {x : LoopState} (k : Servicing h rest s₀ x)
    {a : Nat} (ha : a ∈ halfSlots h x.d x.n) : a < 65536 := by
  obtain ⟨_, _, hmem⟩ := cfgValid_bounds (k.inv.valid k.en)
  rw [← k.d, ← k.n] at hmem
  exact Nat.lt_of_lt_of_le (bounds_of_mem_halfSlots ha).2 hmem

/-- A step of another agent keeps the service, and a transfer takes one from those left to the half (R70, R264). -/
theorem Servicing.agent_step {h : Half} {rest : List Half} {s₀ t : State} {i : Instr} {x : LoopState}
    (k : Servicing h rest s₀ x) (hi : exec i x.st = .next t) (hk : keepsLap i = true)
    (hl : i = .xfer ∧ xferEnabled x.st = true → 0 < transfersLeft h x.st.te.cur.toNat x.n) :
    Servicing h rest s₀ { x with st := t } ∧
      transfersLeft h x.st.te.cur.toNat x.n = transfersLeft h t.te.cur.toNat x.n +
        (if i = .xfer ∧ xferEnabled x.st = true then 1 else 0) := by
  have inv := (exec_effect hi).keeps_inv k.inv
  obtain ⟨ring, ⟨hx, f⟩ | ⟨hx, hcur, hbuf⟩⟩ := lap_step hi hk k.en k.circ
  · obtain ⟨spared, left⟩ := transfer_spares_half h k.inv k.en k.dinc f (k.n ▸ hl hx)
    rw [← k.d, ← k.n] at spared
    rw [← k.n] at left
    exact ⟨k.move inv ring spared k.phase, by rw [if_pos hx, left]⟩
  · exact ⟨k.move inv ring (fun a _ => by rw [hbuf]) k.phase, by rw [if_neg hx, hcur, Nat.add_zero]⟩

/-- A move keeps the service, and a transfer takes one from those left to the half. -/
theorem Servicing.step {h : Half} {rest : List Half} {s₀ : State} {m : LoopMove} {x y : LoopState}
    (k : Servicing h rest s₀ x) (e : loopStep m x = .next y) (ha : m ≠ .accept) (hr : m ≠ .other .reset)
    (hl : m = .other .xfer ∧ xferEnabled x.st = true → 0 < transfersLeft h x.st.te.cur.toNat x.n) :
    Servicing h rest s₀ y ∧ y.d = x.d ∧ y.n = x.n ∧ y.sent = x.sent ∧
      transfersLeft h x.st.te.cur.toNat x.n = transfersLeft h y.st.te.cur.toNat x.n +
        (if m = .other .xfer ∧ xferEnabled x.st = true then 1 else 0) := by
  cases loopStep_effect e with
  | idle _ _ hm =>
    refine ⟨k, rfl, rfl, rfl, ?_⟩
    rw [if_neg]
    · rfl
    · rintro ⟨rfl, hx⟩
      simp [loopEnabled, agentOf, enabled, hx] at hm
  | poll first _ hp => simpa [hp, ServicePhase] using k.phase
  | clear g r _ hp =>
    have hphase := k.phase
    rw [hp] at hphase
    obtain ⟨rfl, rfl⟩ := hphase
    refine ⟨k.move ?_ (.of_te rfl) (fun _ _ => rfl)
      (servicePhase_afterRead g x.n r (List.Subset.refl _) (Nat.zero_add _)), rfl, rfl, rfl, by simp⟩
    exact k.inv.of_frame rfl rfl rfl rfl rfl rfl
  | read a v g left sum r _ hp hmem hv =>
    have hphase := k.phase
    rw [hp] at hphase
    obtain ⟨rfl, rfl, hsub, hsum⟩ := hphase
    have hslot := hsub hmem
    rw [Nat.mod_eq_of_lt (k.slot_lt hslot)] at hv
    have hvalue : slotValue s₀ a = v.toNat := by rw [slotValue, ← k.same a hslot, hv, Option.getD_some]
    refine ⟨k.move ?_ (.of_te rfl) (fun _ _ => rfl)
      (servicePhase_afterRead g x.n r (fun b hb => hsub (List.mem_of_mem_erase hb)) ?_), rfl, rfl, rfl, by simp⟩
    · exact k.inv.of_frame rfl rfl rfl rfl rfl rfl
    · rw [← hsum, ← List.sum_map_erase (slotValue s₀) hmem, hvalue, Nat.add_assoc]
  | accept => exact absurd rfl ha
  | other i t _ hh he hi =>
    have hne : i ≠ .reset := fun h => hr (congrArg LoopMove.other h)
    simp only [LoopMove.other.injEq] at hl
    obtain ⟨ky, hleft⟩ := k.agent_step hi (keepsLap_of_agent hh hne) hl
    exact ⟨ky, rfl, rfl, rfl, by simpa only [LoopMove.other.injEq] using hleft⟩

/-- The transfers of a run are that of its first move, if it is one, and those of the rest. -/
theorem loopTransfers_cons {m : LoopMove} {x z : LoopState} (ms : List LoopMove) (h : loopStep m x = .next z) :
    loopTransfers (m :: ms) x =
      (if m = .other .xfer ∧ xferEnabled x.st = true then 1 else 0) + loopTransfers ms z := by
  simp only [loopTransfers, h]

/-- A run that makes no more transfers than are left to the half keeps the service (R264). -/
theorem Servicing.run {h : Half} {rest : List Half} {s₀ : State} {ms : List LoopMove} {x y : LoopState}
    (k : Servicing h rest s₀ x) (e : runLoop ms x = .next y) (ha : .accept ∉ ms) (hr : .other .reset ∉ ms)
    (hl : loopTransfers ms x ≤ transfersLeft h x.st.te.cur.toNat x.n) :
    Servicing h rest s₀ y ∧ y.d = x.d ∧ y.n = x.n ∧ y.sent = x.sent := by
  induction ms generalizing x with
  | nil =>
    cases e
    exact ⟨k, rfl, rfl, rfl⟩
  | cons m ms ih =>
    obtain ⟨z, hz, e⟩ := runLoop_cons e
    rw [List.mem_cons, not_or] at ha hr
    rw [loopTransfers_cons ms hz] at hl
    obtain ⟨kz, hd, hn, hsent, hleft⟩ := k.step hz (Ne.symm ha.1) (Ne.symm hr.1) fun hx => by
      rw [if_pos hx] at hl
      omega
    obtain ⟨ky, hd', hn', hsent'⟩ := ih kz e ha.2 hr.2 (by rw [hn]; omega)
    exact ⟨ky, hd'.trans hd, hn'.trans hn, hsent'.trans hsent⟩

/-- Settles O59: when the loop comes to send, no slot is left to read, and the sum is that of the half. -/
theorem interleavedServiceReportsItsHalf : Obligations.InterleavedServiceReportsItsHalf := by
  intro ms x y h rest rest' vs bytes hi he hc hd hxd hxn hp hvs ha hr hl e hsend
  have k : Servicing h rest x.st x := ⟨hi, he, hc, hd, hxd, hxn, fun _ _ => rfl, by rw [hp]; exact ⟨rfl, rfl⟩⟩
  obtain ⟨ky, hyd, hyn, hsent⟩ := k.run e ha hr hl
  have hphase := ky.phase
  rw [hsend, hyd, hyn] at hphase
  obtain ⟨hbytes, hrest⟩ := hphase
  rw [← sampleSum_eq_slotValues hvs] at hbytes
  exact ⟨hbytes, hrest, hsent⟩

end Sys2Proof.Machine
end

section
/-! PROOFS. The Consumer Loop runs forever among the other agents (R67, R69, R201, R210): what `LoopInv` says of the
block is kept by the agents, because a transfer only adds samples and a half is reported when its last slot is written;
what it says of the phase is kept because the agents clear no flag. -/

namespace Sys2Proof.Machine

/-! ### The two parts of the invariant -/

/-- What `LoopInv` says of the block: the slots behind the cursor hold values, and so does a half that is reported. -/
structure RingFilled (d n : Nat) (s : State) : Prop where
  inv   : Inv s
  valid : cfgValid s.te = true
  dinc  : s.te.dinc = true
  ring  : d = s.te.dst.toNat ∧ n = s.te.n.toNat
  lap   : ∀ j, j < s.te.cur.toNat → s.buf.read (d + j) ≠ none
  half  : ∀ h : Half, h.pending s = true ∨ h.flag s = true → HalfWritten h d n s.buf

/-- What `LoopInv` says of the phase: the flags still to be cleared are set, and a half in service is filled. -/
def PhaseFits (d n : Nat) (s : State) : LoopPhase → Prop
  | .poll => True
  | .clear h rest => (h :: rest).Nodup ∧ ∀ g ∈ h :: rest, g.flag s = true
  | .read h left _ rest =>
    left ≠ [] ∧ (∀ a ∈ left, a ∈ halfSlots h d n) ∧ HalfWritten h d n s.buf ∧ rest.Nodup ∧ ∀ g ∈ rest, g.flag s = true
  | .send left rest => left ≠ [] ∧ rest.Nodup ∧ ∀ g ∈ rest, g.flag s = true

theorem loopInv_iff (x : LoopState) :
    LoopInv x ↔ RingFilled x.d x.n x.st ∧ PhaseFits x.d x.n x.st x.phase := by
  obtain ⟨d, n, phase, sent, s⟩ := x
  constructor
  · intro k
    refine ⟨⟨k.inv, k.valid, k.dinc, k.ring, k.lap, fun h => ?_⟩, ?_⟩
    · cases h
      · exact k.half0
      · exact k.half1
    · have := k.phase
      cases phase <;> exact this
  · rintro ⟨k, hphase⟩
    exact ⟨k.inv, k.valid, k.dinc, k.ring, k.lap, k.half .half0, k.half .half1, by cases phase <;> exact hphase⟩

/-! ### The phases -/

section
variable {d n : Nat} {s t : State} {rest : List Half}

/-- On to the next half: what is to be cleared is set (R201, R210). -/
theorem phaseFits_nextService (hnodup : rest.Nodup) (hflags : ∀ g ∈ rest, g.flag s = true) :
    PhaseFits d n s (nextService rest) := by
  cases rest with
  | nil => trivial
  | cons h rest => exact ⟨hnodup, hflags⟩

theorem phaseFits_afterAccept (left : List Byte) (hnodup : rest.Nodup) (hflags : ∀ g ∈ rest, g.flag s = true) :
    PhaseFits d n s (afterAccept left rest) := by
  cases left with
  | nil => exact phaseFits_nextService hnodup hflags
  | cons b bs => exact ⟨by simp, hnodup, hflags⟩

theorem phaseFits_afterRead {h : Half} {left : List Nat} (sum : Nat) (hleft : ∀ a ∈ left, a ∈ halfSlots h d n)
    (hw : HalfWritten h d n s.buf) (hnodup : rest.Nodup) (hflags : ∀ g ∈ rest, g.flag s = true) :
    PhaseFits d n s (afterRead h n left sum rest) := by
  cases left with
  | nil =>
    rw [afterRead_nil]
    exact phaseFits_afterAccept _ hnodup hflags
  | cons a as => exact ⟨by simp, hleft, hw, hnodup, hflags⟩

/-- A phase fits on while no flag is cleared and no slot loses its value. -/
theorem PhaseFits.mono {p : LoopPhase} (hp : PhaseFits d n s p) (hflags : ∀ g : Half, g.flag s = true → g.flag t = true)
    (hbuf : ∀ a, s.buf.read a ≠ none → t.buf.read a ≠ none) : PhaseFits d n t p := by
  cases p with
  | poll => trivial
  | clear h rest =>
    obtain ⟨hnodup, hset⟩ := hp
    exact ⟨hnodup, fun g hg => hflags g (hset g hg)⟩
  | read h left sum rest =>
    obtain ⟨hne, hleft, hw, hnodup, hset⟩ := hp
    exact ⟨hne, hleft, fun a ha => hbuf a (hw a ha), hnodup, fun g hg => hflags g (hset g hg)⟩
  | send left rest =>
    obtain ⟨hne, hnodup, hset⟩ := hp
    exact ⟨hne, hnodup, fun g hg => hflags g (hset g hg)⟩

/-! ### The block -/

/-- A command of the loop sets no flag and leaves the engine and the samples alone. -/
theorem RingFilled.of_frame (k : RingFilled d n s) (tg : t.tg = s.tg) (te : t.te = s.te) (buf : t.buf = s.buf)
    (flags : ∀ h : Half, h.flag t = true → h.flag s = true) : RingFilled d n t where
  inv := k.inv.of_frame tg (te ▸ rfl) (te ▸ rfl) (te ▸ rfl) (te ▸ rfl) buf
  valid := te ▸ k.valid
  dinc := te ▸ k.dinc
  ring := te ▸ k.ring
  lap := by
    rw [te, buf]
    exact k.lap
  half := fun h hh => by
    have hp : h.pending t = h.pending s := by cases h <;> simp only [Half.pending, te]
    rw [buf]
    exact k.half h (hh.imp (hp ▸ ·) (flags h))

/-- Only a transfer that ends a half newly reports it; what follows is the ACK of what was pending (R69). -/
theorem reported_or_transfer {i : Instr} (e : exec i s = .next t) {h : Half}
    (ht : h.pending t = true ∨ h.flag t = true) :
    (h.pending s = true ∨ h.flag s = true) ∨
      i = .xfer ∧ xferEnabled s = true ∧ s.te.cur.toNat + 1 = h.stop s.te.n.toNat := by
  rcases ht with ht | ht
  · exact (pending_or_transfer e ht).imp_left .inl
  · exact .inl ((flag_or_ack e ht).symm.imp_left And.right)

/-- A slot of a half is a ring index below the half's end (R31). -/
theorem exists_index_of_mem_halfSlots {h : Half} {a : Nat} (ha : a ∈ halfSlots h d n) :
    ∃ j, a = d + j ∧ j < h.stop n := by
  obtain ⟨hge, hlt⟩ := mem_halfSlots.mp ha
  obtain ⟨j, rfl⟩ := Nat.exists_eq_add_of_le hge
  exact ⟨h.first n + j, Nat.add_assoc _ _ _, by cases h <;> simp only [Half.first, Half.stop] at * <;> omega⟩

/-- A transfer adds a sample and loses none (R162). -/
theorem Transferred.read_ne_none (f : Transferred s t) {a : Nat} (h : a = xferSlot s.te ∨ s.buf.read a ≠ none) :
    t.buf.read a ≠ none := by
  rw [f.buf, Memory.read_write]
  split
  · simp
  · next hne => exact h.resolve_left hne

/-- A transfer fills the ring up to the slot it writes (R61, R162). -/
theorem RingFilled.behind_transfer (k : RingFilled d n s) (f : Transferred s t) :
    ∀ j, j < s.te.cur.toNat + 1 → t.buf.read (d + j) ≠ none := by
  intro j hj
  refine f.read_ne_none ((Nat.lt_succ_iff_lt_or_eq.mp hj).symm.imp (fun h => ?_) (k.lap j))
  rw [xferSlot, if_pos k.dinc, k.ring.1, h]

/-- A step of another agent, RESET apart, keeps the ring filled and loses no sample. -/
theorem RingFilled.agent_step {i : Instr} (k : RingFilled d n s) (hh : agentOf i ≠ .host) (hr : i ≠ .reset)
    (e : exec i s = .next t) : RingFilled d n t ∧ ∀ a, s.buf.read a ≠ none → t.buf.read a ≠ none := by
  obtain ⟨hcfg, _, step⟩ := agent_frame hh hr e
  simp only [Prod.mk.injEq] at hcfg
  obtain ⟨_, hdinc, hsfix, hsrc, hdst, hn⟩ := hcfg
  have hvalid : cfgValid t.te = true := by
    have := k.valid
    simpa only [cfgValid, hsfix, hsrc, hdst, hn] using this
  have build (hbuf : ∀ a, s.buf.read a ≠ none → t.buf.read a ≠ none)
      (hlap : ∀ j, j < t.te.cur.toNat → t.buf.read (d + j) ≠ none)
      (hnew : i = .xfer ∧ xferEnabled s = true → ∀ j, j < s.te.cur.toNat + 1 → t.buf.read (d + j) ≠ none) :
      RingFilled d n t ∧ ∀ a, s.buf.read a ≠ none → t.buf.read a ≠ none := by
    refine ⟨⟨(exec_effect e).keeps_inv k.inv, hvalid, hdinc.trans k.dinc, hdst ▸ hn ▸ k.ring, hlap,
      fun h ht a ha => ?_⟩, hbuf⟩
    rcases reported_or_transfer e ht with hs | ⟨hx, hen, hstop⟩
    · exact hbuf a (k.half h hs a ha)
    · obtain ⟨j, rfl, hj⟩ := exists_index_of_mem_halfSlots ha
      rw [k.ring.2, ← hstop] at hj
      exact hnew ⟨hx, hen⟩ j hj
  rcases step with ⟨_, hen, f⟩ | ⟨hx, hbuf, hcur, _⟩
  · obtain ⟨he, _⟩ := Bool.and_eq_true_iff.mp hen
    have behind := k.behind_transfer f
    refine build (fun a ha => f.read_ne_none (.inr ha)) (fun j hj => behind j ?_) fun _ => behind
    rw [f.cur_toNat (k.inv.cur_lt he)] at hj
    split at hj <;> omega
  · exact build (hbuf ▸ fun _ => id) (hbuf ▸ hcur ▸ k.lap) fun h => absurd h hx

end

/-! ### The moves -/

/-- Which moves may come next, by the phase (R68, R201). -/
theorem loopEnabled_cases {m : LoopMove} {x : LoopState} (h : loopEnabled m x = true) :
    (∃ first, m = .poll first ∧ x.phase = .poll) ∨
    (∃ g rest, m = .clear ∧ x.phase = .clear g rest) ∨
    (∃ a g left sum rest, m = .read a ∧ x.phase = .read g left sum rest ∧ a ∈ left) ∨
    (∃ b bs rest, m = .accept ∧ x.phase = .send (b :: bs) rest) ∨
    ∃ i, m = .other i ∧ agentOf i ≠ .host ∧ enabled i x.st = true := by
  unfold loopEnabled at h
  split at h
  · next hp => exact .inl ⟨_, rfl, hp⟩
  · next hp => exact .inr (.inl ⟨_, _, rfl, hp⟩)
  · next hp => exact .inr (.inr (.inl ⟨_, _, _, _, _, rfl, hp, by simpa using h⟩))
  · next hp => exact .inr (.inr (.inr (.inl ⟨_, _, _, rfl, hp⟩)))
  · exact .inr (.inr (.inr (.inr ⟨_, rfl, by simpa using h⟩)))
  · cases h

/-- In every phase that fits the loop has a move of its own (R204). -/
theorem exists_own_move {d n : Nat} {x : LoopState} (h : PhaseFits d n x.st x.phase) :
    ∃ m, m.isOwn = true ∧ loopEnabled m x = true := by
  cases hp : x.phase with
  | poll => exact ⟨.poll .half0, rfl, by simp [loopEnabled, hp]⟩
  | clear g rest => exact ⟨.clear, rfl, by simp [loopEnabled, hp]⟩
  | read g left sum rest =>
    cases left with
    | nil => simp [hp, PhaseFits] at h
    | cons a as => exact ⟨.read a, rfl, by simp [loopEnabled, hp]⟩
  | send left rest =>
    cases left with
    | nil => simp [hp, PhaseFits] at h
    | cons b bs => exact ⟨.accept, rfl, by simp [loopEnabled, hp]⟩

/-- The poll reads the flags and clears none (R186, R201). -/
theorem LoopInv.poll {x : LoopState} (k : LoopInv x) (first : Half) :
    LoopInv { x with
      st := x.st.answerReg .cfSr
      phase := nextService (halvesToService first (readReg x.st .cfSr)) } := by
  obtain ⟨ring, _⟩ := (loopInv_iff x).mp k
  exact (loopInv_iff _).mpr ⟨ring.of_frame rfl rfl rfl fun _ => id,
    phaseFits_nextService (nodup_halvesToService _ _) fun g hg => mem_halvesToService.mp hg⟩

/-- The clear begins the service of a half that is filled, and leaves the flags of those after it (R72, R202). -/
theorem LoopInv.clear {x : LoopState} (k : LoopInv x) {h : Half} {rest : List Half} (hp : x.phase = .clear h rest) :
    LoopInv { x with
      st := { x.st with cf := clearFlags x.st.cf h.clearData }.done
      phase := afterRead h x.n (halfSlots h x.d x.n) 0 rest } ∧ h.flag x.st = true := by
  obtain ⟨ring, phase⟩ := (loopInv_iff x).mp k
  rw [hp] at phase
  obtain ⟨hnodup, hset⟩ := phase
  obtain ⟨hh, hrest⟩ := List.forall_mem_cons.mp hset
  obtain ⟨hnot, hnodup⟩ := List.nodup_cons.mp hnodup
  refine ⟨(loopInv_iff _).mpr ⟨ring.of_frame rfl rfl rfl fun g hg => ?_, phaseFits_afterRead 0 (fun _ => id)
    (ring.half h (.inr hh)) hnodup fun g hg => ?_⟩, hh⟩
  · rw [flag_clear, Bool.and_eq_true] at hg
    exact hg.1
  · have hne : g ≠ h := fun e => hnot (e ▸ hg)
    rw [flag_clear, hrest g hg, Bool.true_and, decide_eq_true hne]

/-- A read finds a value, in a slot of the ring (R67, R200). -/
theorem LoopInv.read {x : LoopState} (k : LoopInv x) {h : Half} {left : List Nat} {sum a : Nat} {rest : List Half}
    (hp : x.phase = .read h left sum rest) (ha : a ∈ left) :
    a < 65536 ∧ x.d ≤ a ∧ a < x.d + x.n ∧ ∃ v, x.st.buf.read a = some v ∧
      LoopInv { x with
        st := x.st.respond .ok v
        phase := afterRead h x.n (left.erase a) (sum + v.toNat) rest } := by
  obtain ⟨ring, phase⟩ := (loopInv_iff x).mp k
  rw [hp] at phase
  obtain ⟨_, hleft, hw, hnodup, hset⟩ := phase
  obtain ⟨hge, hlt⟩ := bounds_of_mem_halfSlots (hleft a ha)
  obtain ⟨_, _, hmem⟩ := cfgValid_bounds ring.valid
  rw [← ring.ring.1, ← ring.ring.2] at hmem
  obtain ⟨v, hv⟩ := Option.ne_none_iff_exists'.mp (hw a (hleft a ha))
  exact ⟨Nat.lt_of_lt_of_le hlt hmem, hge, hlt, v, hv, (loopInv_iff _).mpr ⟨ring.of_frame rfl rfl rfl fun _ => id,
    phaseFits_afterRead _ (fun b hb => hleft b (List.mem_of_mem_erase hb)) hw hnodup hset⟩⟩

/-- The transport takes a byte, and the block stays (R211). -/
theorem LoopInv.accept {x : LoopState} (k : LoopInv x) {b : Byte} {bs : List Byte} {rest : List Half}
    (hp : x.phase = .send (b :: bs) rest) :
    LoopInv { x with sent := x.sent ++ [b], phase := afterAccept bs rest } := by
  obtain ⟨ring, phase⟩ := (loopInv_iff x).mp k
  rw [hp] at phase
  obtain ⟨_, hnodup, hset⟩ := phase
  exact (loopInv_iff _).mpr ⟨ring, phaseFits_afterAccept bs hnodup hset⟩

/-- A step of another agent, RESET apart, completes and leaves the host's data alone (R68, R69). -/
theorem LoopInv.agent_step {x : LoopState} (k : LoopInv x) {i : Instr} (hh : agentOf i ≠ .host) (hr : i ≠ .reset) :
    ∃ t, exec i x.st = .next t ∧ LoopInv { x with st := t } := by
  obtain ⟨ring, phase⟩ := (loopInv_iff x).mp k
  obtain ⟨t, e⟩ : ∃ t, exec i x.st = .next t := by
    refine (exec_completes_or_unwritten ring.inv i).resolve_right ?_
    rintro ⟨a, rfl, _⟩
    exact hh rfl
  obtain ⟨ring', hbuf⟩ := ring.agent_step hh hr e
  exact ⟨t, e, (loopInv_iff _).mpr ⟨ring', phase.mono (agent_frame hh hr e).2.1 hbuf⟩⟩

/-- After boot with clear flags no half is reported and no slot stands behind the cursor (R262). -/
theorem loopInv_loopStart {s : State} (hb : Booted s) (hcf : s.cf = ⟨false, false⟩) : LoopInv (loopStart s) := by
  obtain ⟨_, _, hht, htc, _⟩ := (settled_iff s).mp hb.settled
  refine (loopInv_iff _).mpr
    ⟨⟨hb.inv, hb.inv.valid hb.en, hb.dinc, ⟨rfl, rfl⟩, fun j hj => ?_, fun h hh => ?_⟩, trivial⟩
  · rw [loopStart, hb.cur] at hj
    cases hj
  · cases h <;> simp [loopStart, Half.pending, Half.flag, hht, htc, hcf] at hh

/-- Settles O56: every move keeps the invariant, the agents' steps included, and each own move is one of the three
commands or a byte taken. -/
theorem consumerLoopRunsForever : Obligations.ConsumerLoopRunsForever := by
  refine ⟨fun s => loopInv_loopStart, fun x k => ⟨exists_own_move ((loopInv_iff x).mp k).2, fun m hm hr => ?_⟩⟩
  rcases loopEnabled_cases hm with ⟨first, rfl, hp⟩ | ⟨h, rest, rfl, hp⟩ | ⟨a, h, left, sum, rest, rfl, hp, ha⟩ |
    ⟨b, bs, rest, rfl, hp⟩ | ⟨i, rfl, hh, he⟩
  · exact ⟨_, loopStep_poll hp, k.poll first, .inr ⟨.rdCfSr, ⟨rfl, rfl⟩, .inr ⟨rfl, .inl rfl⟩⟩⟩
  · obtain ⟨kept, hset⟩ := k.clear hp
    exact ⟨_, loopStep_clear hp, kept, .inr ⟨.wrCfSr h.clearData, ⟨rfl, rfl⟩, .inr ⟨rfl, .inr (.inl ⟨h, rfl, hset⟩)⟩⟩⟩
  · obtain ⟨hlt, hge, hend, v, hv, kept⟩ := k.read hp ha
    have hslot : (BitVec.ofNat 16 a).toNat = a := by rw [BitVec.toNat_ofNat, Nat.mod_eq_of_lt hlt]
    have hread : x.st.buf.read (BitVec.ofNat 16 a).toNat = some v := by rw [hslot, hv]
    refine ⟨_, loopStep_read hp ha (by rw [Nat.mod_eq_of_lt hlt, hv]), kept, .inr
      ⟨_, ⟨rfl, exec_rds_of_written hread⟩, .inr ⟨rfl, .inr (.inr ⟨_, v, rfl, ?_, ?_, hread⟩)⟩⟩⟩
    · rwa [hslot]
    · rwa [hslot]
  · exact ⟨_, loopStep_accept hp, k.accept hp, .inl ⟨rfl, rfl⟩⟩
  · obtain ⟨t, e, kept⟩ := k.agent_step hh fun h => hr (congrArg LoopMove.other h)
    exact ⟨_, loopStep_other hh he e, kept, .inr ⟨i, ⟨he, e⟩, .inl ⟨rfl, hh, rfl⟩⟩⟩

end Sys2Proof.Machine
end

section
/-! PROOFS. Who writes what (R242): every effect of an instruction, row by row of the table. -/

namespace Sys2Proof.Machine

/-- A step that leaves every state element alone writes nothing, whosever step it is. -/
theorem WrittenBy.of_unchanged (i : Instr) {s t : State} (tg : t.tg = s.tg) (se : t.se = s.se) (drq : t.drq = s.drq)
    (te : t.te = s.te) (cf : t.cf = s.cf) (buf : t.buf = s.buf) : WrittenBy i s t := by
  constructor <;> simp +contextual [tg, se, drq, te, cf, buf]

/-- Ticks write the counters, and start conversions (R117, R135). -/
theorem TickFrame.writtenBy {s t : State} (f : TickFrame s t) (n : Data) : WrittenBy (.tick n) s t.done := by
  constructor <;> simp +contextual [f.psc, f.arr, f.run, f.arm, f.edge, f.ch, f.smp, f.dr, f.drq, f.te, f.cf, f.buf]

/-- A non-circular engine stops in the transfer that reaches the end of the ring, and no other transfer changes the
enable bit (R162). -/
theorem Transferred.stops_only_at_end {s t : State} (f : Transferred s t) (hen : s.te.en = true)
    (hne : t.te.en ≠ s.te.en) :
    s.te.circ = false ∧ s.te.cur.toNat + 1 = s.te.n.toNat ∧ t.te.en = false := by
  obtain ⟨hcirc, hend⟩ : s.te.circ = false ∧ s.te.cur.toNat + 1 = s.te.n.toNat := by simpa [f.en, hen] using hne
  exact ⟨hcirc, hend, by simp [f.en, hcirc, hend]⟩

/-- A transfer writes a slot, takes the request, moves the cursor, and raises the two conditions (R162). -/
theorem Transferred.writtenBy {s t : State} (f : Transferred s t) (hen : s.te.en = true) : WrittenBy .xfer s t := by
  constructor
  case en => exact fun hne => .inr ⟨rfl, f.stops_only_at_end hen hne⟩
  all_goals
    simp +contextual [f.tg, f.se, f.cf, f.drq, f.htif, f.tcif, f.circ, f.dinc, f.sfix, f.src, f.dst, f.n, f.teif,
      f.feif, f.dmeif]

/-- The write set of every effect but RESET. What is left after the named cases is a write of registers, conditions or
flags by name, and each clause is read off its record. -/
theorem Effect.writtenBy {i : Instr} {s t : State} (h : Effect i s t) (hr : i ≠ .reset) : WrittenBy i s t := by
  cases h with
  | read | refused | stays | slot => exact .of_unchanged _ rfl rfl rfl rfl rfl rfl
  | tick n => exact (tickMany_frame s n.toNat).writtenBy n
  | xfer _ hx _ => exact (transfer_spec s).writtenBy (Bool.and_eq_true_iff.mp hx).1
  | reset => exact absurd rfl hr
  | clear d => constructor <;> simp +contextual [clearFlags]
  | _ => constructor <;> simp +contextual [*]

/-- Settles O41: no effect but RESET writes outside its row. -/
theorem stateIsWrittenOnlyByItsOwner : Obligations.StateIsWrittenOnlyByItsOwner := fun _ _ _ e =>
  (exec_effect e).writtenBy

end Sys2Proof.Machine
end

section
/-! PROOFS. What is pending is acknowledged (R240, R271): only its own step ends a condition or a conversion, so until
then it stays enabled, and weak fairness brings the step. -/

namespace Sys2Proof.Machine

/-- In an infinite run, what every step but the awaited ones keeps, and fairness does not let stay for good, is ended by
an awaited step. -/
theorem IsRun.awaited_comes {σ : Nat → State} {ι : Nat → Instr} (run : IsRun σ ι) {P : State → Prop}
    {awaited : Instr → Prop} (keeps : ∀ i s t, exec i s = .next t → ¬ awaited i → P s → P t) {k : Nat}
    (fair : (∀ j, k ≤ j → P (σ j)) → ∃ j, k ≤ j ∧ awaited (ι j)) (hk : P (σ k)) : ∃ j, k ≤ j ∧ awaited (ι j) := by
  by_contra hnever
  have never : ∀ j, k ≤ j → ¬ awaited (ι j) := fun j hj ha => hnever ⟨j, hj, ha⟩
  have stays : ∀ j, k ≤ j → P (σ j) := fun j hj => by
    induction j, hj using Nat.le_induction with
    | base => exact hk
    | succ j hj ih => exact keeps _ _ _ (run j).2 (never j hj) ih
  exact hnever (fair stays)

/-- A condition stays pending until its own ACK step or RESET (R180, R242). -/
theorem condition_stays_pending {a i : Instr} {s t : State} (ha : a ∈ [Instr.ackHt, .ackTc, .ackTe, .ackFe, .ackDme])
    (e : exec i s = .next t) (hi : ¬ (i = a ∨ i = .reset)) (hs : enabled a s = true) : enabled a t = true := by
  obtain ⟨hia, hr⟩ := not_or.mp hi
  have w := (exec_effect e).writtenBy hr
  by_contra ht
  rw [Bool.not_eq_true] at ht
  fin_cases ha
  · exact hia (w.htDn hs ht)
  · exact hia (w.tcDn hs ht)
  · exact hia (w.teDn hs ht)
  · exact hia (w.feDn hs ht)
  · exact hia (w.dmDn hs ht)

/-- A conversion stays in progress until CONV or RESET: a tick starts conversions and ends none (R135, R242). -/
theorem conversion_stays_busy {i : Instr} {s t : State} (e : exec i s = .next t)
    (hi : ¬ ((∃ v, i = .conv v) ∨ i = .reset)) (hs : s.se.busy = true) : t.se.busy = true := by
  obtain ⟨hconv, hr⟩ := not_or.mp hi
  by_contra ht
  rcases ((exec_effect e).writtenBy hr).busy (fun h => ht (h.trans hs)) with ⟨n, rfl⟩ | hv
  · cases e
    exact ht ((tickMany_frame s n.toNat).busy hs)
  · exact hconv hv

/-- Settles O37: each of the six stays enabled until its own step or RESET, and the run is fair for its step. -/
theorem pendingConditionsAreEventuallyAcknowledged : Obligations.PendingConditionsAreEventuallyAcknowledged := by
  intro σ ι run ⟨fairConv, fairAgents⟩ k
  refine ⟨fun a ha => run.awaited_comes (P := fun s => enabled a s = true) (fun _ _ _ => condition_stays_pending ha)
      fun stays => ?_, run.awaited_comes (P := fun s => s.se.busy = true) (fun _ _ _ => conversion_stays_busy)
      fun stays => ?_⟩
  · obtain ⟨j, hj, hfires⟩ := fairAgents a (List.mem_cons_of_mem _ ha) k stays
    exact ⟨j, hj, .inl hfires⟩
  · obtain ⟨j, hj, hfires⟩ := fairConv k stays
    exact ⟨j, hj, .inl hfires⟩

end Sys2Proof.Machine
end

section
/-! PROOFS. Every flag is serviced (R201, R204, R239, R268). A flag that is set stays set until the loop clears it.
Until then each own move of the loop brings that clear nearer: the loop works off the halves it has found set, polls, and
then has the half among them. -/

namespace Sys2Proof.Machine

/-! ### How far the clear of a half is away -/

/-- The halves found set in the last poll and not yet cleared. -/
def LoopPhase.toClear : LoopPhase → List Half
  | .poll => []
  | .clear h rest => h :: rest
  | .read _ _ _ rest => rest
  | .send _ rest => rest

/-- What is left of the service in progress: reads, then bytes, then nothing. -/
def LoopPhase.serviceLeft : LoopPhase → Nat ×ₗ Nat
  | .poll => toLex (0, 0)
  | .clear _ _ => toLex (0, 0)
  | .read _ left _ _ => toLex (2, left.length)
  | .send left _ => toLex (1, left.length)

/-- The distance from a phase to the clear of half `h`: whether a poll has still to find it, how many halves are to be
cleared, and what is left of the service in progress. -/
def LoopPhase.distance (h : Half) (p : LoopPhase) : Nat ×ₗ Nat ×ₗ Nat ×ₗ Nat :=
  toLex (if h ∈ p.toClear then 0 else 1, toLex (p.toClear.length, p.serviceLeft))

section
variable {h g : Half} {p q : LoopPhase}

/-- The poll has found the half. -/
theorem distance_lt_of_found (hp : h ∉ p.toClear) (hq : h ∈ q.toClear) : q.distance h < p.distance h := by
  simp [LoopPhase.distance, Prod.Lex.toLex_lt_toLex, hp, hq]

/-- The clear of another half is done. -/
theorem distance_lt_of_cleared (hne : h ≠ g) (hp : p.toClear = g :: q.toClear) : q.distance h < p.distance h := by
  simp [LoopPhase.distance, Prod.Lex.toLex_lt_toLex, hp, hne]

/-- The service in progress has gone on. -/
theorem distance_lt_of_serviceLeft (hp : q.toClear = p.toClear) (hl : q.serviceLeft < p.serviceLeft) :
    q.distance h < p.distance h := by
  simp [LoopPhase.distance, Prod.Lex.toLex_lt_toLex, hp, hl]

@[simp] theorem toClear_nextService (rest : List Half) : (nextService rest).toClear = rest := by
  cases rest <;> rfl

@[simp] theorem toClear_afterAccept (left : List Byte) (rest : List Half) : (afterAccept left rest).toClear = rest := by
  cases left with
  | nil => exact toClear_nextService rest
  | cons b bs => rfl

@[simp] theorem toClear_afterRead (h : Half) (n : Nat) (left : List Nat) (sum : Nat) (rest : List Half) :
    (afterRead h n left sum rest).toClear = rest := by
  cases left <;> rfl

theorem serviceLeft_afterAccept_lt (b : Byte) (bs : List Byte) (rest : List Half) :
    (afterAccept bs rest).serviceLeft < (LoopPhase.send (b :: bs) rest).serviceLeft := by
  cases bs with
  | nil => cases rest <;> simp [afterAccept, nextService, LoopPhase.serviceLeft, Prod.Lex.toLex_lt_toLex]
  | cons => simp [afterAccept, LoopPhase.serviceLeft, Prod.Lex.toLex_lt_toLex]

theorem serviceLeft_afterRead_lt (h : Half) (n : Nat) {left left' : List Nat} (sum sum' : Nat) (rest : List Half)
    (hlt : left'.length < left.length) :
    (afterRead h n left' sum' rest).serviceLeft < (LoopPhase.read h left sum rest).serviceLeft := by
  cases left' with
  | nil => simp [afterRead, LoopPhase.serviceLeft, Prod.Lex.toLex_lt_toLex]
  | cons => simpa [afterRead, LoopPhase.serviceLeft, Prod.Lex.toLex_lt_toLex] using hlt

end

/-! ### The moves -/

/-- A move that may come while the flag of a half is set is the clear of that half, or it leaves the flag set; and then
an own move of the loop brings the clear nearer, and another agent's leaves the phase as it is. -/
theorem LoopEffect.clears_or_approaches {h : Half} {m : LoopMove} {x y : LoopState} (e : LoopEffect m x y)
    (hm : loopEnabled m x = true) (hr : m ≠ .other .reset) (hf : h.flag x.st = true) :
    (m = .clear ∧ ∃ rest, x.phase = .clear h rest) ∨
    h.flag y.st = true ∧
      (y.phase.distance h < x.phase.distance h ∨ m.isOwn = false ∧ y.phase = x.phase) := by
  cases e with
  | idle _ _ hidle => simp [hm] at hidle
  | poll first _ hp =>
    refine .inr ⟨hf, .inl (distance_lt_of_found ?_ ?_)⟩
    · simp [hp, LoopPhase.toClear]
    · simpa using mem_halvesToService.mpr hf
  | clear g rest _ hp =>
    by_cases hg : h = g
    · exact .inl ⟨rfl, rest, hg ▸ hp⟩
    · refine .inr ⟨by simp [flag_clear, hf, hg], .inl (distance_lt_of_cleared hg ?_)⟩
      rw [hp, toClear_afterRead]
      rfl
  | read a v g left sum rest _ hp ha _ =>
    refine .inr ⟨hf, .inl (distance_lt_of_serviceLeft ?_ ?_)⟩
    · rw [hp, toClear_afterRead]
      rfl
    · rw [hp]
      refine serviceLeft_afterRead_lt _ _ _ _ _ ?_
      rw [List.length_erase_of_mem ha]
      exact Nat.sub_one_lt (List.length_pos_of_mem ha).ne'
  | accept b bs rest _ hp =>
    refine .inr ⟨hf, .inl (distance_lt_of_serviceLeft ?_ ?_)⟩
    · rw [hp, toClear_afterAccept]
      rfl
    · rw [hp]
      exact serviceLeft_afterAccept_lt b bs rest
  | other i t _ hh _ hexec =>
    obtain ⟨_, flags, _⟩ := agent_frame hh (fun hi => hr (congrArg LoopMove.other hi)) hexec
    exact .inr ⟨flags h hf, .inr ⟨rfl, rfl⟩⟩

/-! ### The run -/

/-- From moment `k` on the flag of half `h` stays set until the loop clears it. -/
def ServicedFrom (σ : Nat → LoopState) (μ : Nat → LoopMove) (h : Half) (k : Nat) : Prop :=
  ∃ j rest, k ≤ j ∧ (∀ i, k ≤ i → i ≤ j → h.flag (σ i).st = true) ∧ μ j = .clear ∧ (σ j).phase = .clear h rest

section
variable {σ : Nat → LoopState} {μ : Nat → LoopMove} {h : Half} {k : Nat}

theorem ServicedFrom.of_now {rest : List Half} (hf : h.flag (σ k).st = true) (hm : μ k = .clear)
    (hp : (σ k).phase = .clear h rest) : ServicedFrom σ μ h k :=
  ⟨k, rest, Nat.le_refl k, fun _ hge hle => Nat.le_antisymm hge hle ▸ hf, hm, hp⟩

theorem ServicedFrom.of_succ (hf : h.flag (σ k).st = true) (hs : ServicedFrom σ μ h (k + 1)) :
    ServicedFrom σ μ h k := by
  obtain ⟨j, rest, hj, flags, hm, hp⟩ := hs
  refine ⟨j, rest, Nat.le_of_succ_le hj, fun i hge hle => ?_, hm, hp⟩
  rcases Nat.eq_or_lt_of_le hge with rfl | hlt
  · exact hf
  · exact flags i hlt hle

/-- One moment of the run at which the flag is set. -/
theorem servicedFrom_or_approaches (run : IsLoopRun σ μ) (noReset : ∀ k, μ k ≠ .other .reset)
    (hf : h.flag (σ k).st = true) :
    ServicedFrom σ μ h k ∨
    h.flag (σ (k + 1)).st = true ∧
      ((σ (k + 1)).phase.distance h < (σ k).phase.distance h ∨
        (μ k).isOwn = false ∧ (σ (k + 1)).phase = (σ k).phase) := by
  obtain ⟨hm, hstep⟩ := run k
  exact ((loopStep_effect hstep).clears_or_approaches hm (noReset k) hf).imp_left
    fun ⟨hclear, _, hp⟩ => .of_now hf hclear hp

/-- By induction on the distance to the clear, and within it on the time until the next own move of the loop. -/
theorem servicedFrom_of_flag (run : IsLoopRun σ μ) (own : ∀ k, ∃ j, k ≤ j ∧ (μ j).isOwn = true)
    (noReset : ∀ k, μ k ≠ .other .reset) (hf : h.flag (σ k).st = true) : ServicedFrom σ μ h k := by
  induction hd : (σ k).phase.distance h using WellFoundedLT.induction generalizing k with
  | ind d nearer =>
    obtain ⟨j, hj, hown⟩ := own k
    obtain ⟨wait, rfl⟩ := Nat.exists_eq_add_of_le hj
    clear hj
    induction wait generalizing k with
    | zero =>
      rcases servicedFrom_or_approaches run noReset hf with hs | ⟨hf', hlt | ⟨hother, _⟩⟩
      · exact hs
      · exact .of_succ hf (nearer _ (hd ▸ hlt) hf' rfl)
      · exact absurd (hown.symm.trans hother) (by decide)
    | succ wait sooner =>
      rcases servicedFrom_or_approaches run noReset hf with hs | ⟨hf', hlt | ⟨_, hp⟩⟩
      · exact hs
      · exact .of_succ hf (nearer _ (hd ▸ hlt) hf' rfl)
      · exact .of_succ hf (sooner hf' (hp ▸ hd) (by rwa [Nat.succ_add_eq_add_succ]))

end

/-- Settles O58: a moment at which the flag is set is served, whatever the phase. -/
theorem everyFlagIsServiced : Obligations.EveryFlagIsServiced := fun _ _ run own noReset _ _ =>
  servicedFrom_of_flag run own noReset

end Sys2Proof.Machine
end

section
/-! PROOFS. The ghost markers (R270): which step touches one, and how, said once. -/

namespace Sys2Proof.Machine

/-- The steps that can set a marker of R270; TICK is apart, since it is enabled in every state. -/
def touchesMarker : Instr → Bool
  | .conv _ | .xfer | .ackHt | .ackTc => true
  | _ => false

/-- Everything a step but RESET can do to the markers (R270). -/
theorem Effect.marker_cases {i : Instr} {s t : State} (h : Effect i s t) (hr : i ≠ .reset) :
    (∃ n : Data, i = .tick n ∧ t.ghost = (s.tickMany n.toNat).ghost) ∨
    (∃ v, i = .conv v ∧ s.se.busy = true ∧
      t.ghost = { s.ghost with sampleLost := s.ghost.sampleLost || (s.drq && s.te.en) }) ∨
    (i = .xfer ∧ xferEnabled s = true ∧ t.ghost = { s.ghost with
      halfLost := s.ghost.halfLost || (s.te.htif && decide (s.te.cur.toNat + 1 = s.te.n.toNat / 2))
      fullLost := s.ghost.fullLost || (s.te.tcif && decide (s.te.cur.toNat + 1 = s.te.n.toNat)) }) ∨
    (i = .ackHt ∧ s.te.htif = true ∧
      t.ghost = { s.ghost with halfLost := s.ghost.halfLost || s.cf.halfReady }) ∨
    (i = .ackTc ∧ s.te.tcif = true ∧
      t.ghost = { s.ghost with fullLost := s.ghost.fullLost || s.cf.fullReady }) ∨
    ((touchesMarker i = true → enabled i s = false) ∧ t.ghost = s.ghost) := by
  cases h with
  | tick n => exact .inl ⟨n, rfl, rfl⟩
  | conv v _ hb => exact .inr (.inl ⟨v, rfl, hb, rfl⟩)
  | xfer _ hx => exact .inr (.inr (.inl ⟨rfl, hx, (transfer_spec s).ghost_eq⟩))
  | ackHt _ hp => exact .inr (.inr (.inr (.inl ⟨rfl, hp, rfl⟩)))
  | ackTc _ hp => exact .inr (.inr (.inr (.inr (.inl ⟨rfl, hp, rfl⟩))))
  | reset => exact absurd rfl hr
  | read _ r _ hi =>
    have untouched : touchesMarker i = false := by subst hi; cases r <;> rfl
    exact .inr (.inr (.inr (.inr (.inr ⟨by simp [untouched], rfl⟩))))
  | refused _ st _ hi =>
    refine .inr (.inr (.inr (.inr (.inr ⟨fun htouch => ?_, rfl⟩))))
    rcases hi with ⟨_, d, rfl⟩ | ⟨_, ⟨d, rfl | rfl⟩, _⟩ | ⟨_, ⟨d, rfl | rfl | rfl | rfl⟩, _⟩ | ⟨_, ⟨d, rfl, _⟩, _⟩ |
      ⟨_, hoff⟩
    case inr.inr.inr.inr => exact hoff
    all_goals cases htouch
  | _ => exact .inr (.inr (.inr (.inr (.inr ⟨fun htouch => (nomatch htouch), rfl⟩))))

/-- Settles O42: each way to touch a marker, against the table of R270. -/
theorem ghostMarkersRecordTheirHazard : Obligations.GhostMarkersRecordTheirHazard := by
  intro i s t e hr
  rcases (exec_effect e).marker_cases hr with ⟨n, rfl, hg⟩ | ⟨v, rfl, hb, hg⟩ | ⟨rfl, hx, hg⟩ | ⟨rfl, hp, hg⟩ |
    ⟨rfl, hp, hg⟩ | ⟨hoff, hg⟩
  · have f := tickMany_frame s n.toNat
    rw [hg, f.sample, f.half, f.full]
    simpa +contextual using ⟨f.lost, f.loses⟩
  · rw [hg]
    simp +contextual [hb]
  · rw [hg]
    simp +contextual [hx, and_comm]
  · rw [hg]
    simp +contextual [hp]
  · rw [hg]
    simp +contextual [hp]
  · have off (j : Instr) (hj : touchesMarker j = true) (hon : enabled j s = true) : i ≠ j := by
      rintro rfl
      simp [hoff hj] at hon
    rw [hg]
    refine ⟨id, id, id, id, ?_, ?_, ?_, ?_⟩
    · simp +contextual
    · refine fun hs => ⟨by simp [hs], ?_⟩
      rintro ⟨⟨v, rfl⟩, hb, _⟩
      exact absurd rfl (off (.conv v) rfl hb)
    · refine fun hs => ⟨by simp [hs], ?_⟩
      rintro (⟨rfl, hx, _⟩ | ⟨rfl, hp, _⟩)
      · exact absurd rfl (off .xfer rfl hx)
      · exact absurd rfl (off .ackHt rfl hp)
    · refine fun hs => ⟨by simp [hs], ?_⟩
      rintro (⟨rfl, hx, _⟩ | ⟨rfl, hp, _⟩)
      · exact absurd rfl (off .xfer rfl hx)
      · exact absurd rfl (off .ackTc rfl hp)

end Sys2Proof.Machine
end

section
/-! PROOFS. From reset: who can change the state (R261), and the boot sequence (R262): nine commands, each accepted,
from reset to the booted pipeline. -/

namespace Sys2Proof.Machine

/-- Settles O2: a state at reset is settled, so of the hardware agents' steps TICK alone is enabled, and its counter is
stopped. -/
theorem onlyHostAndEnvironmentChangeAResetState : Obligations.OnlyHostAndEnvironmentChangeAResetState := by
  intro s t i h e
  by_cases hi : enabled i s = true
  · rcases enabled_of_settled h.settled hi with hh | ⟨n, rfl⟩ | rfl | rfl | rfl | rfl
    · exact .inl hh
    · rw [exec_tick_stopped (by rw [h.tg])] at e
      cases e
      exact .inr (.inr rfl)
    all_goals exact .inr (.inl rfl)
  · rw [exec_of_not_enabled (by simpa using hi)] at e
    cases e
    exact .inr (.inr rfl)

/-! ### The boot sequence -/

/-- A run of commands, every one of which answers OK without data. -/
inductive AcceptedRun : List Instr → State → State → Prop where
  | nil (s : State) : AcceptedRun [] s s
  | cons {i : Instr} {is : List Instr} {s u t : State} (h : exec i s = .next u) (hok : u.rsp = some 0x00000000)
      (rest : AcceptedRun is u t) : AcceptedRun (i :: is) s t

theorem AcceptedRun.run_eq {is : List Instr} {s t : State} (h : AcceptedRun is s t) : runInstrs is s = .next t := by
  induction h with
  | nil => rfl
  | cons e _ _ ih => rw [runInstrs, e, andThen_next, ih]

/-- Every first part of such a run ends with an OK too. -/
theorem AcceptedRun.take_accepted {is : List Instr} {s t : State} (h : AcceptedRun is s t) {k : Nat}
    (hk : k < is.length) :
    ∃ u, runInstrs (is.take (k + 1)) s = .next u ∧ u.rsp = some 0x00000000 := by
  induction h generalizing k with
  | nil => cases hk
  | cons e hok _ ih =>
    rw [List.take_succ_cons, runInstrs, e, andThen_next]
    cases k with
    | zero => exact ⟨_, rfl, hok⟩
    | succ k => exact ih (Nat.lt_of_succ_lt_succ hk)

/-- The pipeline that the boot sequence builds on a state at reset. -/
def bootedFrom (s : State) (d n settings p a : Data) : State :=
  { s with
    tg := ⟨p, a, true, 0, 0⟩
    se := ⟨dataBit settings 0, dataBit settings 1, dataCh settings, dataSmp settings, 0, false⟩
    te := ⟨true, true, true, true, 0x0011, d, n, 0, false, false, false, false, false⟩
    rsp := some 0x00000000 }

/-- The enable of a disabled engine with a valid configuration (R151). -/
theorem exec_enable {s : State} (he : s.te.en = false) (hv : cfgValid s.te = true) :
    exec (.wrTeEn 1) s = .next s.enableEngine.done := by
  simp [exec, execWrTeEn, dataBit, he, hv]

section

variable {s : State} {d n settings p a : Data} (h : AtReset s) (heven : n.toNat % 2 = 0) (htwo : 2 ≤ n.toNat)
  (hmem : d.toNat + n.toNat ≤ 65536)

include h heven htwo hmem

/-- The nine commands, one after the other: the ring while the engine is disabled (R168), the enable of a valid
configuration (R151), the settings, the period while the counter is stopped (R113, R115), the start. -/
theorem acceptedRun_boot :
    AcceptedRun (bootCommands d n settings p a) s (bootedFrom s d n settings p a) := by
  obtain ⟨tg, se, drq, te, cf, buf, ghost, inbox, rsp, trigOut⟩ := s
  obtain ⟨rfl, rfl, rfl, rfl, -, -, -⟩ := h
  have valid : cfgValid ⟨false, true, true, true, 0x0011, d, n, 0, false, false, false, false, false⟩ = true :=
    (configurationValidity _).mpr ⟨heven, htwo, hmem, rfl, rfl⟩
  exact .cons rfl rfl <| .cons rfl rfl <| .cons rfl rfl <| .cons rfl rfl <| .cons (exec_enable rfl valid) rfl <|
    .cons rfl rfl <| .cons rfl rfl <| .cons rfl rfl <| .cons rfl rfl (.nil _)

/-- Nothing is in flight after the boot, and the cursor is below the capacity. -/
theorem booted_bootedFrom (hbuf : s.buf = []) (harm : dataBit settings 0 = true) :
    Booted (bootedFrom s d n settings p a) where
  inv := {
    pcnt_le := Nat.zero_le _
    cnt_le := Nat.zero_le _
    valid := fun _ => (configurationValidity _).mpr ⟨heven, htwo, hmem, rfl, rfl⟩
    cur_lt := fun _ => Nat.lt_of_lt_of_le Nat.zero_lt_two htwo
    mem := hbuf ▸ Memory.wf_nil }
  run := rfl
  phase := by simp [bootedFrom, phase]
  arm := harm
  en := rfl
  circ := rfl
  dinc := rfl
  cur := rfl
  settled := (settled_iff _).mpr ⟨rfl, fun _ => h.drq, rfl, rfl, rfl, rfl, rfl⟩

end

/-- Settles O47: the nine commands are accepted one by one, and together they build `bootedFrom`. -/
theorem bootSequenceStartsThePipeline : Obligations.BootSequenceStartsThePipeline := by
  intro s d n settings p a h hbuf heven htwo hmem hset
  have harm : dataBit settings 0 = true := by simp [dataBit_zero, hset]
  have run : AcceptedRun (bootCommands d n settings p a) s _ := acceptedRun_boot h heven htwo hmem
  refine ⟨fun k hk hk9 => ?_, _, run.run_eq, booted_bootedFrom h heven htwo hmem hbuf harm, rfl, rfl, rfl, rfl, h.cf,
    ?_, rfl⟩
  · obtain ⟨j, rfl⟩ := Nat.exists_eq_add_of_le' hk
    exact run.take_accepted hk9
  · simp [noMarker, bootedFrom, h.ghost]

end Sys2Proof.Machine
end

section
/-! PROOFS. The eager schedule (R272): it loses nothing (R265, R266), and by tick t it has made ⌊t / P⌋ transfers
(R273). -/

namespace Sys2Proof.Machine

/-! ### What a step of the schedule keeps -/

/-- No trigger and no sample is newly lost on the way from `s` to `t` (R265, R266). -/
structure Lossless (s t : State) : Prop where
  trig   : t.ghost.trigLost = true → s.ghost.trigLost = true
  sample : t.ghost.sampleLost = true → s.ghost.sampleLost = true

theorem Lossless.of_eq {s t : State} (trig : t.ghost.trigLost = s.ghost.trigLost)
    (sample : t.ghost.sampleLost = s.ghost.sampleLost) : Lossless s t :=
  ⟨trig ▸ id, sample ▸ id⟩

theorem Lossless.trans {s t u : State} (h : Lossless s t) (k : Lossless t u) : Lossless s u :=
  ⟨h.trig ∘ k.trig, h.sample ∘ k.sample⟩

/-- What the eager schedule keeps from one step of a trace to the next. -/
structure KeepsPace (s t : State) : Prop where
  inv      : Inv t
  settled  : settled t = true
  lossless : Lossless s t

theorem KeepsPace.trans {s t u : State} (h : KeepsPace s t) (k : KeepsPace t u) : KeepsPace s u :=
  ⟨k.inv, k.settled, h.lossless.trans k.lossless⟩

/-- Only TICK loses a trigger, and only a CONV that is enabled loses a sample (R270). -/
theorem lossless_of_exec {i : Instr} {s t : State} (e : exec i s = .next t) (ht : ∀ n, i ≠ .tick n)
    (hc : s.se.busy = false ∨ ∀ v, i ≠ .conv v) : Lossless s t := by
  rcases eq_or_ne i .reset with rfl | hr
  · cases e
    exact ⟨nofun, nofun⟩
  rcases (exec_effect e).marker_cases hr with ⟨n, rfl, _⟩ | ⟨v, rfl, hb, _⟩ | ⟨_, _, hg⟩ | ⟨_, _, hg⟩ | ⟨_, _, hg⟩ |
    ⟨_, hg⟩
  · exact absurd rfl (ht n)
  · rcases hc with hidle | hne
    · simp [hb] at hidle
    · exact absurd rfl (hne v)
  · exact .of_eq (by rw [hg]) (by rw [hg])
  · exact .of_eq (by rw [hg]) (by rw [hg])
  · exact .of_eq (by rw [hg]) (by rw [hg])
  · exact .of_eq (by rw [hg]) (by rw [hg])

/-! ### The steps that bring no other step with them -/

/-- From a settled state every step but TICK and the error events leads to a settled state: no other step starts a
conversion or raises a condition, and a step that sets the enable bit drops the request (R151, R275). -/
theorem Effect.settled {i : Instr} {s t : State} (h : Effect i s t) (hs : Machine.settled s = true)
    (ht : ∀ n, i ≠ .tick n) (he : i ∉ [Instr.errTe, .errFe, .errDme]) : Machine.settled t = true := by
  obtain ⟨hbusy, hdrq, hht, htc, hte, hfe, hdme⟩ := (settled_iff s).mp hs
  rw [settled_iff]
  cases h with
  | tick n => exact absurd rfl (ht n)
  | errTe | errFe | errDme => simp at he
  | conv v _ hb => simp [hbusy] at hb
  | xfer _ hx =>
    obtain ⟨hen, hd⟩ := Bool.and_eq_true_iff.mp hx
    simp [hdrq hen] at hd
  | ackHt _ hp => simp [hht] at hp
  | ackTc _ hp => simp [htc] at hp
  | ackTe _ hp => simp [hte] at hp
  | ackFe _ hp => simp [hfe] at hp
  | ackDme _ hp => simp [hdme] at hp
  | reset => exact ⟨rfl, fun _ => rfl, rfl, rfl, rfl, rfl, rfl⟩
  | enable => exact ⟨hbusy, fun _ => rfl, hht, htc, hte, hfe, hdme⟩
  | disable => exact ⟨hbusy, fun hon => (nomatch hon), hht, htc, hte, hfe, hdme⟩
  | _ => exact ⟨hbusy, hdrq, hht, htc, hte, hfe, hdme⟩

theorem plain_keepsPace {r : EagerRun} {i : Instr} (hi : Inv r.st) (hs : settled r.st = true) (ht : ∀ n, i ≠ .tick n)
    (he : i ∉ [Instr.errTe, .errFe, .errDme]) :
    (∃ a, i = .rds a ∧ r.st.buf.read a.toNat = none) ∨ ∃ r', r.plain i = .next r' ∧ KeepsPace r.st r'.st := by
  rcases exec_completes_or_unwritten hi i with ⟨t, e⟩ | hstop
  · have ⟨hbusy, _⟩ := (settled_iff r.st).mp hs
    have h := exec_effect e
    exact .inr ⟨⟨r.drawn, r.notices, t⟩, by rw [EagerRun.plain, e, andThen_next],
      h.keeps_inv hi, h.settled hs ht he, lossless_of_exec e ht (.inl hbusy)⟩
  · exact .inl hstop

/-! ### The error events -/

/-- An error event raises its condition and its ACK takes it away, so nothing is pending again (R164 to R166, R183 to
R185). -/
theorem error_keepsPace {r : EagerRun} {err ack : Instr} (hi : Inv r.st) (hs : settled r.st = true)
    (h : (err, ack) ∈ [(Instr.errTe, Instr.ackTe), (.errFe, .ackFe), (.errDme, .ackDme)]) :
    ∃ r', r.error err ack = .next r' ∧ KeepsPace r.st r'.st := by
  obtain ⟨hbusy, hdrq, hht, htc, hte, hfe, hdme⟩ := (settled_iff r.st).mp hs
  simp only [List.mem_cons, Prod.mk.injEq, List.not_mem_nil, or_false] at h
  rcases h with ⟨rfl, rfl⟩ | ⟨rfl, rfl⟩ | ⟨rfl, rfl⟩
  · exact ⟨_, rfl, hi.of_frame rfl rfl rfl rfl rfl rfl, (settled_iff _).mpr ⟨hbusy, hdrq, hht, htc, rfl, hfe, hdme⟩,
      .of_eq rfl rfl⟩
  · exact ⟨_, rfl, hi.of_frame rfl rfl rfl rfl rfl rfl, (settled_iff _).mpr ⟨hbusy, hdrq, hht, htc, hte, rfl, hdme⟩,
      .of_eq rfl rfl⟩
  · exact ⟨_, rfl, hi.of_frame rfl rfl rfl rfl rfl rfl, (settled_iff _).mpr ⟨hbusy, hdrq, hht, htc, hte, hfe, rfl⟩,
      .of_eq rfl rfl⟩

/-! ### The steps that follow a trigger -/

/-- A step of the schedule that is fired is executed, and one that is not enabled is left out (R272). -/
theorem fire_cases {r r' : EagerRun} {i : Instr} {b : Bool} (e : r.fire i b = .next r') :
    r' = r ∨ exec i r.st = .next r'.st := by
  unfold EagerRun.fire at e
  split at e
  · obtain ⟨t, ht, e⟩ := andThen_eq_next e
    cases e
    exact .inr ht
  · cases e
    exact .inl rfl

/-- XFER and the ACK steps lose neither a trigger nor a sample (R270). -/
theorem fireAll_lossless {is : List Instr} {r r' : EagerRun} (h : ∀ i ∈ is, i ∈ agentSteps)
    (e : r.fireAll is = .next r') : Lossless r.st r'.st := by
  induction is generalizing r with
  | nil =>
    cases e
    exact .of_eq rfl rfl
  | cons i is ih =>
    obtain ⟨hmem, h⟩ := List.forall_mem_cons.mp h
    obtain ⟨u, hu, e⟩ := andThen_eq_next e
    have first : Lossless r.st u.st := by
      rcases fire_cases hu with rfl | hx
      · exact .of_eq rfl rfl
      · refine lossless_of_exec hx ?_ (.inr ?_) <;> rintro _ rfl <;> simp [agentSteps] at hmem
    exact first.trans (ih h e)

/-- With no conversion in progress and no sample to copy, the five ACK steps settle the machine. -/
theorem fireAll_acks_settles {r : EagerRun} (hi : Inv r.st) (hbusy : r.st.se.busy = false)
    (hdrq : r.st.te.en = true → r.st.drq = false) (hte : r.st.te.teif = false) (hfe : r.st.te.feif = false)
    (hdme : r.st.te.dmeif = false) :
    ∃ r', r.fireAll [.ackHt, .ackTc, .ackTe, .ackFe, .ackDme] = .next r' ∧ Inv r'.st ∧ settled r'.st = true := by
  obtain ⟨t, e, f⟩ := fireAll_acks hte hfe hdme
  refine ⟨_, e, hi.noticed f, ?_⟩
  rw [settled_iff, f.te, f.se, f.drq]
  exact ⟨hbusy, hdrq, rfl, rfl, hte, hfe, hdme⟩

/-- XFER copies the sample if the engine is enabled, and the ACK steps take what it raised (R272). -/
theorem fireAll_eagerRest_settles {r : EagerRun} (hi : Inv r.st) (hbusy : r.st.se.busy = false)
    (hquiet : NonePending r.st.te) :
    ∃ r', r.fireAll eagerRest = .next r' ∧ Inv r'.st ∧ settled r'.st = true := by
  rw [eagerRest, EagerRun.fireAll]
  cases hx : xferEnabled r.st with
  | false =>
    rw [fire_of_not_enabled (i := .xfer) false hx, andThen_next]
    refine fireAll_acks_settles hi hbusy (fun he => ?_) hquiet.teif hquiet.feif hquiet.dmeif
    simpa [xferEnabled, he] using hx
  | true =>
    obtain ⟨he, hd⟩ := Bool.and_eq_true_iff.mp hx
    have hxfer : exec .xfer r.st = _ := execXfer_eq hi he hd
    have f := transfer_spec r.st
    rw [fire_of_enabled (i := .xfer) false hx hxfer, andThen_next]
    exact fireAll_acks_settles ((exec_effect hxfer).keeps_inv hi) (f.se ▸ hbusy) (fun _ => f.drq)
      (f.teif.trans hquiet.teif) (f.feif.trans hquiet.feif) (f.dmeif.trans hquiet.dmeif)

/-- CONV and what follows it: an enabled engine has copied every older sample, so none is lost (R266, R272). -/
theorem conv_keepsPace (x : Sample) {r : EagerRun} (hi : Inv r.st) (hbusy : r.st.se.busy = true)
    (hdrq : r.st.te.en = true → r.st.drq = false) (hquiet : NonePending r.st.te) :
    ∃ r', andThen (r.fire (.conv x) true) (fun r' => r'.fireAll eagerRest) = .next r' ∧ KeepsPace r.st r'.st := by
  have hconv : exec (.conv x) r.st = .next (r.st.completeConversion x).done := if_pos hbusy
  have copied : (r.st.drq && r.st.te.en) = false := by
    cases he : r.st.te.en with
    | false => exact Bool.and_false _
    | true => rw [hdrq he, Bool.false_and]
  have drawn : Lossless r.st (r.st.completeConversion x).done := .of_eq rfl (by simp [copied])
  rw [fire_of_enabled (i := .conv x) true hbusy hconv, andThen_next]
  obtain ⟨r', e, hi', hs'⟩ := fireAll_eagerRest_settles ((exec_effect hconv).keeps_inv hi) rfl hquiet
    (r := ⟨r.drawn + 1, r.notices, (r.st.completeConversion x).done⟩)
  exact ⟨r', e, hi', hs', drawn.trans (fireAll_lossless (fun _ => id) e)⟩

/-! ### A tick -/

/-- An idle Sampling Engine loses no trigger (R135). -/
theorem tickOnce_ghost_of_idle {s : State} (h : s.se.busy = false) : s.tickOnce.ghost = s.ghost := by
  rcases tickOnce_cases s with ⟨_, e⟩ | ⟨_, _, e⟩ | ⟨_, _, _, e⟩ | ⟨_, _, _, e⟩
  · rw [e]
  · rw [e]
  · rw [e]
  · rw [e, State.emitTrigger, State.receiveTrigger]
    split
    · simp [h]
    · rfl

/-- A tick starts a conversion only by a pulse that an armed engine gets (R119, R135). -/
theorem pulse_of_start {s : State} (hidle : s.se.busy = false) (hbusy : s.tickOnce.se.busy = true) :
    s.trigOut < s.tickOnce.trigOut ∧ s.tickOnce.se.arm = true := by
  have f := tickOnce_frame s
  have pulse : s.tickOnce.trigOut ≠ s.trigOut := by
    intro h
    rw [tickOnce_of_no_pulse h] at hbusy
    simp [hidle] at hbusy
  exact ⟨Nat.lt_of_le_of_ne f.pulses pulse.symm, f.arm.trans (f.starts hidle hbusy).1⟩

/-- One tick: an armed engine that gets a trigger converts at once, and otherwise the tick leaves everything but the
Trigger Generator settled (R117, R135, R272). -/
theorem tick_keepsPace (v : Nat → Sample) {r : EagerRun} (hi : Inv r.st) (hs : settled r.st = true) :
    ∃ r', r.tick v = .next r' ∧ KeepsPace r.st r'.st := by
  obtain ⟨hbusy, hdrq, hpending⟩ := (settled_iff r.st).mp hs
  have f := tickOnce_frame r.st
  have ticked : Lossless r.st r.st.tickOnce.done := by
    have hg := tickOnce_ghost_of_idle hbusy
    exact .of_eq (by rw [State.done_ghost, hg]) (by rw [State.done_ghost, hg])
  have hi₁ : Inv r.st.tickOnce.done := (exec_effect (exec_tick_one r.st)).keeps_inv hi
  rw [EagerRun.tick, exec_tick_one, andThen_next]
  split
  · next hfires =>
    obtain ⟨hp, harm⟩ := hfires
    obtain ⟨r', e, h⟩ := conv_keepsPace (v r.drawn) (r := ⟨r.drawn, r.notices, r.st.tickOnce.done⟩) hi₁
      (busy_of_pulse (f.arm.symm.trans harm) hp.ne') (by simpa [f.te, f.drq] using hdrq) (f.te ▸ .of_settled hs)
    exact ⟨r', e, h.inv, h.settled, ticked.trans h.lossless⟩
  · next hquiet =>
    refine ⟨_, rfl, hi₁, ?_, ticked⟩
    have idle : r.st.tickOnce.se.busy = false := by
      cases hb : r.st.tickOnce.se.busy with
      | false => rfl
      | true => exact absurd (pulse_of_start hbusy hb) hquiet
    rw [settled_iff, State.done_te, State.done_drq, f.te, f.drq]
    exact ⟨idle, hdrq, hpending⟩

theorem ticks_keepsPace (v : Nat → Sample) (n : Nat) {r : EagerRun} (hi : Inv r.st) (hs : settled r.st = true) :
    ∃ r', r.ticks v n = .next r' ∧ KeepsPace r.st r'.st := by
  induction n generalizing r with
  | zero => exact ⟨r, rfl, hi, hs, .of_eq rfl rfl⟩
  | succ n ih =>
    obtain ⟨r₁, e₁, h₁⟩ := tick_keepsPace v hi hs
    obtain ⟨r₂, e₂, h₂⟩ := ih h₁.inv h₁.settled
    exact ⟨r₂, by rw [EagerRun.ticks, e₁, andThen_next, e₂], h₁.trans h₂⟩

/-- Every step of a trace under the eager schedule keeps pace, but the read of a slot that holds no value. -/
theorem step_keepsPace (v : Nat → Sample) {r : EagerRun} (i : Instr) (hi : Inv r.st) (hs : settled r.st = true) :
    (∃ a, i = .rds a ∧ r.st.buf.read a.toNat = none) ∨ ∃ r', r.step v i = .next r' ∧ KeepsPace r.st r'.st := by
  cases i with
  | tick n => exact .inr (ticks_keepsPace v n.toNat hi hs)
  | errTe | errFe | errDme => exact .inr (error_keepsPace hi hs (by simp))
  | _ => exact plain_keepsPace hi hs (by simp) (by simp)

/-- Settles O48: `step_keepsPace`, its parts named. -/
theorem eagerScheduleLosesNothing : Obligations.EagerScheduleLosesNothing := fun v _ i hi hs =>
  (step_keepsPace v i hi hs).imp_right fun ⟨r', e, h⟩ =>
    ⟨r', e, h.inv, h.settled, h.lossless.trig, h.lossless.sample⟩

/-! ### The timing law -/

/-- In a ring the ends of the halves are the multiples of the half's length. -/
theorem dvd_iff_end_of_half {h m : Nat} (hpos : 0 < m) (hle : m ≤ h * 2) : h ∣ m ↔ m = h ∨ m = h * 2 := by
  constructor
  · rintro ⟨c, rfl⟩
    have hc : c ≤ 2 := Nat.le_of_mul_le_mul_left hle (Nat.pos_of_mul_pos_right hpos)
    interval_cases c
    · simp at hpos
    · exact .inl (Nat.mul_one h)
    · exact .inr rfl
  · rintro (rfl | rfl)
    · exact Nat.dvd_refl m
    · exact Nat.dvd_mul_right h 2

/-- Among `k + 1` transfers one more end of a half is reached than among `k` exactly if the cursor, which counts modulo
N, comes to N/2 or N with the last of them. -/
theorem halves_succ {n : Nat} (k : Nat) (heven : n % 2 = 0) (htwo : 2 ≤ n) :
    (k + 1) / (n / 2) = k / (n / 2) + (decide (k % n + 1 = n / 2)).toNat + (decide (k % n + 1 = n)).toNat := by
  obtain ⟨h, rfl⟩ : ∃ h, n = h * 2 := ⟨n / 2, by omega⟩
  have hlt : k % (h * 2) < h * 2 := Nat.mod_lt k (by omega)
  have ends : h ∣ k + 1 ↔ k % (h * 2) + 1 = h ∨ k % (h * 2) + 1 = h * 2 := by
    rw [← dvd_iff_end_of_half (Nat.succ_pos _) hlt]
    exact ((Nat.mod_modEq k (h * 2)).symm.add_right 1).dvd_iff (Nat.dvd_mul_right h 2)
  rw [Nat.mul_div_cancel h Nat.two_pos, Nat.succ_div, Nat.add_assoc]
  congr 1
  by_cases hmid : k % (h * 2) + 1 = h
  · have hend : h ≠ h * 2 := by omega
    simp [ends, hmid, hend]
  · simp only [ends, hmid, false_or, decide_false, Bool.toNat_false, Nat.zero_add]
    split <;> simp [*]

/-- After `t` ticks of a run from the booted `r₀`, with `k` periods completed. -/
structure Paced (r₀ : EagerRun) (t k : Nat) (r : EagerRun) : Prop where
  inv     : Inv r.st
  settled : settled r.st = true
  run     : r.st.tg.run = true
  arm     : r.st.se.arm = true
  rate    : period r.st.tg = period r₀.st.tg
  ring    : SameRing r₀.st r.st
  time    : period r₀.st.tg * k + phase r.st.tg = t
  pulses  : r.st.trigOut = r₀.st.trigOut + k
  drawn   : r.drawn = r₀.drawn + k
  cur     : r.st.te.cur.toNat = k % r₀.st.te.n.toNat
  notices : r.notices = r₀.notices + k / (r₀.st.te.n.toNat / 2)

theorem Booted.paced {r : EagerRun} (h : Booted r.st) : Paced r 0 0 r where
  inv := h.inv
  settled := h.settled
  run := h.run
  arm := h.arm
  rate := rfl
  ring := .of_te rfl
  time := by rw [h.phase]; rfl
  pulses := rfl
  drawn := rfl
  cur := by rw [h.cur]; exact (Nat.zero_mod _).symm
  notices := by rw [Nat.zero_div]; rfl

/-- A tick inside a period changes the phase only. -/
theorem Paced.tick_of_no_pulse {r₀ r : EagerRun} {t k : Nat} (h : Paced r₀ t k r)
    (hphase : phase r.st.tickOnce.tg = phase r.st.tg + 1) (hpulse : r.st.tickOnce.trigOut = r.st.trigOut) :
    Paced r₀ (t + 1) k ⟨r.drawn, r.notices, r.st.tickOnce.done⟩ where
  inv := (exec_effect (exec_tick_one r.st)).keeps_inv h.inv
  settled := by
    show Machine.settled r.st.tickOnce.done = true
    rw [tickOnce_of_no_pulse hpulse]
    exact h.settled
  run := (tickOnce_frame r.st).run.trans h.run
  arm := (tickOnce_frame r.st).arm.trans h.arm
  rate := (tickOnce_frame r.st).period_eq.trans h.rate
  ring := h.ring.trans (.of_te (tickOnce_frame r.st).te)
  time := by rw [State.done_tg, hphase, ← Nat.add_assoc, h.time]
  pulses := hpulse.trans h.pulses
  drawn := h.drawn
  cur := by rw [State.done_te, (tickOnce_frame r.st).te, h.cur]
  notices := h.notices

/-- The tick that ends a period makes one transfer, with a notice at the end of a half. -/
theorem Paced.tick_of_pulse {r₀ r : EagerRun} {t k : Nat} {x : Sample} {u : State} (h : Paced r₀ t k r)
    (hb : Booted r₀.st) (hlast : phase r.st.tg + 1 = period r.st.tg) (hphase : phase r.st.tickOnce.tg = 0)
    (hpulse : r.st.tickOnce.trigOut = r.st.trigOut + 1) (g : Sampled x r.st.tickOnce.done u) :
    Paced r₀ (t + 1) (k + 1) ⟨r.drawn + 1,
      r.notices + (decide (r.st.te.cur.toNat + 1 = r.st.te.n.toNat / 2)).toNat
        + (decide (r.st.te.cur.toNat + 1 = r.st.te.n.toNat)).toNat, u⟩ := by
  have f := tickOnce_frame r.st
  obtain ⟨heven, htwo, _⟩ := cfgValid_bounds (hb.inv.valid hb.en)
  have ticked : SameRing r.st r.st.tickOnce.done := .of_te f.te
  refine ⟨g.inv, g.settled, ?_, g.arm.trans (f.arm.trans h.arm), ?_, (h.ring.trans ticked).trans g.ring, ?_, ?_,
    ?_, ?_, ?_⟩
  · rw [g.tg]
    exact f.run.trans h.run
  · rw [g.tg]
    exact f.period_eq.trans h.rate
  · rw [g.tg, State.done_tg, hphase, ← h.time, Nat.add_assoc _ _ 1, hlast, h.rate, Nat.mul_add_one, Nat.add_zero]
  · rw [g.pulse, State.done_trigOut, hpulse, h.pulses, Nat.add_assoc]
  · rw [h.drawn, Nat.add_assoc]
  · rw [g.cur, State.done_te, f.te, h.cur, h.ring.n, Nat.mod_add_mod]
  · rw [h.notices, h.cur, h.ring.n, halves_succ k heven htwo]
    simp only [Nat.add_assoc]

theorem Paced.tick (v : Nat → Sample) {r₀ r : EagerRun} {t k : Nat} (h : Paced r₀ t k r) (hb : Booted r₀.st) :
    ∃ r' k', r.tick v = .next r' ∧ Paced r₀ (t + 1) k' r' := by
  rcases tickOnce_phase h.run h.inv.pcnt_le h.inv.cnt_le with ⟨_, hphase, hpulse⟩ | ⟨hlast, hphase, hpulse⟩
  · exact ⟨_, k, Machine.tick_of_no_pulse v hpulse, h.tick_of_no_pulse hphase hpulse⟩
  · obtain ⟨u, e, g⟩ := Machine.tick_of_pulse v h.inv h.settled (h.ring.en.trans hb.en) (h.ring.circ.trans hb.circ)
      h.arm (by omega)
    exact ⟨_, k + 1, e, h.tick_of_pulse hb hlast hphase hpulse g⟩

theorem Paced.ticks (v : Nat → Sample) {r₀ r : EagerRun} {t k : Nat} (h : Paced r₀ t k r) (hb : Booted r₀.st)
    (m : Nat) :
    ∃ r' k', r.ticks v m = .next r' ∧ Paced r₀ (t + m) k' r' := by
  induction m generalizing t k r with
  | zero => exact ⟨r, k, rfl, h⟩
  | succ m ih =>
    obtain ⟨r₁, k₁, e₁, h₁⟩ := h.tick v hb
    obtain ⟨r₂, k₂, e₂, h₂⟩ := ih h₁
    exact ⟨r₂, k₂, by rw [EagerRun.ticks, e₁, andThen_next, e₂], by rwa [Nat.add_assoc, Nat.add_comm 1 m] at h₂⟩

/-- The periods completed are ⌊t / P⌋, since the phase is below P (R118). -/
theorem Paced.periods_eq {r₀ r : EagerRun} {t k : Nat} (h : Paced r₀ t k r) : k = t / period r₀.st.tg := by
  have hlt := phase_lt_period h.inv.pcnt_le h.inv.cnt_le
  rw [h.rate] at hlt
  rw [← h.time, Nat.mul_add_div (period_pos _), Nat.div_eq_of_lt hlt, Nat.add_zero]

/-- Settles O49: the counts of `Paced` after `t` ticks. -/
theorem timingLawUnderTheEagerSchedule : Obligations.TimingLawUnderTheEagerSchedule := by
  intro v r t hb
  obtain ⟨r', k, e, h⟩ := hb.paced.ticks v hb t
  rw [Nat.zero_add] at h
  obtain rfl := h.periods_eq
  exact ⟨r', e, h.pulses, h.drawn, h.cur, by rw [h.notices, Nat.div_div_eq_div_mul]⟩

end Sys2Proof.Machine
end
